-- ==== Sys2Proof/Word.lean ====
section
/-! DEFINITION. The widths of the block: symbols, port words and port addresses (00_scope.md rule R5). -/

namespace Sys2Proof

/-- A port data word and every 32-bit register: DATA_W = FREQ_W = 32 (R5). -/
abbrev Word := BitVec 32

/-- A symbol, "one byte value (0–255)": SYM_BITS = 8 (R5, R9). -/
abbrev Byte := BitVec 8

/-- A word address of the host port: ADDR_W = 16 (R5, R60). -/
abbrev Addr := BitVec 16

/-- A bit sequence; its first element is the first bit serialised or consumed (R8). -/
abbrev Bits := List Bool

end Sys2Proof
end

