-- ==== Sys2Proof/Machine/Types.lean ====
section
/-! DEFINITION. The kinds of data the block's state is made of: node records, error codes, buffers, the host's port accesses
and the agents of a step. -/

namespace Sys2Proof.Machine

/-- A record of the NODE arena: "either a Leaf (carries a Symbol and its frequency) or an Internal node" (R32). Children are
node indices. -/
inductive Node where
  | leaf (sym : Byte) (freq : Word)
  | internal (left right : Nat) (freq : Word)
  deriving DecidableEq, Repr, Inhabited

/-- The error codes of R210; codes 9 to 15 are never produced and have no constructor. -/
inductive ErrorCode where
  | none
  | emptyInput
  | missingSymbol
  | framing
  | emptyTree
  | capacity
  | length
  | freqOverflow
  | illegalCmd
  deriving DecidableEq, Repr

/-- A buffer of cells `w` bits wide, as a list of (cell, value) pairs for the cells written since the contents were last left
unspecified, and the number of the free values that every other cell reads as (R241, log entry 5). For `w = 8` a pair is a
`Host.Cell`. -/
structure Memory (w : Nat) where
  draw  : Nat
  cells : List (Nat × BitVec w)
  deriving DecidableEq, Repr

/-- One thing the host does at the port: `MemRead(a, size)`, `MemWrite(a, size, v)` (R7, R20), or the polling loop WAIT (R98). -/
inductive HostOp where
  | read  (addr : Addr) (size : Nat)
  | write (addr : Addr) (size : Nat) (value : Word)
  | wait
  deriving DecidableEq, Repr

/-- Who makes a transition: the host, the engine (R20), or the reset input (R240). -/
inductive Agent where
  | host
  | engine
  | reset
  deriving DecidableEq, Repr

/-- What a host port address names: one of the rows of the map of R23, with the index inside a window (R62). -/
inductive Region where
  | id | cmd | status | inLen | bitLen | outLen
  | leafCount | nodeCount | root | totalFreq
  | errInfo | errSym | inCap | outCap | bitCap
  | freq (s : Byte)
  | nodeFreq (i : Nat)
  | nodeLink (i : Nat)
  | codeLen (s : Byte)
  | codeBits (s : Byte) (k : Nat)
  | inBuf (i : Nat)
  | outBuf (i : Nat)
  | bitBuf (w : Nat)
  | reserved
  deriving DecidableEq, Repr

/-- How a command's rule ends: in exactly one `complete` or one `raise E(info, sym)` (R110, R7). -/
inductive Ending where
  | complete
  | raise (code : ErrorCode) (info : Word) (sym : Byte)
  deriving DecidableEq, Repr

/-- An error found part-way through ENCODE or DECODE: its code, the index it reports and the symbol (R173, R193). -/
structure Failure where
  code : ErrorCode
  info : Nat
  sym  : Byte
  deriving DecidableEq, Repr

/-- The key of a pool member: the pair (frequency, node index) of R132. -/
structure Key where
  freq  : Nat
  index : Nat
  deriving DecidableEq, Repr

/-- DECODE's working state: the current node and the symbols emitted so far (R190, R191). -/
structure Walk where
  node : Nat
  out  : List Byte
  deriving DecidableEq, Repr

end Sys2Proof.Machine
end

