-- ==== Sys2Proof/Config.lean ====
section
/-! DEFINITION. What an implementation fixes (the capacity parameters of R5) and the free values (what the spec leaves
unspecified: 93_implementation_defined.md). -/

namespace Sys2Proof.Config

/-- The capacity parameters of R5 (D15), which the block reports in IN_CAP_R, OUT_CAP_R and BIT_CAP_R (R35). -/
structure Params where
  inCap  : Nat
  outCap : Nat
  bitCap : Nat
  deriving DecidableEq, Repr

/-- The default build of R5. -/
def defaultParams : Params := { inCap := 4096, outCap := 4096, bitCap := 32768 }

/-- Free values of `w` bits, one for every draw number and cell: the unspecified buffer cells (R241, R173, R193) and the
unspecified reads while BUSY (R251). Nothing constrains them (log entry 4). -/
opaque freeBits (w : Nat) (draw cell : Nat) : BitVec w

/-- The NODE entries at or beyond NODE_COUNT: "unspecified, unobservable" (R242, I11; log entry 9). -/
opaque freeNode (index : Nat) : Machine.Node

/-- The child field that a leaf record does not have; no state of R44 makes a command read it (log entry 9). -/
opaque freeChild (index : Nat) (bit : Bool) : Nat

/-- The symbol field that an internal record does not have; no state of R44 makes a command read it (log entry 9). -/
opaque freeSym (index : Nat) : Byte

end Sys2Proof.Config
end

