-- ==== Sys2Proof/Machine/State.lean ====
section
/-! DEFINITION. The state of the block (10_state.md), the reasons a step can stop, and the state right after reset (70 R242). -/

namespace Sys2Proof.Machine

/-- The state of the block and, after the line that says so, what the model holds about the world outside it. -/
structure State where
  /-- IN_CAP, OUT_CAP and BIT_CAP, as IN_CAP_R, OUT_CAP_R and BIT_CAP_R report them (R5, R35); no step changes them. -/
  params : Config.Params
  /-- CMD_LATCH: the last command word accepted (R25, R43). -/
  cmdLatch : Word
  /-- STATUS.BUSY (R26): an accepted command is pending. -/
  busy : Bool
  /-- STATUS.DONE (R26). -/
  done : Bool
  /-- STATUS.ERR (R26). -/
  err : Bool
  /-- STATUS.HAZ (R26, R250), sticky. -/
  haz : Bool
  /-- STATUS.ERRCODE (R26, R210). -/
  errCode : ErrorCode
  /-- STATUS.TREE_VALID (R26). -/
  treeValid : Bool
  /-- STATUS.TABLE_VALID (R26). -/
  tableValid : Bool
  /-- IN_LEN (R27). -/
  inLen : Word
  /-- BIT_LEN (R28). -/
  bitLen : Word
  /-- OUT_LEN (R29). -/
  outLen : Word
  /-- LEAF_COUNT (R31). -/
  leafCount : Word
  /-- NODE_COUNT (R31). -/
  nodeCount : Word
  /-- ROOT (R31). -/
  root : Word
  /-- TOTAL_FREQ (R31). -/
  totalFreq : Word
  /-- ERR_INFO (R36). -/
  errInfo : Word
  /-- ERR_SYM, bits 7:0 (R36). -/
  errSym : Byte
  /-- FREQ[0..255] (R30). -/
  freq : Vector Word 256
  /-- NODE[0..NODE_COUNT − 1], the architectural entries of the arena (R32). -/
  nodes : List Node
  /-- CODE[0..255] (R37). -/
  code : Vector Bits 256
  /-- IN_BUF (R41). -/
  inBuf : Memory 8
  /-- OUT_BUF (R42). -/
  outBuf : Memory 8
  /-- BIT_BUF, by words of 32 bits (R40; log entry 10). -/
  bitBuf : Memory 32
  -- What follows is the model's own: the world outside the block, and the count of free values.
  /-- The host's accesses still to come, first one first (log entry 2). -/
  program : List HostOp
  /-- Who moves next, first one first; when it is empty the fair default of `nextAgent` decides (log entry 1). -/
  sched : List Agent
  /-- The word the port answered to the host's last read; none before any read (log entry 2). -/
  readData : Option Word
  /-- The number of the next free value (log entry 4). -/
  draws : Nat
  deriving DecidableEq, Repr

/-- The block has no fault: "No behaviour of this block is modelled as `stuck`. The only `fault` is the optional one of row
I10" (93_implementation_defined.md), and this model takes I10's other choice, a free value per cell (log entry 5). So nothing
raises a fault. -/
inductive Fault
  deriving DecidableEq, Repr

/-- Why a step can be refused. -/
inductive Refusal where
  /-- An instruction of the opcode table that has no meaning yet: raised by `exec` alone, and by no arm of it now. Safe. -/
  | notModelled (mnemonic : String)
  /-- A host access of a size other than 4: raised by the host's turn. "A model refuses any other size by name" (R63, I19).
  Safe: the port cannot express such an access (log entry 11). -/
  | accessSize (size : Nat)
  deriving DecidableEq, Repr

/-- The state right after reset of a build with the capacities `p`: the values of R242, the buffers unspecified (R241), and
nothing of the world outside. -/
def State.resetOf (p : Config.Params) : State where
  params := p
  cmdLatch := 0
  busy := false
  done := false
  err := false
  haz := false
  errCode := .none
  treeValid := false
  tableValid := false
  inLen := 0
  bitLen := 0
  outLen := 0
  leafCount := 0
  nodeCount := 0
  root := 0
  totalFreq := 0
  errInfo := 0
  errSym := 0
  freq := Vector.replicate 256 0
  nodes := []
  code := Vector.replicate 256 []
  inBuf := { draw := 0, cells := [] }
  outBuf := { draw := 1, cells := [] }
  bitBuf := { draw := 2, cells := [] }
  program := []
  sched := []
  readData := none
  draws := 3

/-- The machine right after reset, in the default build of R5 (log entry 8). -/
def State.reset : State := State.resetOf Config.defaultParams

end Sys2Proof.Machine
end

