-- ==== Sys2Proof/Syntax.lean ====
section
/-! DEFINITION. The commands of the block, one constructor per row of spec/opcode_table.json. No command has an operand
field or an immediate (R91): every operand is implicit. -/

namespace Sys2Proof

/-- The seven commands of R92. An illegal word is no command: `decode` rejects it by name and the engine runs R113. -/
inductive Instr where
  /-- NOP (R111) -/
  | nop
  /-- CLEAR (R112) -/
  | clear
  /-- BUILD (R130) -/
  | build
  /-- DERIVE (R150) -/
  | derive
  /-- BUILD_CODE (R156) -/
  | buildCode
  /-- ENCODE (R170) -/
  | encode
  /-- DECODE (R190) -/
  | decode
  deriving DecidableEq, Repr

/-- The commands in the order of the opcode map (R92). -/
def Instr.all : List Instr := [.nop, .clear, .build, .derive, .buildCode, .encode, .decode]

end Sys2Proof
end

