-- ==== Sys2Proof/WellFormed.lean ====
section
/-! DEFINITION. Well-formed terms: commands (which have no operand that could be out of range, R91), the capacity parameters
of a build (R5), and the host's port accesses (R63). -/

namespace Sys2Proof

/-- Every command is well formed: no command has an operand field or an immediate (R91). -/
def Instr.wf : Instr → Bool
  | .nop => true
  | .clear => true
  | .build => true
  | .derive => true
  | .buildCode => true
  | .encode => true
  | .decode => true

/-- IN_CAP within the bounds of R5. -/
abbrev wfInCap (n : Nat) : Prop := 1 ≤ n ∧ n ≤ 4096

/-- OUT_CAP within the bounds of R5. -/
abbrev wfOutCap (n : Nat) : Prop := 1 ≤ n ∧ n ≤ 4096

/-- BIT_CAP a multiple of 32 within the bounds of R5. -/
abbrev wfBitCap (n : Nat) : Prop := 32 ≤ n ∧ n ≤ 32768 ∧ n % 32 = 0

/-- A build of the block is well formed when each capacity respects its bound (R5). -/
abbrev wfParams (p : Config.Params) : Prop := wfInCap p.inCap ∧ wfOutCap p.outCap ∧ wfBitCap p.bitCap

/-- The only access width of the port is the 32-bit word, size 4 (R7, R63). -/
def wfAccessSize (size : Nat) : Bool := size == 4

/-- A host access is well formed when it moves exactly one word (R63). -/
def wfHostOp : Machine.HostOp → Bool
  | .read _ size => wfAccessSize size
  | .write _ size _ => wfAccessSize size
  | .wait => true

end Sys2Proof
end

