-- ==== Sys2Proof/Decode.lean ====
section
/-! DEFINITION. The command word (30_encoding.md rules R90 to R95): the decoder, total on every 32-bit word and rejecting by
name, and the encoder written from the same table. -/

namespace Sys2Proof

/-- Why a word is ILLEGAL (R94). -/
inductive IllegalWord where
  /-- "Every word with RSV ≠ 0 is illegal" (R94). -/
  | reservedField
  /-- "Every word with RSV = 0 and OP in 0x07..0xFF is illegal" (R94). -/
  | reservedOpcode
  deriving DecidableEq, Repr

/-- The operation selector OP, bits 7:0 of a command word (R90). -/
def opField (w : Word) : Byte := w.extractLsb' 0 8

/-- The reserved field RSV, bits 31:8 of a command word (R90). -/
def rsvField (w : Word) : BitVec 24 := w.extractLsb' 8 24

/-- The opcode map of R92, by the OP field. -/
def opcodeMap (op : Byte) : Option Instr :=
  match op.toNat with
  | 0x00 => some .nop
  | 0x01 => some .clear
  | 0x02 => some .build
  | 0x03 => some .derive
  | 0x04 => some .buildCode
  | 0x05 => some .encode
  | 0x06 => some .decode
  | _ => none

/-- The decode function of R93: RSV is tested first, then OP selects. -/
def decode (w : Word) : Except IllegalWord Instr :=
  if rsvField w ≠ 0 then .error .reservedField
  else
    match opcodeMap (opField w) with
    | some i => .ok i
    | none => .error .reservedOpcode

/-- The OP value of a command (R92). -/
def Instr.opcode : Instr → Byte
  | .nop => 0x00
  | .clear => 0x01
  | .build => 0x02
  | .derive => 0x03
  | .buildCode => 0x04
  | .encode => 0x05
  | .decode => 0x06

/-- The command word of a command: RSV = 0 above OP (R90, R92). Every command is exactly one word (R95). -/
def encode (i : Instr) : Word := (0 : BitVec 24) ++ i.opcode

/-- What the decoder reads from an instruction of `nbits` bits numbered as spec/opcode_table.json numbers them: a command is
one 32-bit port word, so bit 0 of the table is bit 0 of the word and the bits above `nbits` are 0. -/
def decodeTableWord (nbits w : Nat) : Option Instr :=
  match decode (BitVec.ofNat 32 (w % 2 ^ nbits)) with
  | .ok i => some i
  | .error _ => none

end Sys2Proof
end

