-- ==== Sys2Proof/Machine/Ops.lean ====
section
/-! DEFINITION. The named operations over the registers, the arena and the buffers, and how a command ends: `complete` (R212)
and `raise` (R213), the block's only error entry. It has no trap and no return from one (R215, R218). -/

namespace Sys2Proof.Machine

/-! ### Arrays indexed by a symbol (FREQ, CODE) -/

/-- Element `s` of an array indexed by the 256 symbols (R30, R37). -/
def lookSym {α : Type} (v : Vector α 256) (s : Byte) : α := v[s.toNat]'s.isLt

/-- `A[s] <- x` for an array indexed by the 256 symbols (R7). -/
def putSym {α : Type} (v : Vector α 256) (s : Byte) (x : α) : Vector α 256 := v.set s.toNat x s.isLt

/-- The 256 symbols in ascending order (R131). -/
def symbols : List Byte := (List.range 256).map (BitVec.ofNat 8)

/-- A table with no entry: CODE[s] = [] for every s (R37). -/
def emptyTable : Vector Bits 256 := Vector.replicate 256 []

/-- FREQ with every entry 0 (R112). -/
def zeroFreq : Vector Word 256 := Vector.replicate 256 0

/-! ### Buffers -/

/-- The stored value of cell `i`, if the cell has been written since its contents were left unspecified. -/
def findCell {w : Nat} : List (Nat × BitVec w) → Nat → Option (BitVec w)
  | [], _ => none
  | (j, x) :: rest, i => if j = i then some x else findCell rest i

/-- What a cell that nothing has written reads as: the free value of its buffer's draw, one for every cell, the same at every
read until the cell is written (R241, R64; log entry 5). -/
def Memory.unlisted {w : Nat} (m : Memory w) (i : Nat) : BitVec w := Config.freeBits w m.draw i

/-- The value of cell `i`. -/
def Memory.read {w : Nat} (m : Memory w) (i : Nat) : BitVec w := (findCell m.cells i).getD (m.unlisted i)

/-- Store `v` at cell `i`, keeping the cells strictly rising. -/
def putCell {w : Nat} : List (Nat × BitVec w) → Nat → BitVec w → List (Nat × BitVec w)
  | [], i, v => [(i, v)]
  | (j, x) :: rest, i, v =>
    if i < j then (i, v) :: (j, x) :: rest
    else if i = j then (i, v) :: rest
    else (j, x) :: putCell rest i v

/-- `A[i] <- v` for a buffer. -/
def Memory.write {w : Nat} (m : Memory w) (i : Nat) (v : BitVec w) : Memory w := { m with cells := putCell m.cells i v }

/-- Store a list of values at the cells `i`, `i + 1`, and so on. -/
def Memory.writeFrom {w : Nat} (m : Memory w) (i : Nat) : List (BitVec w) → Memory w
  | [] => m
  | v :: vs => (m.write i v).writeFrom (i + 1) vs

/-- A buffer all of whose cells are unspecified: the free values of draw `d` (R241, R173, R193). -/
def Memory.unspecified (w d : Nat) : Memory w := { draw := d, cells := [] }

/-- The canonical form: the cells of a list rise strictly, all above `lo` where one is given. -/
def cellsRise {w : Nat} : Option Nat → List (Nat × BitVec w) → Bool
  | _, [] => true
  | lo, (i, _) :: rest => (match lo with | none => true | some l => decide (l < i)) && cellsRise (some i) rest

/-- Whether every listed cell lies below `cap`. -/
def cellsBelow {w : Nat} (cap : Nat) : List (Nat × BitVec w) → Bool
  | [] => true
  | (i, _) :: rest => decide (i < cap) && cellsBelow cap rest

/-- The canonical form of a buffer: its cells rise strictly. A listed cell is a written cell and an unlisted one has no stored
value, so two buffers with the same written cells, values and draw are the same data (log entry 5). -/
def Memory.wf {w : Nat} (m : Memory w) : Bool := cellsRise none m.cells

/-- Every written cell lies below the capacity of the buffer (R62). -/
def Memory.within {w : Nat} (m : Memory w) (cap : Nat) : Bool := cellsBelow cap m.cells

/-! ### The arena -/

/-- NODE[n]: the record for an architectural index, the free value for a hidden entry (R32, I11; log entry 9). -/
def nodeAt (nodes : List Node) (n : Nat) : Node := (nodes[n]?).getD (Config.freeNode n)

/-- The frequency of a record (R32). -/
def Node.freq : Node → Word
  | .leaf _ f => f
  | .internal _ _ f => f

/-- NODE[n].left (bit 0) or NODE[n].right (bit 1) (R191, R151). -/
def childOf (nodes : List Node) (n : Nat) (bit : Bool) : Nat :=
  match nodeAt nodes n with
  | .internal l r _ => if bit then r else l
  | .leaf _ _ => Config.freeChild n bit

/-- NODE[n].sym (R153, R194). -/
def symOf (nodes : List Node) (n : Nat) : Byte :=
  match nodeAt nodes n with
  | .leaf s _ => s
  | .internal _ _ _ => Config.freeSym n

/-! ### The command port and the ends of a command -/

/-- An accepted write of `v` to CMD (R25): the word is latched, BUSY is set and the completion fields are cleared. -/
def acceptCommand (v : Word) (s : State) : State :=
  { s with cmdLatch := v, busy := true, done := false, err := false, errCode := .none, errInfo := 0, errSym := 0 }

/-- `complete` (R212): success. ERR_INFO and ERR_SYM stay as the accepted CMD write left them. -/
def complete (s : State) : State := { s with busy := false, done := true, err := false, errCode := .none }

/-- `raise E(info, sym)` (R213): the one error entry of the block. -/
def raise (code : ErrorCode) (info : Word) (sym : Byte) (s : State) : State :=
  { s with busy := false, done := true, err := true, errCode := code, errInfo := info, errSym := sym }

/-- The end of an engine step: the effects of the command's body, then its `complete` or its `raise` (R110). -/
def finish : State × Ending → State
  | (s, .complete) => complete s
  | (s, .raise code info sym) => raise code info sym s

/-- No table: TABLE_VALID <- 0 and CODE[s] <- [] for every s (R150, R130). -/
def dropTable (s : State) : State := { s with tableValid := false, code := emptyTable }

/-- No session: no tree, no table, and the tree registers 0 (R130, R138, R112). The old NODE entries are no longer
architectural (NODE_COUNT = 0, R32; log entry 9). -/
def dropSession (s : State) : State :=
  { dropTable s with treeValid := false, nodes := [], leafCount := 0, nodeCount := 0, root := 0, totalFreq := 0 }

/-- Hardware reset, at any time (R240): every register takes its reset value (R242), the buffers are unspecified, a pending
command is discarded. The capacities are constants, and the world outside the block stays (log entry 15). -/
def hardReset (s : State) : State :=
  { State.resetOf s.params with
    inBuf := Memory.unspecified 8 s.draws
    outBuf := Memory.unspecified 8 (s.draws + 1)
    bitBuf := Memory.unspecified 32 (s.draws + 2)
    program := s.program
    sched := s.sched
    readData := s.readData
    draws := s.draws + 3 }

end Sys2Proof.Machine
end

