-- ==== Sys2Proof/Machine/Control.lean ====
section
/-! DEFINITION. The control commands (40_control.md): NOP, CLEAR, and what the engine does on an ILLEGAL word. -/

namespace Sys2Proof.Machine

/-- NOP (R111): `complete`. -/
def nopBody (s : State) : State × Ending := (s, .complete)

/-- CLEAR (R112): no session, FREQ and the three lengths 0, HAZ 0. The buffers and CMD_LATCH stay. -/
def clearBody (s : State) : State × Ending :=
  ({ dropSession s with freq := zeroFreq, inLen := 0, bitLen := 0, outLen := 0, haz := false }, .complete)

/-- ILLEGAL (R113): ILLEGAL_CMD with the whole word in ERR_INFO, and nothing else. -/
def illegalBody (s : State) : State × Ending := (s, .raise .illegalCmd s.cmdLatch 0)

/-- NOP (R111). -/
def execNop (s : State) : Host.Outcome State Fault Refusal := .next (finish (nopBody s))

/-- CLEAR (R112). -/
def execClear (s : State) : Host.Outcome State Fault Refusal := .next (finish (clearBody s))

/-- ILLEGAL (R113): what the engine step does when `decode` rejects the latched word. -/
def execIllegal (s : State) : Host.Outcome State Fault Refusal := .next (finish (illegalBody s))

end Sys2Proof.Machine
end

