-- ==== Sys2Proof/Machine/TreeBuilder.lean ====
section
/-! DEFINITION. The tree builder (41_tree_builder.md): BUILD. -/

namespace Sys2Proof.Machine

/-- R132: key(a) < key(b) iff freq(a) < freq(b), or freq(a) = freq(b) and a < b. -/
abbrev Key.less (a b : Key) : Prop := a.freq < b.freq ∨ (a.freq = b.freq ∧ a.index < b.index)

/-- The member of the pool with the least key, and the rest of the pool. -/
def removeLeast : List Key → Option (Key × List Key)
  | [] => none
  | k :: ks =>
    match removeLeast ks with
    | none => some (k, [])
    | some (m, rest) => if m.less k then some (m, k :: rest) else some (k, ks)

/-- The leaves in ascending symbol order, one for every symbol whose FREQ entry is not 0 (R131). -/
def leavesOf (freq : Vector Word 256) : List Node :=
  symbols.filterMap fun s => if lookSym freq s = 0 then none else some (.leaf s (lookSym freq s))

/-- The sum of the leaves' frequencies, in unbounded arithmetic (R130, R141). -/
def totalOf (leaves : List Node) : Nat := (leaves.map fun n => n.freq.toNat).sum

/-- The pool the merging starts from: the keys of the leaves, NODE[0..M − 1] (R130). -/
def startPool (leaves : List Node) : List Key := leaves.zipIdx.map fun p => { freq := p.1.freq.toNat, index := p.2 }

/-- The record of a merge (R133): left is the second node removed, right the first, and the frequency is the sum of theirs,
which fits 32 bits once the overflow check has passed (R141). -/
def mergedNode (x y : Key) : Node := .internal y.index x.index (BitVec.ofNat 32 (x.freq + y.freq))

/-- The greedy merge (R132 to R134): while the pool holds more than one node, the two least members are removed, their parent
is the next record of the arena, and it joins the pool. Each merge makes the pool one smaller, so as many rounds as the pool
has members are enough. -/
def mergeLoop : Nat → List Key → List Node → List Node
  | 0, _, arena => arena
  | rounds + 1, pool, arena =>
    match removeLeast pool with
    | none => arena
    | some (x, rest) =>
      match removeLeast rest with
      | none => arena
      | some (y, others) =>
        mergeLoop rounds (others ++ [{ freq := x.freq + y.freq, index := arena.length }]) (arena ++ [mergedNode x y])

/-- The NODE arena a successful BUILD writes: a function of FREQ alone (R139). -/
def arenaOf (freq : Vector Word 256) : List Node :=
  mergeLoop (leavesOf freq).length (startPool (leavesOf freq)) (leavesOf freq)

/-- BUILD (R130): the old session ends first (R138); then EMPTY_INPUT, then FREQ_OVERFLOW (R137), then the merging and the tree
registers (R135). -/
def buildBody (s : State) : State × Ending :=
  if (leavesOf s.freq).length = 0 then (dropSession s, .raise .emptyInput 0 0)
  else if totalOf (leavesOf s.freq) > 2 ^ 32 - 1 then (dropSession s, .raise .freqOverflow 0 0)
  else
    ({ dropSession s with
        nodes := arenaOf s.freq
        leafCount := BitVec.ofNat 32 (leavesOf s.freq).length
        nodeCount := BitVec.ofNat 32 (2 * (leavesOf s.freq).length - 1)
        root := BitVec.ofNat 32 (2 * (leavesOf s.freq).length - 2)
        totalFreq := BitVec.ofNat 32 (totalOf (leavesOf s.freq))
        treeValid := true }, .complete)

/-- BUILD (R130). -/
def execBuild (s : State) : Host.Outcome State Fault Refusal := .next (finish (buildBody s))

end Sys2Proof.Machine
end

