-- ==== Sys2Proof/Machine/CodeTableDeriver.lean ====
section
/-! DEFINITION. The code-table deriver (42_code_table_deriver.md): DERIVE and BUILD_CODE. -/

namespace Sys2Proof.Machine

/-- `visit(n, path)` of R150: a leaf records its path, an internal node appends 0 on the way left and 1 on the way right
(R151). `depth` bounds the walk; in a tree of R44 a node's children have smaller indices, so NODE_COUNT is enough. -/
def visit (nodes : List Node) : Nat → Nat → Bits → Vector Bits 256 → Vector Bits 256
  | 0, _, _, table => table
  | depth + 1, n, path, table =>
    match nodeAt nodes n with
    | .leaf s _ => putSym table s path
    | .internal l r _ =>
      visit nodes depth r (path ++ [true]) (visit nodes depth l (path ++ [false]) table)

/-- The code table of a tree (R150): [0] for the one symbol of a one-leaf tree (R153), the root-to-leaf paths otherwise. -/
def tableOf (nodes : List Node) (leafCount nodeCount root : Nat) : Vector Bits 256 :=
  if leafCount = 1 then putSym emptyTable (symOf nodes root) [false]
  else visit nodes nodeCount root [] emptyTable

/-- DERIVE (R150): the old table goes first, even when EMPTY_TREE is raised (R155). -/
def deriveBody (s : State) : State × Ending :=
  if s.treeValid then
    ({ dropTable s with
        code := tableOf s.nodes s.leafCount.toNat s.nodeCount.toNat s.root.toNat
        tableValid := true }, .complete)
  else (dropTable s, .raise .emptyTree 0 0)

/-- BUILD_CODE (R156): the body of BUILD, then, unless it raised, the body of DERIVE. -/
def buildCodeBody (s : State) : State × Ending :=
  match buildBody s with
  | (built, .complete) => deriveBody built
  | (failed, .raise code info sym) => (failed, .raise code info sym)

/-- DERIVE (R150). -/
def execDerive (s : State) : Host.Outcome State Fault Refusal := .next (finish (deriveBody s))

/-- BUILD_CODE (R156). -/
def execBuildCode (s : State) : Host.Outcome State Fault Refusal := .next (finish (buildCodeBody s))

end Sys2Proof.Machine
end

