-- ==== Sys2Proof/Machine/Operands.lean ====
section
/-! DEFINITION. The implicit operands of the commands and the operands of the port: bit order (R69), the input bytes and the
bit sequence a command reads, the address map (R23, R62) and the words its regions read as. -/

namespace Sys2Proof.Machine

/-! ### Bit order: least-significant bit first (R69) -/

/-- The number whose bit `b` is element `b` of the sequence. -/
def bitsToNat : Bits → Nat
  | [] => 0
  | b :: bs => b.toNat + 2 * bitsToNat bs

/-- The word whose bit `b` (0 ≤ b ≤ 31) is element `b` of the sequence, 0 where the sequence has ended (R39, R40). -/
def packWord (bs : Bits) : Word := BitVec.ofNat 32 (bitsToNat (bs.take 32))

/-- The `n` words that hold a sequence, the first word first (R40, R174): bits at or past its end are 0. -/
def packWords : Nat → Bits → List Word
  | 0, _ => []
  | n + 1, bs => packWord bs :: packWords n (bs.drop 32)

/-- The number of words that hold `n` bits: ⌈n/32⌉ (R174). -/
def wordsFor (n : Nat) : Nat := (n + 31) / 32

/-- BIT(i): bit i mod 32 of BIT_BUF word ⌊i/32⌋ (R40, R69). -/
def bitAt (m : Memory 32) (i : Nat) : Bool := (m.read (i / 32)).getLsbD (i % 32)

/-- The bit sequence DECODE reads: BIT(0..BIT_LEN − 1) (R190, R197). -/
def bitsIn (s : State) : Bits := (List.range s.bitLen.toNat).map (bitAt s.bitBuf)

/-- The byte sequence ENCODE reads: IN_BUF[0..IN_LEN − 1] (R170). -/
def bytesIn (s : State) : List Byte := (List.range s.inLen.toNat).map s.inBuf.read

/-! ### The address map -/

/-- ID: "It always reads the constant 0x48554601" (R24). -/
def idWord : Word := 0x48554601

/-- The word address of CMD (R25). -/
def cmdAddr : Addr := 0x0001

/-- The word address of STATUS (R26). -/
def statusAddr : Addr := 0x0002

/-- The windows below 0x1000 (R23), the index being the address minus the window's base (R62). -/
def tableWindow (n : Nat) : Region :=
  if n < 0x0100 then .reserved
  else if n < 0x0200 then .freq (BitVec.ofNat 8 (n - 0x0100))
  else if n < 0x0400 then .nodeFreq (n - 0x0200)
  else if n < 0x0600 then .nodeLink (n - 0x0400)
  else if n < 0x0700 then .codeLen (BitVec.ofNat 8 (n - 0x0600))
  else if n < 0x0800 then .reserved
  else .codeBits (BitVec.ofNat 8 ((n - 0x0800) / 8)) ((n - 0x0800) % 8)

/-- A buffer cell, or a reserved address when the index is at or past the live size (R62, R67). -/
def liveCell (i size : Nat) (r : Region) : Region := if i < size then r else .reserved

/-- The buffer windows from 0x1000 on, and the reserved addresses past them (R23, R62, R67). -/
def bufferWindow (p : Config.Params) (n : Nat) : Region :=
  if n < 0x2000 then liveCell (n - 0x1000) p.inCap (.inBuf (n - 0x1000))
  else if n < 0x3000 then liveCell (n - 0x2000) p.outCap (.outBuf (n - 0x2000))
  else if n < 0x3400 then liveCell (n - 0x3000) (p.bitCap / 32) (.bitBuf (n - 0x3000))
  else .reserved

/-- The windows of the map (R23). -/
def windowOf (p : Config.Params) (n : Nat) : Region := if n < 0x1000 then tableWindow n else bufferWindow p n

/-- The registers at word addresses 0x0000 to 0x000E, in address order (R23). -/
def registers : List Region :=
  [.id, .cmd, .status, .inLen, .bitLen, .outLen, .leafCount, .nodeCount, .root, .totalFreq, .errInfo, .errSym,
    .inCap, .outCap, .bitCap]

/-- Address decode (R62): the row of R23 that holds word address `a`. -/
def regionOf (p : Config.Params) (a : Addr) : Region := (registers[a.toNat]?).getD (windowOf p a.toNat)

/-! ### The windows onto the arena and the code table -/

/-- NODE_FREQ[i] (R33). -/
def nodeFreqWord (s : State) (i : Nat) : Word := if i < s.nodeCount.toNat then (nodeAt s.nodes i).freq else 0

/-- The link word of a record (R34): bit 31 and the symbol for a leaf, the two child indices for an internal node. -/
def Node.link : Node → Word
  | .leaf sym _ => 0x80000000#32 ||| sym.setWidth 32
  | .internal l r _ => (BitVec.ofNat 32 l <<< 16) ||| BitVec.ofNat 32 r

/-- NODE_LINK[i] (R34). -/
def nodeLinkWord (s : State) (i : Nat) : Word := if i < s.nodeCount.toNat then (nodeAt s.nodes i).link else 0

/-- CODE_LEN[c] (R38). -/
def codeLenWord (s : State) (c : Byte) : Word := BitVec.ofNat 32 (lookSym s.code c).length

/-- CODE_BITS[c][k] (R39). -/
def codeBitsWord (s : State) (c : Byte) (k : Nat) : Word := packWord ((lookSym s.code c).drop (32 * k))

end Sys2Proof.Machine
end

