-- ==== Sys2Proof/Machine/Decoder.lean ====
section
/-! DEFINITION. The decoder (44_decoder.md): DECODE. -/

namespace Sys2Proof.Machine

/-- What DECODE walks over: the tree and the capacity of OUT_BUF (R190, R196: the tree alone, not the table). -/
structure WalkTree where
  nodes     : List Node
  leafCount : Nat
  root      : Nat
  outCap    : Nat
  deriving DecidableEq, Repr

/-- The tree DECODE walks over in a state. -/
def State.walkTree (s : State) : WalkTree where
  nodes := s.nodes
  leafCount := s.leafCount.toNat
  root := s.root.toNat
  outCap := s.params.outCap

/-- `emit(s, i)` of R190, and the return to the root: CAPACITY when the output is full (R192 item 5). -/
def emit (t : WalkTree) (sym : Byte) (i : Nat) (out : List Byte) : Except Failure Walk :=
  if out.length = t.outCap then .error { code := .capacity, info := i, sym := sym }
  else .ok { node := t.root, out := out ++ [sym] }

/-- One bit of R190: in a one-leaf tree a 0 emits the root's symbol and a 1 is FRAMING (R194); otherwise the bit selects a child,
and a leaf emits (R191). -/
def walkBit (t : WalkTree) (i : Nat) (w : Walk) (bit : Bool) : Except Failure Walk :=
  if t.leafCount = 1 then
    if bit then .error { code := .framing, info := i, sym := 0 } else emit t (symOf t.nodes t.root) i w.out
  else
    match nodeAt t.nodes (childOf t.nodes w.node bit) with
    | .leaf sym _ => emit t sym i w.out
    | .internal _ _ _ => .ok { w with node := childOf t.nodes w.node bit }

/-- The bits of R190 from index `i` on, in order; the first failure ends the walk. -/
def walkBits (t : WalkTree) : Nat → Walk → Bits → Except Failure Walk
  | _, w, [] => .ok w
  | i, w, b :: rest =>
    match walkBit t i w b with
    | .error f => .error f
    | .ok w' => walkBits t (i + 1) w' rest

/-- The whole walk: every bit, then the end check of R192 item 6. -/
def decodeWalk (t : WalkTree) (bits : Bits) : Except Failure (List Byte) :=
  match walkBits t 0 { node := t.root, out := [] } bits with
  | .error f => .error f
  | .ok w => if w.node = t.root then .ok w.out else .error { code := .framing, info := bits.length, sym := 0 }

/-- DECODE (R190). The checks of R192 items 1 to 3 precede any write; a failure found part-way leaves every byte of OUT_BUF
unspecified (R193); success writes the output and no byte past it. -/
def decodeBody (s : State) : State × Ending :=
  if s.treeValid = false then ({ s with outLen := 0 }, .raise .emptyTree 0 0)
  else if s.bitLen.toNat > s.params.bitCap then ({ s with outLen := 0 }, .raise .length s.bitLen 0)
  else if s.bitLen = 0 then ({ s with outLen := 0 }, .raise .framing 0 0)
  else
    match decodeWalk s.walkTree (bitsIn s) with
    | .error f =>
      ({ s with outLen := 0, outBuf := Memory.unspecified 8 s.draws, draws := s.draws + 1 },
        .raise f.code (BitVec.ofNat 32 f.info) f.sym)
    | .ok out =>
      ({ s with outBuf := s.outBuf.writeFrom 0 out, outLen := BitVec.ofNat 32 out.length }, .complete)

/-- DECODE (R190). -/
def execDecode (s : State) : Host.Outcome State Fault Refusal := .next (finish (decodeBody s))

end Sys2Proof.Machine
end

