-- ==== Sys2Proof/Machine/Encoder.lean ====
section
/-! DEFINITION. The encoder (43_encoder.md): ENCODE. -/

namespace Sys2Proof.Machine

/-- The serialising loop of R170 from input index `i` on, `out` being the output so far: at each symbol a missing code is
found before a full buffer (R172 items 3 and 4). -/
def serialise (code : Vector Bits 256) (bitCap : Nat) : Nat → Bits → List Byte → Except Failure Bits
  | _, out, [] => .ok out
  | i, out, s :: rest =>
    if lookSym code s = [] then .error { code := .missingSymbol, info := i, sym := s }
    else if out.length + (lookSym code s).length > bitCap then .error { code := .capacity, info := i, sym := s }
    else serialise code bitCap (i + 1) (out ++ lookSym code s) rest

/-- ENCODE (R170). A failure found part-way leaves every bit of BIT_BUF unspecified (R173); success writes the words that hold
the output, zeros above its last bit, and no other word (R174). -/
def encodeBody (s : State) : State × Ending :=
  if s.inLen.toNat > s.params.inCap then ({ s with bitLen := 0 }, .raise .length s.inLen 0)
  else if s.inLen = 0 then ({ s with bitLen := 0 }, .raise .emptyInput 0 0)
  else
    match serialise s.code s.params.bitCap 0 [] (bytesIn s) with
    | .error f =>
      ({ s with bitLen := 0, bitBuf := Memory.unspecified 32 s.draws, draws := s.draws + 1 },
        .raise f.code (BitVec.ofNat 32 f.info) f.sym)
    | .ok out =>
      ({ s with
          bitBuf := s.bitBuf.writeFrom 0 (packWords (wordsFor out.length) out)
          bitLen := BitVec.ofNat 32 out.length }, .complete)

/-- ENCODE (R170). -/
def execEncode (s : State) : Host.Outcome State Fault Refusal := .next (finish (encodeBody s))

end Sys2Proof.Machine
end

