-- ==== Sys2Proof/Machine/Flags.lean ====
section
/-! DEFINITION. The STATUS word (R26) and the numbers of its ERRCODE field (R210). -/

namespace Sys2Proof.Machine

/-- The number of an error code (R210). -/
def ErrorCode.number : ErrorCode → BitVec 4
  | .none => 0
  | .emptyInput => 1
  | .missingSymbol => 2
  | .framing => 3
  | .emptyTree => 4
  | .capacity => 5
  | .length => 6
  | .freqOverflow => 7
  | .illegalCmd => 8

/-- A STATUS word from its fields (R26): BUSY 0, DONE 1, ERR 2, HAZ 3, ERRCODE 11:8, TREE_VALID 16, TABLE_VALID 17; the
reserved bits 7:4, 15:12 and 31:18 are 0. -/
def packStatus (busy done err haz : Bool) (errCode : BitVec 4) (treeValid tableValid : Bool) : Word :=
  (0 : BitVec 14) ++ BitVec.ofBool tableValid ++ BitVec.ofBool treeValid ++ (0 : BitVec 4) ++ errCode ++ (0 : BitVec 4)
    ++ BitVec.ofBool haz ++ BitVec.ofBool err ++ BitVec.ofBool done ++ BitVec.ofBool busy

/-- The STATUS register as a read of it returns while BUSY = 0 (R26). -/
def State.statusWord (s : State) : Word :=
  packStatus s.busy s.done s.err s.haz s.errCode.number s.treeValid s.tableValid

/-- A read of STATUS while BUSY = 1 (R251): "BUSY = 1, DONE = 0, ERR = 0, ERRCODE = 0, the current HAZ and zeros in the
reserved bits"; TREE_VALID and TABLE_VALID are unspecified, here bits 16 and 17 of a free word. -/
def busyStatusWord (haz : Bool) (free : Word) : Word :=
  packStatus true false false haz 0 (free.getLsbD 16) (free.getLsbD 17)

end Sys2Proof.Machine
end

