-- ==== Sys2Proof/Machine/Port.lean ====
section
/-! DEFINITION. The host port (20_memory.md, 70_reset_and_hazards.md): what a read returns, what a write does, the host's turn,
and which agent moves next. -/

namespace Sys2Proof.Machine

/-- The value of a region while BUSY = 0 (R64): its register's rule in 10_state.md, or 0 for a reserved address (R67). -/
def readRegion (s : State) : Region → Word
  | .id => idWord
  | .cmd => s.cmdLatch
  | .status => s.statusWord
  | .inLen => s.inLen
  | .bitLen => s.bitLen
  | .outLen => s.outLen
  | .leafCount => s.leafCount
  | .nodeCount => s.nodeCount
  | .root => s.root
  | .totalFreq => s.totalFreq
  | .errInfo => s.errInfo
  | .errSym => s.errSym.setWidth 32
  | .inCap => BitVec.ofNat 32 s.params.inCap
  | .outCap => BitVec.ofNat 32 s.params.outCap
  | .bitCap => BitVec.ofNat 32 s.params.bitCap
  | .freq c => lookSym s.freq c
  | .nodeFreq i => nodeFreqWord s i
  | .nodeLink i => nodeLinkWord s i
  | .codeLen c => codeLenWord s c
  | .codeBits c k => codeBitsWord s c k
  | .inBuf i => (s.inBuf.read i).setWidth 32
  | .outBuf i => (s.outBuf.read i).setWidth 32
  | .bitBuf w => s.bitBuf.read w
  | .reserved => 0

/-- Whether a read of the region is defined while BUSY = 1 (R251): "ID, CMD, IN_CAP_R, OUT_CAP_R or BIT_CAP_R". STATUS has a
rule of its own. -/
def definedWhileBusy : Region → Bool
  | .id => true
  | .cmd => true
  | .inCap => true
  | .outCap => true
  | .bitCap => true
  | _ => false

/-- The value of a read while BUSY = 1 (R251), `free` being the unspecified word. -/
def readBusyRegion (s : State) (free : Word) (r : Region) : Word :=
  if r = .status then busyStatusWord s.haz free else if definedWhileBusy r then readRegion s r else free

/-- `MemRead(a, 4)`: no read changes any state of the block (R64, R251). A read while BUSY takes a fresh free value
(log entry 7). -/
def portRead (a : Addr) (s : State) : State :=
  if s.busy then
    { s with
      readData := some (readBusyRegion s (Config.freeBits 32 s.draws 0) (regionOf s.params a))
      draws := s.draws + 1 }
  else { s with readData := some (readRegion s (regionOf s.params a)) }

/-- A write to a region while BUSY = 0 (R65): CMD issues a command (R25), an RW register or window stores, and a write to a
read-only or reserved address is ignored (R66, R67). -/
def writeRegion (v : Word) (s : State) : Region → State
  | .cmd => acceptCommand v s
  | .inLen => { s with inLen := v }
  | .bitLen => { s with bitLen := v }
  | .freq c => { s with freq := putSym s.freq c v }
  | .inBuf i => { s with inBuf := s.inBuf.write i (v.setWidth 8) }
  | .bitBuf w => { s with bitBuf := s.bitBuf.write w v }
  | .id => s
  | .status => s
  | .outLen => s
  | .leafCount => s
  | .nodeCount => s
  | .root => s
  | .totalFreq => s
  | .errInfo => s
  | .errSym => s
  | .inCap => s
  | .outCap => s
  | .bitCap => s
  | .nodeFreq _ => s
  | .nodeLink _ => s
  | .codeLen _ => s
  | .codeBits _ _ => s
  | .outBuf _ => s
  | .reserved => s

/-- `MemWrite(a, 4, v)`: while BUSY = 1 it is ignored and sets HAZ (R250), otherwise R65 holds. -/
def portWrite (a : Addr) (v : Word) (s : State) : State :=
  if s.busy then { s with haz := true } else writeRegion v s (regionOf s.params a)

/-- The state with the host's first access taken off. -/
def State.popHost (s : State) : State := { s with program := s.program.tail }

/-- One access of the host (R20), refused by name when it is not a word access (R63). WAIT is one read of STATUS; it stays in
front of the host's accesses until a read shows BUSY = 0 (R98). -/
def hostOp (op : HostOp) (s : State) : Host.Outcome State Fault Refusal :=
  match op with
  | .read a size => if wfAccessSize size then .next (portRead a s.popHost) else .refused (.accessSize size)
  | .write a size v => if wfAccessSize size then .next (portWrite a v s.popHost) else .refused (.accessSize size)
  | .wait => .next (portRead statusAddr (if s.busy then s else s.popHost))

/-- The host's turn: its first access, or nothing when it has none (log entry 3). -/
def hostTurn (s : State) : Host.Outcome State Fault Refusal :=
  match s.program with
  | [] => .next s
  | op :: _ => hostOp op s

/-- Who moves next: the first of the schedule; when it is empty the engine if it is enabled (BUSY = 1), which is the weak
fairness of R20, and else the host (log entry 1). -/
def nextAgent (s : State) : Agent :=
  match s.sched with
  | a :: _ => a
  | [] => if s.busy then .engine else .host

/-- The state with the first of the schedule taken off. -/
def State.popSched (s : State) : State := { s with sched := s.sched.tail }

end Sys2Proof.Machine
end

