-- ==== Sys2Proof/Machine/Step.lean ====
section
/-! DEFINITION. One transition of the machine (R20): the host's access, the engine's command, or reset. -/

namespace Sys2Proof.Machine

/-- The engine step of a pending command (R20, R110): `decode(CMD_LATCH)`, then the one rule that names the result. -/
def engineStep (s : State) : Host.Outcome State Fault Refusal :=
  match decode s.cmdLatch with
  | .ok i => exec i s
  | .error _ => execIllegal s

/-- The engine's turn: its step is enabled exactly when BUSY = 1, and without one nothing happens (R20; log entry 3). -/
def engineTurn (s : State) : Host.Outcome State Fault Refusal :=
  if s.busy then engineStep s else .next s

/-- A transition by a given agent (R20, R240). -/
def turn (a : Agent) (s : State) : Host.Outcome State Fault Refusal :=
  match a with
  | .host => hostTurn s
  | .engine => engineTurn s
  | .reset => .next (hardReset s)

/-- One step: the next agent makes its transition. -/
def step (s : State) : Host.Outcome State Fault Refusal := turn (nextAgent s) s.popSched

/-- `s` with the instruction of `nbits` bits `w` (numbered as spec/opcode_table.json numbers them) where the engine takes its
next command from, CMD_LATCH, as an accepted CMD write leaves it (R25), and the engine's turn next (log entry 14). -/
def State.withFetchWord (s : State) (nbits w : Nat) : State :=
  { acceptCommand (BitVec.ofNat 32 (w % 2 ^ nbits)) s with sched := .engine :: s.sched }

end Sys2Proof.Machine
end

