-- ==== Sys2Proof/Machine/HostAsm.lean ====
section
/-! DEFINITION. The host's assembly lines (30_encoding.md rules R96 to R99) and their expansion into port accesses. -/

namespace Sys2Proof.Machine

/-- An `<addr>` of R96: a register name of R23 or a number. -/
inductive Place where
  | id | cmd | status | inLen | bitLen | outLen
  | leafCount | nodeCount | root | totalFreq
  | errInfo | errSym | inCap | outCap | bitCap
  | freq (s : Nat)
  | nodeFreq (i : Nat)
  | nodeLink (i : Nat)
  | codeLen (s : Nat)
  | codeBits (s k : Nat)
  | inBuf (i : Nat)
  | outBuf (i : Nat)
  | bitBuf (w : Nat)
  | number (a : Nat)
  deriving DecidableEq, Repr

/-- Whether the index of a name is one its window has (R23) and a number fits a word address (R60). -/
def Place.wf : Place → Bool
  | .freq s => decide (s < 256)
  | .nodeFreq i => decide (i < 512)
  | .nodeLink i => decide (i < 512)
  | .codeLen s => decide (s < 256)
  | .codeBits s k => decide (s < 256) && decide (k < 8)
  | .inBuf i => decide (i < 4096)
  | .outBuf i => decide (i < 4096)
  | .bitBuf w => decide (w < 1024)
  | .number a => decide (a < 2 ^ 16)
  | _ => true

/-- The word address a name stands for (R23). -/
def Place.addr : Place → Nat
  | .id => 0x0000
  | .cmd => 0x0001
  | .status => 0x0002
  | .inLen => 0x0003
  | .bitLen => 0x0004
  | .outLen => 0x0005
  | .leafCount => 0x0006
  | .nodeCount => 0x0007
  | .root => 0x0008
  | .totalFreq => 0x0009
  | .errInfo => 0x000A
  | .errSym => 0x000B
  | .inCap => 0x000C
  | .outCap => 0x000D
  | .bitCap => 0x000E
  | .freq s => 0x0100 + s
  | .nodeFreq i => 0x0200 + i
  | .nodeLink i => 0x0400 + i
  | .codeLen s => 0x0600 + s
  | .codeBits s k => 0x0800 + 8 * s + k
  | .inBuf i => 0x1000 + i
  | .outBuf i => 0x2000 + i
  | .bitBuf w => 0x3000 + w
  | .number a => a

/-- The region a name stands for in a build with the capacities `p`: a buffer index past the live size is reserved (R62). -/
def Place.region (p : Config.Params) : Place → Region
  | .id => .id
  | .cmd => .cmd
  | .status => .status
  | .inLen => .inLen
  | .bitLen => .bitLen
  | .outLen => .outLen
  | .leafCount => .leafCount
  | .nodeCount => .nodeCount
  | .root => .root
  | .totalFreq => .totalFreq
  | .errInfo => .errInfo
  | .errSym => .errSym
  | .inCap => .inCap
  | .outCap => .outCap
  | .bitCap => .bitCap
  | .freq s => .freq (BitVec.ofNat 8 s)
  | .nodeFreq i => .nodeFreq i
  | .nodeLink i => .nodeLink i
  | .codeLen s => .codeLen (BitVec.ofNat 8 s)
  | .codeBits s k => .codeBits (BitVec.ofNat 8 s) k
  | .inBuf i => if i < p.inCap then .inBuf i else .reserved
  | .outBuf i => if i < p.outCap then .outBuf i else .reserved
  | .bitBuf w => if w < p.bitCap / 32 then .bitBuf w else .reserved
  | .number a => regionOf p (BitVec.ofNat 16 a)

/-- A line of a host program (R96 to R99). The value a line states after `->` is a claim about the read, not part of the
access, so the lines that state one are the same accesses as those that do not. -/
inductive Line where
  /-- `RD <addr>`, with or without `-> <value>` (R96) -/
  | rd (place : Place) (stated : Option Word)
  /-- `WR <addr>, <value>` (R96) -/
  | wr (place : Place) (value : Word)
  /-- `CMD <mnemonic>` (R97) -/
  | cmd (i : Instr)
  /-- `WAIT` (R98) -/
  | wait
  /-- `EXEC <mnemonic>`, with or without `-> <status>` (R98) -/
  | exec (i : Instr) (stated : Option Word)
  /-- `LOADB IN_BUF, <b0 b1 ...>` (R99) -/
  | loadb (bytes : List Byte)
  /-- `LOADF` with its listed pairs (R99) -/
  | loadf (pairs : List (Byte × Word))
  /-- `LOADW BIT_BUF, <w0 w1 ...>` (R99) -/
  | loadw (words : List Word)
  deriving DecidableEq, Repr

/-- The read of a place: one word access (R63). -/
def readPlace (p : Place) : HostOp := .read (BitVec.ofNat 16 p.addr) 4

/-- The write of a place: one word access (R63). -/
def writePlace (p : Place) (v : Word) : HostOp := .write (BitVec.ofNat 16 p.addr) 4 v

/-- `CMD <mnemonic>`: `WR CMD, <word>` (R97). -/
def issue (i : Instr) : HostOp := writePlace .cmd (encode i)

/-- The writes of a block load, in index order from `n` on (R99). -/
def loadFrom (place : Nat → Place) : Nat → List Word → List HostOp
  | _, [] => []
  | n, v :: vs => writePlace (place n) v :: loadFrom place (n + 1) vs

/-- The accesses a line expands to (R96 to R99). -/
def Line.expand : Line → List HostOp
  | .rd p _ => [readPlace p]
  | .wr p v => [writePlace p v]
  | .cmd i => [issue i]
  | .wait => [.wait]
  | .exec i _ => [issue i, .wait]
  | .loadb bytes => loadFrom .inBuf 0 (bytes.map (BitVec.setWidth 32))
  | .loadf pairs => pairs.map fun q => writePlace (.freq q.1.toNat) q.2
  | .loadw words => loadFrom .bitBuf 0 words

/-- A host program: its lines' accesses in order. -/
def assemble (lines : List Line) : List HostOp := lines.flatMap Line.expand

/-- RD or WR (R96). -/
inductive Kind where
  | rd
  | wr
  deriving DecidableEq, Repr

/-- A transaction record of R96: (kind, word address, data), data being 0 for RD. -/
structure Transaction where
  kind : Kind
  addr : Addr
  data : Word
  deriving DecidableEq, Repr

/-- The record of one access; WAIT's is the record of each of its reads of STATUS (R96, R98). -/
def HostOp.transaction : HostOp → Transaction
  | .read a _ => { kind := .rd, addr := a, data := 0 }
  | .write a _ v => { kind := .wr, addr := a, data := v }
  | .wait => { kind := .rd, addr := statusAddr, data := 0 }

/-- The block with a host program to run. -/
def State.withProgram (s : State) (lines : List Line) : State := { s with program := assemble lines }

end Sys2Proof.Machine
end

