-- ==== Sys2Proof/Safety.lean ====
section
/-! DEFINITION. The terms claims use: the invariants of 10_state.md (R26, R31, R37, R44, R45), what a tree and a table are in
the spec's words, and the host discipline of R252. -/

namespace Sys2Proof.Machine

/-! ### The input distribution (R9, R30) -/

/-- The symbols present in FREQ, in ascending order: those with FREQ[c] ≠ 0 (R30, R131). -/
def present (freq : Vector Word 256) : List Byte := symbols.filter fun c => lookSym freq c != 0

/-- Σ FREQ[c], in unbounded arithmetic (R130, R137). -/
def freqSum (freq : Vector Word 256) : Nat := (symbols.map fun c => (lookSym freq c).toNat).sum

/-! ### The tree (R32, R44) -/

/-- NODE[n] is a leaf that carries the symbol `c`. -/
def LeafAt (nodes : List Node) (n : Nat) (c : Byte) : Prop := ∃ f, nodes[n]? = some (.leaf c f)

/-- NODE[n] is an internal node with the children `l` and `r`. -/
def InternalAt (nodes : List Node) (n l r : Nat) : Prop := ∃ f, nodes[n]? = some (.internal l r f)

/-- `c` is a child of the internal node `p`. -/
def ChildOf (nodes : List Node) (c p : Nat) : Prop := ∃ l r, InternalAt nodes p l r ∧ (c = l ∨ c = r)

/-- The frequency of NODE[n], 0 where the arena has no such node (R33). -/
def freqAt (nodes : List Node) (n : Nat) : Nat :=
  match nodes[n]? with
  | some r => r.freq.toNat
  | none => 0

/-- key(a) < key(b) for the keys (NODE[n].freq, n) of R132. -/
def KeyLess (nodes : List Node) (a b : Nat) : Prop :=
  freqAt nodes a < freqAt nodes b ∨ (freqAt nodes a = freqAt nodes b ∧ a < b)

/-- Node `z` is in the pool when NODE[n] is made: it exists by then and no earlier merge has taken it (R133). -/
def InPool (nodes : List Node) (n z : Nat) : Prop := z < n ∧ ∀ p, p < n → ¬ ChildOf nodes z p

/-- What R32 and R44 say of an arena with `M` leaves. -/
structure ArenaOk (nodes : List Node) (M : Nat) : Prop where
  /-- 1 ≤ M ≤ 256 -/
  leaves_pos : 1 ≤ M
  leaves_le : M ≤ 256
  /-- NODE_COUNT = 2M − 1 -/
  length_eq : nodes.length = 2 * M - 1
  /-- "NODE[0..M − 1] are leaves" -/
  leaf : ∀ n, n < M → ∃ c, LeafAt nodes n c
  /-- "whose symbols strictly ascend" -/
  ascend : ∀ m n c d, m < n → LeafAt nodes m c → LeafAt nodes n d → c.toNat < d.toNat
  /-- "NODE[M..2M − 2] are internal nodes", and "n's children have indices below n" -/
  internal : ∀ n, M ≤ n → n < 2 * M - 1 → ∃ l r, InternalAt nodes n l r ∧ l < n ∧ r < n ∧ l ≠ r
  /-- "freq(n) = freq(left(n)) + freq(right(n))" -/
  freq_add : ∀ n l r, InternalAt nodes n l r → freqAt nodes n = freqAt nodes l + freqAt nodes r
  /-- "Every index other than ROOT is a child of exactly one internal node." -/
  parent : ∀ n, n < 2 * M - 2 → ∃! p, ChildOf nodes n p
  root_top : ∀ p, ¬ ChildOf nodes (2 * M - 2) p
  /-- NODE[ROOT].freq = Σ over leaves of freq -/
  root_freq : freqAt nodes (2 * M - 2) = ((List.range M).map (freqAt nodes)).sum

/-- While TREE_VALID = 1 (R44): the arena, and the registers that describe it. -/
structure TreeOk (s : State) : Prop where
  arena : ArenaOk s.nodes s.leafCount.toNat
  nodeCount : s.nodeCount.toNat = 2 * s.leafCount.toNat - 1
  root : s.root.toNat = 2 * s.leafCount.toNat - 2
  total : s.totalFreq.toNat = freqAt s.nodes s.root.toNat

/-- While TREE_VALID = 0 "all four read 0" (R31), and no NODE entry is architectural (R32). -/
structure NoTree (s : State) : Prop where
  leafCount : s.leafCount = 0
  nodeCount : s.nodeCount = 0
  root : s.root = 0
  totalFreq : s.totalFreq = 0
  nodes : s.nodes = []

/-! ### The code table (R37, R151, R153) -/

/-- `path(ROOT) = []`, `path(left(n)) = path(n) ++ [0]` and `path(right(n)) = path(n) ++ [1]` (R151). -/
inductive IsPath (nodes : List Node) (root : Nat) : Bits → Nat → Prop
  | root : IsPath nodes root [] root
  | left {path : Bits} {n l r : Nat} :
      IsPath nodes root path n → InternalAt nodes n l r → IsPath nodes root (path ++ [false]) l
  | right {path : Bits} {n l r : Nat} :
      IsPath nodes root path n → InternalAt nodes n l r → IsPath nodes root (path ++ [true]) r

/-- The table of a tree with `M` leaves: [0] for the one symbol of a one-leaf tree (R153), the root-to-leaf path for every leaf
of a larger tree, and [] for every symbol without a leaf (R151). -/
structure TableOk (nodes : List Node) (M root : Nat) (code : Vector Bits 256) : Prop where
  one : M = 1 → ∀ n c, LeafAt nodes n c → lookSym code c = [false]
  path : M ≠ 1 → ∀ n c, LeafAt nodes n c → IsPath nodes root (lookSym code c) n
  absent : ∀ c, (∀ n, ¬ LeafAt nodes n c) → lookSym code c = []

/-- "For symbols a ≠ b, neither CODE[a] nor CODE[b] is a prefix of the other" (R45), over the symbols that have a code. -/
def PrefixFree (code : Vector Bits 256) : Prop :=
  ∀ a b, a ≠ b → lookSym code a ≠ [] → lookSym code b ≠ [] → ¬ lookSym code a <+: lookSym code b

/-- OUT_BUF[0..OUT_LEN − 1], the bytes the last DECODE produced (R29, R42). -/
def bytesOut (s : State) : List Byte := (List.range s.outLen.toNat).map s.outBuf.read

/-- BIT(0..BIT_LEN − 1) is the concatenation of the codes of `syms` in the table (R171). -/
def codesOf (code : Vector Bits 256) (syms : List Byte) : Bits := syms.flatMap (lookSym code)

/-! ### The invariants of the state -/

/-- The invariants of R26, and what an accepted CMD write and a successful command leave in the completion fields (R25, R36). -/
structure StatusOk (s : State) : Prop where
  err_iff : s.err = true ↔ s.errCode ≠ .none
  done_idle : s.done = true → s.busy = false
  table_tree : s.tableValid = true → s.treeValid = true
  busy_clean : s.busy = true → s.errCode = .none
  clean_info : s.errCode = .none → s.errInfo = 0 ∧ s.errSym = 0

/-- The tree and the table are what TREE_VALID and TABLE_VALID say (R31, R37, R44). -/
structure SessionOk (s : State) : Prop where
  noTree : s.treeValid = false → NoTree s
  tree : s.treeValid = true → TreeOk s
  noTable : s.tableValid = false → ∀ c, lookSym s.code c = []
  table : s.tableValid = true → TableOk s.nodes s.leafCount.toNat s.root.toNat s.code

/-- The buffers keep their canonical form (log entry 5) and hold written cells only below their capacities (R40, R41, R42);
OUT_LEN counts bytes of OUT_BUF (R29). -/
structure BuffersOk (s : State) : Prop where
  inBuf : s.inBuf.wf = true ∧ s.inBuf.within s.params.inCap = true
  outBuf : s.outBuf.wf = true ∧ s.outBuf.within s.params.outCap = true
  bitBuf : s.bitBuf.wf = true ∧ s.bitBuf.within (s.params.bitCap / 32) = true
  outLen : s.outLen.toNat ≤ s.params.outCap

/-- The invariant of the block. -/
structure Inv (s : State) : Prop where
  params : wfParams s.params
  status : StatusOk s
  session : SessionOk s
  buffers : BuffersOk s

/-- The free values are independent draws: each buffer has a draw of its own, and none is drawn again (log entry 4). A property
of the model, not of the block. -/
structure DrawsOk (s : State) : Prop where
  inBuf : s.inBuf.draw < s.draws
  outBuf : s.outBuf.draw < s.draws
  bitBuf : s.bitBuf.draw < s.draws
  in_out : s.inBuf.draw ≠ s.outBuf.draw
  in_bit : s.inBuf.draw ≠ s.bitBuf.draw
  out_bit : s.outBuf.draw ≠ s.bitBuf.draw

/-! ### The host discipline (R252) -/

/-- Whether an access may stand between a CMD write and the end of its WAIT: "a read of STATUS, ID, CMD or a capacity
register" (R252). -/
def allowedWhilePending (p : Config.Params) (a : Addr) : Bool :=
  match regionOf p a with
  | .status => true
  | r => definedWhileBusy r

/-- "After each accepted CMD write, the host must WAIT before any access other than a read of STATUS, ID, CMD or a capacity
register" (R252); `waiting` says that a CMD write has been made and its WAIT has not ended. -/
def disciplined (p : Config.Params) : Bool → List HostOp → Bool
  | _, [] => true
  | waiting, .read a _ :: ops => (!waiting || allowedWhilePending p a) && disciplined p waiting ops
  | waiting, .write a _ _ :: ops => !waiting && disciplined p (decide (regionOf p a = .cmd)) ops
  | _, .wait :: ops => disciplined p false ops

/-- The host's accesses still to come keep the discipline, a pending command counting as one whose WAIT has not ended. -/
def KeepsDiscipline (s : State) : Prop := disciplined s.params s.busy s.program = true

end Sys2Proof.Machine
end

