-- ==== Sys2Proof/Certificates/Slice0/Obligations.lean ====
section
/-! DEFINITION. The statements for the provers. Each docstring names the rule of spec/ it formalises. -/

open Sys2Proof Sys2Proof.Machine

/-! ### Encoding -/

/-- R92: the seven words of the opcode map, written out, and the commands they are. -/
def Obligations.OpcodeMapWords : Prop :=
  decode 0x00000000 = .ok .nop ∧ decode 0x00000001 = .ok .clear ∧ decode 0x00000002 = .ok .build ∧
  decode 0x00000003 = .ok .derive ∧ decode 0x00000004 = .ok .buildCode ∧ decode 0x00000005 = .ok .encode ∧
  decode 0x00000006 = .ok .decode

/-- R92: "A command is selected by the whole word": a word decodes to a command exactly when it is that command's word. So
decoding an encoded command gives it back, and each command has one word. -/
def Obligations.WholeWordSelectsCommand : Prop := ∀ (w : Word) (i : Instr), decode w = .ok i ↔ w = encode i

/-- R93, R94: every word decodes to the command its number names in the map, or is ILLEGAL. Which of two names the decoder
rejects an illegal word by is the model's choice (log entry 13): the spec has one outcome for both. -/
def Obligations.IllegalWordsClassified : Prop :=
  ∀ w : Word,
    (w.toNat / 256 ≠ 0 → decode w = .error .reservedField) ∧
    (w.toNat / 256 = 0 → 7 ≤ w.toNat → decode w = .error .reservedOpcode) ∧
    (w.toNat < 7 → ∃ i, Instr.all[w.toNat]? = some i ∧ decode w = .ok i)

/-- R23, R62: the word address of every name of the map, within its window, is decoded to the region of that name, and the gaps
of the map are reserved. -/
def Obligations.AddressMapDecodes : Prop :=
  ∀ p : Config.Params,
    (∀ place : Place, place.wf = true → regionOf p (BitVec.ofNat 16 place.addr) = place.region p) ∧
    ∀ a : Addr,
      (0x000F ≤ a.toNat ∧ a.toNat ≤ 0x00FF) ∨ (0x0700 ≤ a.toNat ∧ a.toNat ≤ 0x07FF) ∨ 0x3400 ≤ a.toNat →
        regionOf p a = .reserved

/-! ### Reset and the invariants -/

/-- R242, R35: the reset values, as the host reads them in the state right after reset of a build with any capacities. That
`State.reset` is the state of one build, the default build of R5, is the model's choice (log entry 8); its capacity registers read
the defaults of R5. -/
def Obligations.ResetValuesRead : Prop :=
  State.reset = State.resetOf Config.defaultParams ∧
  readRegion State.reset .inCap = 0x00001000 ∧ readRegion State.reset .outCap = 0x00001000 ∧
  readRegion State.reset .bitCap = 0x00008000 ∧
  ∀ p : Config.Params,
    readRegion (State.resetOf p) .id = 0x48554601 ∧ readRegion (State.resetOf p) .cmd = 0 ∧
    readRegion (State.resetOf p) .status = 0 ∧ readRegion (State.resetOf p) .inLen = 0 ∧
    readRegion (State.resetOf p) .bitLen = 0 ∧ readRegion (State.resetOf p) .outLen = 0 ∧
    readRegion (State.resetOf p) .leafCount = 0 ∧ readRegion (State.resetOf p) .nodeCount = 0 ∧
    readRegion (State.resetOf p) .root = 0 ∧ readRegion (State.resetOf p) .totalFreq = 0 ∧
    readRegion (State.resetOf p) .errInfo = 0 ∧ readRegion (State.resetOf p) .errSym = 0 ∧
    readRegion (State.resetOf p) .inCap = BitVec.ofNat 32 p.inCap ∧
    readRegion (State.resetOf p) .outCap = BitVec.ofNat 32 p.outCap ∧
    readRegion (State.resetOf p) .bitCap = BitVec.ofNat 32 p.bitCap ∧
    (∀ c, readRegion (State.resetOf p) (.freq c) = 0) ∧
    (∀ i, readRegion (State.resetOf p) (.nodeFreq i) = 0) ∧ (∀ i, readRegion (State.resetOf p) (.nodeLink i) = 0) ∧
    (∀ c, readRegion (State.resetOf p) (.codeLen c) = 0) ∧ (∀ c k, readRegion (State.resetOf p) (.codeBits c k) = 0)

/-- R240: a reset, whenever it arrives, puts every register at its reset value, and a pending command never happens. -/
def Obligations.HardResetAnyTime : Prop :=
  ∀ s : State, nextAgent s = .reset →
    ∃ t, step s = .next t ∧ t.params = s.params ∧ t.cmdLatch = 0 ∧
      t.busy = false ∧ t.done = false ∧ t.err = false ∧ t.haz = false ∧ t.errCode = .none ∧
      t.treeValid = false ∧ t.tableValid = false ∧
      t.inLen = 0 ∧ t.bitLen = 0 ∧ t.outLen = 0 ∧ (∀ c, lookSym t.freq c = 0) ∧
      t.leafCount = 0 ∧ t.nodeCount = 0 ∧ t.root = 0 ∧ t.totalFreq = 0 ∧ t.errInfo = 0 ∧ t.errSym = 0 ∧
      (∀ c, lookSym t.code c = [])

/-- The invariant holds right after reset. -/
def Obligations.InvAtReset : Prop := Inv State.reset

/-- The invariants of R26, R31, R37 and R44, and the form of the buffers, are kept by every step of every agent. -/
def Obligations.StepKeepsInv : Prop := ∀ s t : State, Inv s → step s = .next t → Inv t

/-- The model's own: the free values stay independent draws (log entry 4), from reset on and at every step. -/
def Obligations.FreeValuesStayFresh : Prop :=
  DrawsOk State.reset ∧ ∀ s t : State, DrawsOk s → step s = .next t → DrawsOk t

/-! ### The step and the agents -/

/-- R20, R110: an engine turn with a pending command whose word decodes to `i` is `exec i`; the schedule's first entry is taken
off, nothing else is added around it. -/
def Obligations.StepRunsDecodedCommand : Prop :=
  ∀ (s : State) (i : Instr), s.busy = true → nextAgent s = .engine → decode s.cmdLatch = .ok i →
    step s = exec i s.popSched

/-- R113: a pending illegal word raises ILLEGAL_CMD with the whole word in ERR_INFO, and no other state changes. -/
def Obligations.StepRunsIllegalWord : Prop :=
  ∀ (s : State) (why : IllegalWord), s.busy = true → nextAgent s = .engine → decode s.cmdLatch = .error why →
    step s = .next { s.popSched with
      busy := false, done := true, err := true, errCode := .illegalCmd, errInfo := s.cmdLatch, errSym := 0 }

/-- R20: "The model schedules the two agents by free interleaving": any agent can be next, by the model's `sched` (log entry 1).
That an engine turn without a pending command is there at all, and changes nothing, is the model's choice (log entry 3): R20 has
no such transition. -/
def Obligations.FreeInterleaving : Prop :=
  (∀ (s : State) (a : Agent), step { s with sched := a :: s.sched } = turn a s) ∧
  (∀ s : State, s.busy = false → turn .engine s = .next s)

/-- R20: under weak fairness "an enabled engine step is eventually taken", and it ends with BUSY = 0 and DONE = 1. That it is the
very next step when the schedule is empty is the model's default order (log entry 1), no bound of the spec (I18). -/
def Obligations.PendingCommandCompletes : Prop :=
  ∀ s : State, s.busy = true → s.sched = [] → ∃ t, step s = .next t ∧ t.busy = false ∧ t.done = true

/-- R26: STATUS.HAZ is "Cleared only by CLEAR and reset". -/
def Obligations.HazClearedOnlyByClearOrReset : Prop :=
  ∀ s t : State, step s = .next t → s.haz = true → t.haz = false →
    nextAgent s = .reset ∨ (nextAgent s = .engine ∧ s.busy = true ∧ decode s.cmdLatch = .ok .clear)

/-- R30: "Only host writes, CLEAR (which writes 0 to every entry) and reset write FREQ." -/
def Obligations.FreqWrittenOnlyByHostClearReset : Prop :=
  ∀ (s t : State) (c : Byte), step s = .next t → lookSym t.freq c ≠ lookSym s.freq c →
    nextAgent s = .reset ∨
    (nextAgent s = .engine ∧ s.busy = true ∧ decode s.cmdLatch = .ok .clear ∧ lookSym t.freq c = 0) ∨
    (nextAgent s = .host ∧ s.busy = false ∧
      ∃ a v rest, s.program = .write a 4 v :: rest ∧ regionOf s.params a = .freq c ∧ lookSym t.freq c = v)

/-- R41: "Only host writes change IN_BUF; no command writes it." (Reset leaves it unspecified, R241.) -/
def Obligations.InBufWrittenOnlyByHost : Prop :=
  ∀ (s t : State) (i : Nat), step s = .next t → nextAgent s ≠ .reset → t.inBuf.read i ≠ s.inBuf.read i →
    nextAgent s = .host ∧ s.busy = false ∧
      ∃ a v rest, s.program = .write a 4 v :: rest ∧ regionOf s.params a = .inBuf i ∧ t.inBuf.read i = v.setWidth 8

/-- R32: "The arena's contents change only through BUILD, BUILD_CODE, CLEAR and reset." -/
def Obligations.ArenaChangedOnlyByTreeCommands : Prop :=
  ∀ s t : State, step s = .next t → t.nodes ≠ s.nodes →
    nextAgent s = .reset ∨
    (nextAgent s = .engine ∧ s.busy = true ∧
      (decode s.cmdLatch = .ok .build ∨ decode s.cmdLatch = .ok .buildCode ∨ decode s.cmdLatch = .ok .clear))

/-! ### The host port -/

/-- R64, R67: a read while BUSY = 0 changes no state of the block, and returns what the rule of the register at its address says
(R24 to R31, R35, R36, R40 to R42), or 0 at a reserved address. The STATUS word and the windows onto the tree and the table have
statements of their own, about the same `readRegion`. -/
def Obligations.IdleReadHasNoSideEffect : Prop :=
  ∀ (s : State) (a : Addr) (rest : List HostOp), s.busy = false → nextAgent s = .host → s.program = .read a 4 :: rest →
    ∃ v, step s = .next { s.popSched with program := rest, readData := some v } ∧
      v = readRegion s (regionOf s.params a) ∧
      (a = 0x0000 → v = 0x48554601) ∧ (a = 0x0001 → v = s.cmdLatch) ∧ (a = 0x0002 → v = s.statusWord) ∧
      (a = 0x0003 → v = s.inLen) ∧ (a = 0x0004 → v = s.bitLen) ∧ (a = 0x0005 → v = s.outLen) ∧
      (a = 0x0006 → v = s.leafCount) ∧ (a = 0x0007 → v = s.nodeCount) ∧ (a = 0x0008 → v = s.root) ∧
      (a = 0x0009 → v = s.totalFreq) ∧ (a = 0x000A → v = s.errInfo) ∧ (a = 0x000B → v.toNat = s.errSym.toNat) ∧
      (a = 0x000C → v = BitVec.ofNat 32 s.params.inCap) ∧ (a = 0x000D → v = BitVec.ofNat 32 s.params.outCap) ∧
      (a = 0x000E → v = BitVec.ofNat 32 s.params.bitCap) ∧
      (∀ c : Byte, a.toNat = 0x0100 + c.toNat → v = lookSym s.freq c) ∧
      (∀ i, i < s.params.inCap → i < 0x1000 → a.toNat = 0x1000 + i → v.toNat = (s.inBuf.read i).toNat) ∧
      (∀ i, i < s.params.outCap → i < 0x1000 → a.toNat = 0x2000 + i → v.toNat = (s.outBuf.read i).toNat) ∧
      (∀ w, w < s.params.bitCap / 32 → w < 0x0400 → a.toNat = 0x3000 + w → v = s.bitBuf.read w) ∧
      (regionOf s.params a = .reserved → v = 0)

/-- R251: reads while BUSY = 1. ID, CMD and the capacity registers read as ever; STATUS reads BUSY = 1 and zeros but for HAZ and
two unspecified bits; every read leaves the block as it was. The value of any other read is free: nothing is said of it. -/
def Obligations.BusyReads : Prop :=
  ∀ (s : State) (a : Addr) (rest : List HostOp), s.busy = true → nextAgent s = .host → s.program = .read a 4 :: rest →
    ∃ v, step s = .next { s.popSched with program := rest, readData := some v, draws := s.draws + 1 } ∧
      (regionOf s.params a = .id → v = 0x48554601) ∧
      (regionOf s.params a = .cmd → v = s.cmdLatch) ∧
      (regionOf s.params a = .inCap → v = BitVec.ofNat 32 s.params.inCap) ∧
      (regionOf s.params a = .outCap → v = BitVec.ofNat 32 s.params.outCap) ∧
      (regionOf s.params a = .bitCap → v = BitVec.ofNat 32 s.params.bitCap) ∧
      (regionOf s.params a = .status →
        v.getLsbD 0 = true ∧ v.getLsbD 3 = s.haz ∧ ∀ b, b ≠ 0 → b ≠ 3 → b ≠ 16 → b ≠ 17 → v.getLsbD b = false)

/-- R25: an accepted write to CMD latches the word, "legal or not", sets BUSY and clears the completion fields; "Nothing else
changes." -/
def Obligations.CommandWriteAccepted : Prop :=
  ∀ (s : State) (a : Addr) (v : Word) (rest : List HostOp),
    s.busy = false → nextAgent s = .host → s.program = .write a 4 v :: rest → regionOf s.params a = .cmd →
    step s = .next { s.popSched with
      program := rest, cmdLatch := v, busy := true, done := false, err := false, errCode := .none, errInfo := 0, errSym := 0 }

/-- R65: a write to an RW register or window stores the data and nothing else, and the next read of it returns what its rule
says; a write to any other address changes nothing of the block, and a reserved one still reads 0 (R66, R67). The access is done
(R20), and the rest of the model's own fields is as the turn found it. (A write to CMD is `CommandWriteAccepted`.) -/
def Obligations.IdleWritesStore : Prop :=
  ∀ (s : State) (a : Addr) (v : Word) (rest : List HostOp),
    s.busy = false → nextAgent s = .host → s.program = .write a 4 v :: rest → regionOf s.params a ≠ .cmd →
    ∃ t, step s = .next t ∧ t.busy = false ∧ t.params = s.params ∧
      t.program = rest ∧ t.sched = s.popSched.sched ∧ t.readData = s.readData ∧ t.draws = s.draws ∧
      (∀ r, r ≠ regionOf s.params a → readRegion t r = readRegion s r) ∧
      readRegion t (regionOf s.params a) =
        match regionOf s.params a with
        | .inLen => v
        | .bitLen => v
        | .freq _ => v
        | .bitBuf _ => v
        | .inBuf _ => v &&& 0xFF
        | .reserved => 0
        | r => readRegion s r

/-- R250: "A host write to any address while STATUS.BUSY = 1 is ignored", and sets HAZ. -/
def Obligations.BusyWriteSetsHaz : Prop :=
  ∀ (s : State) (a : Addr) (v : Word) (rest : List HostOp),
    s.busy = true → nextAgent s = .host → s.program = .write a 4 v :: rest →
    step s = .next { s.popSched with program := rest, haz := true }

/-- R98: WAIT reads STATUS, once a turn, and "ends on the first read with BUSY = 0". That read returns the STATUS word; a read
with BUSY = 1 returns the word of R251 (nothing is said of its bits 16 and 17) and WAIT stays. Nothing else of the block changes. -/
def Obligations.WaitPollsStatus : Prop :=
  ∀ (s : State) (rest : List HostOp), nextAgent s = .host → s.program = .wait :: rest →
    (s.busy = false →
      step s = .next { s.popSched with program := rest, readData := some s.statusWord }) ∧
    (s.busy = true →
      ∃ v, step s = .next { s.popSched with program := .wait :: rest, readData := some v, draws := s.draws + 1 } ∧
        v.getLsbD 0 = true ∧ v.getLsbD 3 = s.haz ∧
        ∀ b, b ≠ 0 → b ≠ 3 → b ≠ 16 → b ≠ 17 → v.getLsbD b = false)

/-- R63: "A model refuses any other size by name." -/
def Obligations.OtherAccessSizesRefused : Prop :=
  ∀ (s : State) (a : Addr) (v : Word) (size : Nat) (rest : List HostOp), nextAgent s = .host → size ≠ 4 →
    (s.program = .read a size :: rest → step s = .refused (.accessSize size)) ∧
    (s.program = .write a size v :: rest → step s = .refused (.accessSize size))

/-- R252: "A host program that follows this never triggers rule R250 or the unspecified reads of rule R251": while the host keeps
the discipline, every step of every agent keeps it, none sets HAZ, and a read made while BUSY = 1 is an allowed one. -/
def Obligations.DisciplinedHostIsSafe : Prop :=
  ∀ s t : State, KeepsDiscipline s → step s = .next t →
    KeepsDiscipline t ∧ (s.haz = false → t.haz = false) ∧
    (∀ a rest, s.busy = true → nextAgent s = .host → s.program = .read a 4 :: rest →
      allowedWhilePending s.params a = true)

/-- R97, R98: `EXEC <mnemonic>` from an idle block: the CMD write latches the command's word, the engine runs the command, and the
read that ends WAIT shows the command's STATUS. The schedule is empty, so the order is the model's default (log entry 1), in which
WAIT ends at its first read; in other orders R20 allows it polls more often. -/
def Obligations.ExecLineRunsCommand : Prop :=
  ∀ (s : State) (i : Instr) (stated : Option Word) (rest : List HostOp), s.busy = false → s.sched = [] →
    s.program = (Line.exec i stated).expand ++ rest →
    ∃ t, step s = .next (acceptCommand (encode i) { s with program := .wait :: rest }) ∧
      step (acceptCommand (encode i) { s with program := .wait :: rest }) = .next t ∧
      exec i (acceptCommand (encode i) { s with program := .wait :: rest }) = .next t ∧
      step t = .next { t with program := rest, readData := some t.statusWord }

/-- R26, R210: the places of the fields in the STATUS word, its reserved bits, and the numbers of the error codes. -/
def Obligations.StatusWordLayout : Prop :=
  (ErrorCode.none.number = 0 ∧ ErrorCode.emptyInput.number = 1 ∧ ErrorCode.missingSymbol.number = 2 ∧
    ErrorCode.framing.number = 3 ∧ ErrorCode.emptyTree.number = 4 ∧ ErrorCode.capacity.number = 5 ∧
    ErrorCode.length.number = 6 ∧ ErrorCode.freqOverflow.number = 7 ∧ ErrorCode.illegalCmd.number = 8) ∧
  ∀ s : State,
    (readRegion s .status).getLsbD 0 = s.busy ∧ (readRegion s .status).getLsbD 1 = s.done ∧
    (readRegion s .status).getLsbD 2 = s.err ∧ (readRegion s .status).getLsbD 3 = s.haz ∧
    (readRegion s .status).extractLsb' 8 4 = s.errCode.number ∧
    (readRegion s .status).getLsbD 16 = s.treeValid ∧ (readRegion s .status).getLsbD 17 = s.tableValid ∧
    (readRegion s .status).extractLsb' 4 4 = 0 ∧ (readRegion s .status).extractLsb' 12 4 = 0 ∧
    (readRegion s .status).extractLsb' 18 14 = 0

/-- R33, R34: the windows onto the arena. -/
def Obligations.NodeWindowsRead : Prop :=
  ∀ (s : State) (i : Nat), Inv s →
    (∀ c, LeafAt s.nodes i c →
      readRegion s (.nodeLink i) = 0x80000000#32 + c.setWidth 32 ∧ (readRegion s (.nodeFreq i)).toNat = freqAt s.nodes i) ∧
    (∀ l r, InternalAt s.nodes i l r →
      (readRegion s (.nodeLink i)).toNat = l * 65536 + r ∧ (readRegion s (.nodeFreq i)).toNat = freqAt s.nodes i) ∧
    (s.nodeCount.toNat ≤ i → readRegion s (.nodeLink i) = 0 ∧ readRegion s (.nodeFreq i) = 0)

/-- R38, R39: CODE_LEN is the length of the code, and bit b of CODE_BITS[s][k] is code bit 32·k + b, 0 past its end. -/
def Obligations.CodeWindowsRead : Prop :=
  ∀ (s : State) (c : Byte) (k b : Nat), Inv s → b < 32 →
    (readRegion s (.codeLen c)).toNat = (lookSym s.code c).length ∧
    (readRegion s (.codeBits c k)).getLsbD b = ((lookSym s.code c)[32 * k + b]?).getD false

/-! ### NOP and CLEAR -/

/-- R111: NOP, the word 0, completes in every state; "Nothing else changes." -/
def Obligations.NopCompletes : Prop :=
  decode 0x00000000 = .ok .nop ∧
  ∀ s : State, exec .nop s = .next { s with busy := false, done := true, err := false, errCode := .none }

/-- R112: CLEAR completes in every state, with no session, FREQ and the lengths 0 and HAZ 0; IN_BUF, BIT_BUF, OUT_BUF and
CMD_LATCH are left unchanged. -/
def Obligations.ClearCompletes : Prop :=
  ∀ s : State, ∃ t, exec .clear s = .next t ∧
    t.busy = false ∧ t.done = true ∧ t.err = false ∧ t.errCode = .none ∧ t.haz = false ∧
    t.treeValid = false ∧ t.tableValid = false ∧
    (∀ c, lookSym t.freq c = 0) ∧ (∀ c, lookSym t.code c = []) ∧
    t.leafCount = 0 ∧ t.nodeCount = 0 ∧ t.root = 0 ∧ t.totalFreq = 0 ∧ t.inLen = 0 ∧ t.bitLen = 0 ∧ t.outLen = 0 ∧
    (∀ i, readRegion t (.nodeLink i) = 0 ∧ readRegion t (.nodeFreq i) = 0) ∧
    t.program = s.program ∧ t.sched = s.sched ∧ t.readData = s.readData ∧ t.params = s.params ∧
    t.cmdLatch = s.cmdLatch ∧ t.errInfo = s.errInfo ∧ t.errSym = s.errSym ∧
    (∀ i, t.inBuf.read i = s.inBuf.read i) ∧ (∀ i, t.outBuf.read i = s.outBuf.read i) ∧
    (∀ i, t.bitBuf.read i = s.bitBuf.read i)

/-! ### BUILD -/

/-- R130, R131, R135, R138: BUILD completes whenever some FREQ entry is not 0 and their sum fits 32 bits. The leaves are the
present symbols in ascending order with their counts, the tree is one of R44, the registers are those of R135, and there is no
table. -/
def Obligations.BuildCompletes : Prop :=
  ∀ s : State, present s.freq ≠ [] → freqSum s.freq ≤ 2 ^ 32 - 1 →
    ∃ t, exec .build s = .next t ∧
      t.busy = false ∧ t.done = true ∧ t.err = false ∧ t.errCode = .none ∧
      t.treeValid = true ∧ t.tableValid = false ∧ (∀ c, lookSym t.code c = []) ∧
      t.leafCount.toNat = (present s.freq).length ∧ t.nodeCount.toNat = 2 * (present s.freq).length - 1 ∧
      t.root.toNat = 2 * (present s.freq).length - 2 ∧ t.totalFreq.toNat = freqSum s.freq ∧
      TreeOk t ∧
      (∀ n c, LeafAt t.nodes n c ↔ (present s.freq)[n]? = some c) ∧
      (∀ n c, LeafAt t.nodes n c → freqAt t.nodes n = (lookSym s.freq c).toNat)

/-- R137, R138: the errors of BUILD, in their order, and what they leave. -/
def Obligations.BuildErrors : Prop :=
  ∀ s : State,
    (present s.freq = [] ∨ freqSum s.freq > 2 ^ 32 - 1) →
    ∃ t, exec .build s = .next t ∧
      t.busy = false ∧ t.done = true ∧ t.err = true ∧
      t.errCode = (if present s.freq = [] then .emptyInput else .freqOverflow) ∧ t.errInfo = 0 ∧ t.errSym = 0 ∧
      t.treeValid = false ∧ t.tableValid = false ∧ t.leafCount = 0 ∧ t.nodeCount = 0 ∧ t.root = 0 ∧ t.totalFreq = 0 ∧
      (∀ c, lookSym t.code c = []) ∧ (∀ c, lookSym t.freq c = lookSym s.freq c)

/-- R132, R133: every merge of a successful BUILD takes the two least nodes of the pool: the right child has the least key, the
left child the next, and every other node of the pool at that point a greater one; the new node's frequency is their sum. -/
def Obligations.BuildMergesTwoLeastKeys : Prop :=
  ∀ s t : State, exec .build s = .next t → t.treeValid = true →
    ∀ n l r, InternalAt t.nodes n l r →
      freqAt t.nodes n = freqAt t.nodes l + freqAt t.nodes r ∧
      InPool t.nodes n l ∧ InPool t.nodes n r ∧ KeyLess t.nodes r l ∧
      ∀ z, InPool t.nodes n z → z ≠ l → z ≠ r → KeyLess t.nodes l z

/-- R142: "The internal nodes' frequencies never decrease with index". -/
def Obligations.InternalFrequenciesNeverDecrease : Prop :=
  ∀ s t : State, exec .build s = .next t → t.treeValid = true →
    ∀ n n', t.leafCount.toNat ≤ n → n < n' → n' ≤ t.root.toNat → freqAt t.nodes n ≤ freqAt t.nodes n'

/-- R141: "Every node frequency ... is at most the total", and an internal one is the exact sum of its children's: nothing wraps. -/
def Obligations.NodeFrequenciesFit : Prop :=
  ∀ s : State, Inv s → s.treeValid = true →
    (∀ n, freqAt s.nodes n ≤ s.totalFreq.toNat) ∧
    (∀ n l r, InternalAt s.nodes n l r → freqAt s.nodes n = freqAt s.nodes l + freqAt s.nodes r)

/-- R136: one present symbol. The leaf is the root, and there is no internal node. -/
def Obligations.BuildOneSymbol : Prop :=
  ∀ (s : State) (c : Byte), present s.freq = [c] →
    ∃ t, exec .build s = .next t ∧ t.treeValid = true ∧ t.nodes = [.leaf c (lookSym s.freq c)] ∧
      t.root = 0 ∧ t.nodeCount = 1 ∧ t.leafCount = 1 ∧ t.totalFreq = lookSym s.freq c

/-- R139: the arena that BUILD writes is a function of FREQ alone, and so is the table DERIVE then gives. -/
def Obligations.BuildIsDeterminedByFreq : Prop :=
  ∀ s s' t t' : State, (∀ c, lookSym s.freq c = lookSym s'.freq c) →
    exec .build s = .next t → exec .build s' = .next t' →
      t.nodes = t'.nodes ∧
      ∀ u u', exec .derive t = .next u → exec .derive t' = .next u' → ∀ c, lookSym u.code c = lookSym u'.code c

/-! ### DERIVE and BUILD_CODE -/

/-- R150, R151, R153: DERIVE completes whenever there is a tree; the table is the tree's, and the tree is only read. -/
def Obligations.DeriveCompletes : Prop :=
  ∀ s : State, Inv s → s.treeValid = true →
    ∃ t, exec .derive s = .next t ∧
      t.busy = false ∧ t.done = true ∧ t.err = false ∧ t.errCode = .none ∧ t.treeValid = true ∧ t.tableValid = true ∧
      TableOk s.nodes s.leafCount.toNat s.root.toNat t.code ∧
      t.nodes = s.nodes ∧ t.leafCount = s.leafCount ∧ t.nodeCount = s.nodeCount ∧ t.root = s.root ∧
      t.totalFreq = s.totalFreq

/-- R155: DERIVE without a tree raises EMPTY_TREE and leaves no table. -/
def Obligations.DeriveWithoutTree : Prop :=
  ∀ s : State, s.treeValid = false →
    ∃ t, exec .derive s = .next t ∧
      t.busy = false ∧ t.done = true ∧ t.err = true ∧ t.errCode = .emptyTree ∧ t.errInfo = 0 ∧ t.errSym = 0 ∧
      t.tableValid = false ∧ ∀ c, lookSym t.code c = []

/-- R45: while TABLE_VALID = 1 the table is prefix-free, and every code has length 1..M − 1, or 1 when M = 1. -/
def Obligations.TableIsPrefixFree : Prop :=
  ∀ s : State, Inv s → s.tableValid = true →
    PrefixFree s.code ∧
    ∀ c, lookSym s.code c ≠ [] →
      1 ≤ (lookSym s.code c).length ∧
      (lookSym s.code c).length ≤ (if s.leafCount.toNat = 1 then 1 else s.leafCount.toNat - 1)

/-- R152: "CODE[s] ≠ [] exactly for the M symbols with a leaf", and the Kraft sum of a tree with at least two leaves is 1. -/
def Obligations.KraftSumIsOne : Prop :=
  ∀ s : State, Inv s → s.tableValid = true →
    (∀ c, lookSym s.code c ≠ [] ↔ ∃ n, LeafAt s.nodes n c) ∧
    (2 ≤ s.leafCount.toNat →
      ((symbols.filter fun c => lookSym s.code c != []).map fun c => (1 / 2 : ℚ) ^ (lookSym s.code c).length).sum = 1)

/-- R156: BUILD_CODE is BUILD, and then DERIVE unless BUILD raised: the state it leaves is the state they leave. -/
def Obligations.BuildCodeIsBuildThenDerive : Prop :=
  ∀ s t u : State, exec .build s = .next t → exec .buildCode s = .next u →
    (t.err = true → u = t) ∧ (t.err = false → exec .derive t = .next u)

/-- R156: BUILD_CODE completes whenever some FREQ entry is not 0 and their sum fits 32 bits, with a tree and its table. -/
def Obligations.BuildCodeCompletes : Prop :=
  ∀ s : State, present s.freq ≠ [] → freqSum s.freq ≤ 2 ^ 32 - 1 →
    ∃ t, exec .buildCode s = .next t ∧
      t.busy = false ∧ t.done = true ∧ t.err = false ∧ t.errCode = .none ∧ t.treeValid = true ∧ t.tableValid = true ∧
      TreeOk t ∧ TableOk t.nodes t.leafCount.toNat t.root.toNat t.code ∧
      (∀ n c, LeafAt t.nodes n c ↔ (present s.freq)[n]? = some c)

/-- R157: in the table BUILD_CODE derives from at least two symbols, a more frequent symbol's code is no longer than a less
frequent one's. The rule is read over the symbols that have a code (log entry 16): an absent symbol has count 0 and length 0. -/
def Obligations.MoreFrequentNotLonger : Prop :=
  ∀ s t : State, exec .buildCode s = .next t → t.tableValid = true → 2 ≤ t.leafCount.toNat →
    ∀ a b, (lookSym s.freq b).toNat < (lookSym s.freq a).toNat → lookSym s.freq b ≠ 0 →
      (lookSym t.code a).length ≤ (lookSym t.code b).length

/-! ### ENCODE -/

/-- R170, R171, R174: ENCODE completes when the length is legal, every input symbol has a code and the output fits. BIT_BUF then
holds the codes in input order, zeros up to the next multiple of 32, and every other word as before. -/
def Obligations.EncodeCompletes : Prop :=
  ∀ s : State, wfParams s.params →
    1 ≤ s.inLen.toNat → s.inLen.toNat ≤ s.params.inCap →
    (∀ c ∈ bytesIn s, lookSym s.code c ≠ []) → (codesOf s.code (bytesIn s)).length ≤ s.params.bitCap →
    ∃ t, exec .encode s = .next t ∧
      t.busy = false ∧ t.done = true ∧ t.err = false ∧ t.errCode = .none ∧
      t.bitLen.toNat = (codesOf s.code (bytesIn s)).length ∧ bitsIn t = codesOf s.code (bytesIn s) ∧
      (∀ j, t.bitLen.toNat ≤ j → j < 32 * wordsFor t.bitLen.toNat → bitAt t.bitBuf j = false) ∧
      (∀ w, wordsFor t.bitLen.toNat ≤ w → t.bitBuf.read w = s.bitBuf.read w)

/-- R172 items 1 and 2, R173: the length checks of ENCODE come first, and BIT_BUF is unchanged. -/
def Obligations.EncodeLengthErrors : Prop :=
  ∀ s : State, (s.inLen.toNat > s.params.inCap ∨ s.inLen = 0) →
    ∃ t, exec .encode s = .next t ∧
      t.busy = false ∧ t.done = true ∧ t.err = true ∧
      t.errCode = (if s.inLen.toNat > s.params.inCap then .length else .emptyInput) ∧
      t.errInfo = (if s.inLen.toNat > s.params.inCap then s.inLen else 0) ∧ t.errSym = 0 ∧ t.bitLen = 0 ∧
      ∀ w, t.bitBuf.read w = s.bitBuf.read w

/-- R172 items 3 and 4, R173: the first input index that has no code, or whose code would carry the output past BIT_CAP, is
reported with its symbol; at one index a missing code comes before capacity. -/
def Obligations.EncodeSymbolErrors : Prop :=
  ∀ (s : State) (i : Nat) (c : Byte), s.inLen.toNat ≤ s.params.inCap → (bytesIn s)[i]? = some c →
    (∀ d ∈ (bytesIn s).take i, lookSym s.code d ≠ []) →
    (codesOf s.code ((bytesIn s).take i)).length ≤ s.params.bitCap →
    (lookSym s.code c = [] ∨ (codesOf s.code ((bytesIn s).take (i + 1))).length > s.params.bitCap) →
    ∃ t, exec .encode s = .next t ∧
      t.busy = false ∧ t.done = true ∧ t.err = true ∧
      t.errCode = (if lookSym s.code c = [] then .missingSymbol else .capacity) ∧
      t.errInfo.toNat = i ∧ t.errSym = c ∧ t.bitLen = 0

/-- R175: without a table ENCODE raises MISSING_SYMBOL at index 0. -/
def Obligations.EncodeWithoutTable : Prop :=
  ∀ s : State, Inv s → s.tableValid = false → 1 ≤ s.inLen.toNat → s.inLen.toNat ≤ s.params.inCap →
    ∃ t, exec .encode s = .next t ∧ t.err = true ∧ t.errCode = .missingSymbol ∧ t.errInfo = 0 ∧
      t.errSym = s.inBuf.read 0 ∧ t.bitLen = 0

/-! ### DECODE -/

/-- R190, R191, R196: DECODE of a tree with at least two leaves completes when the bits are the root-to-leaf paths of some
symbols and these fit OUT_BUF. The symbols are the output, every byte past it is as before, and no table is needed. -/
def Obligations.DecodeCompletes : Prop :=
  ∀ (s : State) (out : List (Byte × Bits)), Inv s → s.treeValid = true → 2 ≤ s.leafCount.toNat →
    1 ≤ s.bitLen.toNat → s.bitLen.toNat ≤ s.params.bitCap →
    (∀ q ∈ out, ∃ n, LeafAt s.nodes n q.1 ∧ IsPath s.nodes s.root.toNat q.2 n) →
    bitsIn s = out.flatMap (fun q => q.2) → out.length ≤ s.params.outCap →
    ∃ t, exec .decode s = .next t ∧
      t.busy = false ∧ t.done = true ∧ t.err = false ∧ t.errCode = .none ∧
      bytesOut t = out.map (fun q => q.1) ∧
      ∀ i, t.outLen.toNat ≤ i → t.outBuf.read i = s.outBuf.read i

/-- R194, R192 items 4 and 5: in a one-leaf tree each 0 bit emits the symbol; the first 1 bit is FRAMING at its own position,
unless OUT_CAP + 1 zero bits come before it: the last of these is CAPACITY at its position. -/
def Obligations.DecodeOneLeaf : Prop :=
  ∀ (s : State) (c : Byte), Inv s → s.treeValid = true → s.leafCount = 1 → LeafAt s.nodes 0 c →
    1 ≤ s.bitLen.toNat → s.bitLen.toNat ≤ s.params.bitCap →
    ((∀ b ∈ bitsIn s, b = false) → s.bitLen.toNat ≤ s.params.outCap →
      ∃ t, exec .decode s = .next t ∧ t.busy = false ∧ t.done = true ∧ t.err = false ∧ t.errCode = .none ∧
        t.outLen = s.bitLen ∧ bytesOut t = List.replicate s.bitLen.toNat c) ∧
    (∀ i, (bitsIn s)[i]? = some true → (∀ b ∈ (bitsIn s).take i, b = false) → i ≤ s.params.outCap →
      ∃ t, exec .decode s = .next t ∧ t.busy = false ∧ t.done = true ∧ t.err = true ∧ t.errCode = .framing ∧
        t.errInfo.toNat = i ∧ t.errSym = 0 ∧ t.outLen = 0) ∧
    (s.params.outCap < s.bitLen.toNat → (∀ b ∈ (bitsIn s).take (s.params.outCap + 1), b = false) →
      ∃ t, exec .decode s = .next t ∧ t.busy = false ∧ t.done = true ∧ t.err = true ∧ t.errCode = .capacity ∧
        t.errInfo.toNat = s.params.outCap ∧ t.errSym = c ∧ t.outLen = 0)

/-- R192 items 1 to 3, R193: the checks before the walk, in their order; OUT_BUF is unchanged. -/
def Obligations.DecodeEarlyErrors : Prop :=
  ∀ s : State, (s.treeValid = false ∨ s.bitLen.toNat > s.params.bitCap ∨ s.bitLen = 0) →
    ∃ t, exec .decode s = .next t ∧
      t.busy = false ∧ t.done = true ∧ t.err = true ∧
      t.errCode = (if s.treeValid = false then .emptyTree
        else if s.bitLen.toNat > s.params.bitCap then .length else .framing) ∧
      t.errInfo = (if s.treeValid = true ∧ s.bitLen.toNat > s.params.bitCap then s.bitLen else 0) ∧
      t.errSym = 0 ∧ t.outLen = 0 ∧ ∀ i, t.outBuf.read i = s.outBuf.read i

/-- R192 item 6: a sequence that ends inside a code: the bits are the paths of some symbols and then a non-empty path to an
internal node. -/
def Obligations.DecodeEndsInsideCode : Prop :=
  ∀ (s : State) (out : List (Byte × Bits)) (part : Bits) (m l r : Nat),
    Inv s → s.treeValid = true → 2 ≤ s.leafCount.toNat → s.bitLen.toNat ≤ s.params.bitCap →
    (∀ q ∈ out, ∃ n, LeafAt s.nodes n q.1 ∧ IsPath s.nodes s.root.toNat q.2 n) → out.length ≤ s.params.outCap →
    part ≠ [] → IsPath s.nodes s.root.toNat part m → InternalAt s.nodes m l r →
    bitsIn s = out.flatMap (fun q => q.2) ++ part →
    ∃ t, exec .decode s = .next t ∧
      t.busy = false ∧ t.done = true ∧ t.err = true ∧ t.errCode = .framing ∧ t.errInfo = s.bitLen ∧ t.errSym = 0 ∧
      t.outLen = 0

/-- R192 item 5: the symbol that would be number OUT_CAP + 1 raises CAPACITY at the bit that completes it. -/
def Obligations.DecodeOutputFull : Prop :=
  ∀ (s : State) (out : List (Byte × Bits)) (c : Byte) (path rest : Bits),
    Inv s → s.treeValid = true → 2 ≤ s.leafCount.toNat → s.bitLen.toNat ≤ s.params.bitCap →
    (∀ q ∈ out, ∃ n, LeafAt s.nodes n q.1 ∧ IsPath s.nodes s.root.toNat q.2 n) → out.length = s.params.outCap →
    (∃ n, LeafAt s.nodes n c ∧ IsPath s.nodes s.root.toNat path n) →
    bitsIn s = out.flatMap (fun q => q.2) ++ path ++ rest →
    ∃ t, exec .decode s = .next t ∧
      t.busy = false ∧ t.done = true ∧ t.err = true ∧ t.errCode = .capacity ∧
      t.errInfo.toNat + 1 = (out.flatMap (fun q => q.2) ++ path).length ∧ t.errSym = c ∧ t.outLen = 0

/-- R197: "DECODE reads only BIT(0..BIT_LEN − 1)": two states that differ only in bits at or past BIT_LEN get the same result. -/
def Obligations.DecodeIgnoresBitsPastLength : Prop :=
  ∀ (s : State) (buf : Memory 32) (t u : State),
    (∀ i, i < s.bitLen.toNat → bitAt buf i = bitAt s.bitBuf i) →
    exec .decode s = .next t → exec .decode { s with bitBuf := buf } = .next u →
    u = { t with bitBuf := buf }

/-! ### The round trip -/

/-- R195: with the table of the current tree, every successful ENCODE output decodes to its input, unless it exceeds OUT_CAP. -/
def Obligations.EncodedInputDecodes : Prop :=
  ∀ s t : State, Inv s → s.tableValid = true → exec .encode s = .next t → t.err = false →
    s.inLen.toNat ≤ s.params.outCap →
    ∃ u, exec .decode t = .next u ∧ u.err = false ∧ u.errCode = .none ∧ u.outLen = s.inLen ∧ bytesOut u = bytesIn s

/-- R176: from the counts of a non-empty input S that fits IN_BUF and OUT_BUF, BUILD_CODE succeeds; and then, whenever ENCODE
of S succeeds, DECODE gives S back. `a` is the state with the counts loaded, `b` after BUILD_CODE, `c` that with S loaded, `d`
after ENCODE. -/
def Obligations.RoundTripFromCounts : Prop :=
  ∀ (input : List Byte) (a b : State), Inv a →
    input ≠ [] → input.length ≤ a.params.inCap → input.length ≤ a.params.outCap →
    (∀ x, (lookSym a.freq x).toNat = input.count x) →
    exec .buildCode a = .next b →
    b.err = false ∧
    ∀ c d : State, c = { b with inBuf := c.inBuf, inLen := c.inLen } → bytesIn c = input →
      exec .encode c = .next d → d.err = false →
      ∃ u, exec .decode d = .next u ∧ u.err = false ∧ u.outLen.toNat = input.length ∧ bytesOut u = input

/-! ### Frames -/

/-- What NOP, BUILD, DERIVE and BUILD_CODE leave as it was, whatever their outcome (R61, R111, R130, R150, R156): every register,
flag and byte but those of the tree, the table and the completion; NOP leaves these two as well, DERIVE the tree. -/
def Obligations.FrameOfTreeCommands : Prop :=
  ∀ (i : Instr) (s t : State), i = .nop ∨ i = .build ∨ i = .derive ∨ i = .buildCode → exec i s = .next t →
    t.program = s.program ∧ t.sched = s.sched ∧ t.readData = s.readData ∧
    t.params = s.params ∧ t.cmdLatch = s.cmdLatch ∧ t.haz = s.haz ∧
    t.inLen = s.inLen ∧ t.bitLen = s.bitLen ∧ t.outLen = s.outLen ∧ (∀ c, lookSym t.freq c = lookSym s.freq c) ∧
    (∀ k, t.inBuf.read k = s.inBuf.read k) ∧ (∀ k, t.outBuf.read k = s.outBuf.read k) ∧
    (∀ k, t.bitBuf.read k = s.bitBuf.read k) ∧
    (t.err = false → t.errInfo = s.errInfo ∧ t.errSym = s.errSym) ∧
    (i = .nop ∨ i = .derive →
      t.treeValid = s.treeValid ∧ t.leafCount = s.leafCount ∧ t.nodeCount = s.nodeCount ∧ t.root = s.root ∧
      t.totalFreq = s.totalFreq ∧ t.nodes = s.nodes) ∧
    (i = .nop → t.tableValid = s.tableValid ∧ ∀ c, lookSym t.code c = lookSym s.code c)

/-- What ENCODE leaves as it was (R61, R170, R173, R174): everything but BIT_BUF, BIT_LEN and the completion. On success the words
it stores to are 0 .. ⌈BIT_LEN/32⌉ − 1, and every other word is unchanged; when the length is illegal BIT_BUF is unchanged. -/
def Obligations.FrameOfEncode : Prop :=
  ∀ s t : State, exec .encode s = .next t →
    t.program = s.program ∧ t.sched = s.sched ∧ t.readData = s.readData ∧
    t.params = s.params ∧ t.cmdLatch = s.cmdLatch ∧ t.haz = s.haz ∧ t.treeValid = s.treeValid ∧
    t.tableValid = s.tableValid ∧ t.inLen = s.inLen ∧ t.outLen = s.outLen ∧ t.leafCount = s.leafCount ∧
    t.nodeCount = s.nodeCount ∧ t.root = s.root ∧ t.totalFreq = s.totalFreq ∧ t.nodes = s.nodes ∧
    (∀ c, lookSym t.freq c = lookSym s.freq c) ∧ (∀ c, lookSym t.code c = lookSym s.code c) ∧
    (∀ k, t.inBuf.read k = s.inBuf.read k) ∧ (∀ k, t.outBuf.read k = s.outBuf.read k) ∧
    (t.err = false → t.errInfo = s.errInfo ∧ t.errSym = s.errSym ∧
      ∀ w, wordsFor (codesOf s.code (bytesIn s)).length ≤ w → t.bitBuf.read w = s.bitBuf.read w) ∧
    (t.errCode = .length ∨ t.errCode = .emptyInput → ∀ w, t.bitBuf.read w = s.bitBuf.read w)

/-- What DECODE leaves as it was (R61, R190, R193): everything but OUT_BUF, OUT_LEN and the completion. On success the bytes it
stores to are 0 .. OUT_LEN − 1, and every other byte is unchanged; on an error found before the walk OUT_BUF is unchanged. -/
def Obligations.FrameOfDecode : Prop :=
  ∀ s t : State, exec .decode s = .next t →
    t.program = s.program ∧ t.sched = s.sched ∧ t.readData = s.readData ∧
    t.params = s.params ∧ t.cmdLatch = s.cmdLatch ∧ t.haz = s.haz ∧ t.treeValid = s.treeValid ∧
    t.tableValid = s.tableValid ∧ t.inLen = s.inLen ∧ t.bitLen = s.bitLen ∧ t.leafCount = s.leafCount ∧
    t.nodeCount = s.nodeCount ∧ t.root = s.root ∧ t.totalFreq = s.totalFreq ∧ t.nodes = s.nodes ∧
    (∀ c, lookSym t.freq c = lookSym s.freq c) ∧ (∀ c, lookSym t.code c = lookSym s.code c) ∧
    (∀ k, t.inBuf.read k = s.inBuf.read k) ∧ (∀ k, t.bitBuf.read k = s.bitBuf.read k) ∧
    (t.err = false → t.errInfo = s.errInfo ∧ t.errSym = s.errSym ∧
      ∀ k, t.outLen.toNat ≤ k → t.outBuf.read k = s.outBuf.read k) ∧
    (t.errCode = .emptyTree ∨ t.errCode = .length ∨ s.bitLen = 0 → ∀ k, t.outBuf.read k = s.outBuf.read k)
end

