-- ==== Sys2Proof/Laws/Arena.lean ====
section
/-! SUPPORT. Facts about an arena of R44: records, parents, paths from the root and their uniqueness. -/

namespace Sys2Proof.Machine

theorem LeafAt.not_internal {nodes : List Node} {n : Nat} {c : Byte} {l r : Nat} (h : LeafAt nodes n c) :
    ¬ InternalAt nodes n l r := by
  rintro ⟨g, hg⟩
  obtain ⟨f, hf⟩ := h
  simp [hf] at hg

theorem LeafAt.sym_inj {nodes : List Node} {n : Nat} {c d : Byte} (h : LeafAt nodes n c) (h' : LeafAt nodes n d) : c = d := by
  obtain ⟨f, hf⟩ := h
  obtain ⟨g, hg⟩ := h'
  simp [hf] at hg
  exact hg.1

theorem InternalAt.inj {nodes : List Node} {n l r l' r' : Nat} (h : InternalAt nodes n l r) (h' : InternalAt nodes n l' r') :
    l = l' ∧ r = r' := by
  obtain ⟨f, hf⟩ := h
  obtain ⟨g, hg⟩ := h'
  simp [hf] at hg
  exact ⟨hg.1, hg.2.1⟩

theorem LeafAt.lt_length {nodes : List Node} {n : Nat} {c : Byte} (h : LeafAt nodes n c) : n < nodes.length := by
  obtain ⟨f, hf⟩ := h
  exact (List.getElem?_eq_some_iff.1 hf).1

theorem InternalAt.lt_length {nodes : List Node} {n l r : Nat} (h : InternalAt nodes n l r) : n < nodes.length := by
  obtain ⟨f, hf⟩ := h
  exact (List.getElem?_eq_some_iff.1 hf).1

theorem LeafAt.nodeAt {nodes : List Node} {n : Nat} {c : Byte} (h : LeafAt nodes n c) : ∃ f, nodeAt nodes n = .leaf c f := by
  obtain ⟨f, hf⟩ := h
  exact ⟨f, by simp [Machine.nodeAt, hf]⟩

theorem InternalAt.nodeAt {nodes : List Node} {n l r : Nat} (h : InternalAt nodes n l r) :
    ∃ f, nodeAt nodes n = .internal l r f := by
  obtain ⟨f, hf⟩ := h
  exact ⟨f, by simp [Machine.nodeAt, hf]⟩

/-- In an arena, a node is a leaf exactly below M. -/
theorem ArenaOk.leaf_lt {nodes : List Node} {M : Nat} (ok : ArenaOk nodes M) {n : Nat} {c : Byte} (h : LeafAt nodes n c) :
    n < M := by
  by_contra hn
  have hlen := h.lt_length
  rw [ok.length_eq] at hlen
  obtain ⟨l, r, hi, -⟩ := ok.internal n (by omega) hlen
  exact h.not_internal hi

theorem ArenaOk.internal_ge {nodes : List Node} {M : Nat} (ok : ArenaOk nodes M) {n l r : Nat} (h : InternalAt nodes n l r) :
    M ≤ n ∧ n < 2 * M - 1 ∧ l < n ∧ r < n ∧ l ≠ r := by
  have hlen := h.lt_length
  rw [ok.length_eq] at hlen
  by_cases hn : n < M
  · obtain ⟨c, hc⟩ := ok.leaf n hn
    exact absurd h hc.not_internal
  · obtain ⟨l', r', hi, h1, h2, h3⟩ := ok.internal n (by omega) hlen
    obtain ⟨rfl, rfl⟩ := h.inj hi
    exact ⟨by omega, hlen, h1, h2, h3⟩

theorem ArenaOk.leaf_inj {nodes : List Node} {M : Nat} (ok : ArenaOk nodes M) {m n : Nat} {c : Byte}
    (h : LeafAt nodes m c) (h' : LeafAt nodes n c) : m = n := by
  rcases Nat.lt_trichotomy m n with hlt | heq | hgt
  · have := ok.ascend m n c c hlt h h'; omega
  · exact heq
  · have := ok.ascend n m c c hgt h' h; omega

/-- A node has at most one parent. -/
theorem ArenaOk.parent_unique {nodes : List Node} {M : Nat} (ok : ArenaOk nodes M) {c p q : Nat} (hp : ChildOf nodes c p)
    (hq : ChildOf nodes c q) : p = q := by
  by_cases hc : c < 2 * M - 2
  · exact (ok.parent c hc).unique hp hq
  · obtain ⟨l, r, hi, hc'⟩ := hp
    have := ok.internal_ge hi
    have e : c = 2 * M - 2 := by omega
    exact absurd ⟨l, r, hi, hc'⟩ (e ▸ ok.root_top p)

/-! ### Paths -/

/-- The last step of a path. -/
theorem IsPath.snoc {nodes : List Node} {root : Nat} {p : Bits} {m : Nat} (h : IsPath nodes root p m) :
    (p = [] ∧ m = root) ∨ ∃ q b n l r, p = q ++ [b] ∧ IsPath nodes root q n ∧ InternalAt nodes n l r ∧
      m = if b then r else l := by
  cases h with
  | root => exact .inl ⟨rfl, rfl⟩
  | left h hi => exact .inr ⟨_, false, _, _, _, rfl, h, hi, rfl⟩
  | right h hi => exact .inr ⟨_, true, _, _, _, rfl, h, hi, rfl⟩

theorem IsPath.step {nodes : List Node} {root : Nat} {p : Bits} {n l r : Nat} (h : IsPath nodes root p n)
    (hi : InternalAt nodes n l r) (b : Bool) : IsPath nodes root (p ++ [b]) (if b then r else l) := by
  cases b
  · exact .left h hi
  · exact .right h hi

theorem IsPath.nil_eq {nodes : List Node} {root m : Nat} (h : IsPath nodes root [] m) : m = root := by
  rcases h.snoc with ⟨-, h⟩ | ⟨q, b, n, l, r, h, -⟩
  · exact h
  · simp at h

theorem IsPath.snoc_inv {nodes : List Node} {root : Nat} {q : Bits} {b : Bool} {m : Nat} (h : IsPath nodes root (q ++ [b]) m) :
    ∃ n l r, IsPath nodes root q n ∧ InternalAt nodes n l r ∧ m = if b then r else l := by
  rcases h.snoc with ⟨h, -⟩ | ⟨q', b', n, l, r, e, h, hi, hm⟩
  · simp at h
  · obtain ⟨h1, h2⟩ := List.append_inj' e rfl
    obtain rfl : b = b' := by simpa using h2
    subst h1
    exact ⟨n, l, r, h, hi, hm⟩

/-- The first step of a path. -/
theorem IsPath.cons {nodes : List Node} {n l r : Nat} (hi : InternalAt nodes n l r) (b : Bool) {p : Bits} {m : Nat}
    (h : IsPath nodes (if b then r else l) p m) : IsPath nodes n (b :: p) m := by
  induction h with
  | root => simpa using (IsPath.root (nodes := nodes) (root := n)).step hi b
  | left _ hi' ih => exact ih.left hi'
  | right _ hi' ih => exact ih.right hi'

theorem IsPath.cons_inv {nodes : List Node} {n : Nat} {b : Bool} {p : Bits} {m : Nat} (h : IsPath nodes n (b :: p) m) :
    ∃ l r, InternalAt nodes n l r ∧ IsPath nodes (if b then r else l) p m := by
  induction p using List.reverseRecOn generalizing m with
  | nil =>
    obtain ⟨n', l, r, h, hi, hm⟩ := IsPath.snoc_inv (q := []) h
    obtain rfl := h.nil_eq
    exact ⟨l, r, hi, hm ▸ .root⟩
  | append_singleton q b' ih =>
    obtain ⟨n', l, r, h, hi, hm⟩ := IsPath.snoc_inv (q := b :: q) (by simpa using h)
    obtain ⟨l', r', hi', h'⟩ := ih h
    exact ⟨l', r', hi', hm ▸ h'.step hi b'⟩

theorem IsPath.append {nodes : List Node} {a b c : Nat} {p q : Bits} (h : IsPath nodes a p b) (h' : IsPath nodes b q c) :
    IsPath nodes a (p ++ q) c := by
  induction h' with
  | root => simpa using h
  | left _ hi ih => rw [← List.append_assoc]; exact ih.left hi
  | right _ hi ih => rw [← List.append_assoc]; exact ih.right hi

theorem IsPath.append_inv {nodes : List Node} {a c : Nat} {p q : Bits} (h : IsPath nodes a (p ++ q) c) :
    ∃ b, IsPath nodes a p b ∧ IsPath nodes b q c := by
  induction q using List.reverseRecOn generalizing c with
  | nil => exact ⟨c, by simpa using h, .root⟩
  | append_singleton q b ih =>
    rw [← List.append_assoc] at h
    obtain ⟨n, l, r, h, hi, hm⟩ := h.snoc_inv
    obtain ⟨m, h1, h2⟩ := ih h
    exact ⟨m, h1, hm ▸ h2.step hi b⟩

/-- Where a path leads is decided by its bits. -/
theorem IsPath.det {nodes : List Node} {a m n : Nat} {p : Bits} (h : IsPath nodes a p m) (h' : IsPath nodes a p n) :
    m = n := by
  induction h generalizing n with
  | root => exact h'.nil_eq.symm
  | left _ hi ih =>
    obtain ⟨k, l, r, h1, hi', hm⟩ := h'.snoc_inv
    obtain rfl := ih h1
    obtain ⟨rfl, rfl⟩ := hi.inj hi'
    simpa using hm.symm
  | right _ hi ih =>
    obtain ⟨k, l, r, h1, hi', hm⟩ := h'.snoc_inv
    obtain rfl := ih h1
    obtain ⟨rfl, rfl⟩ := hi.inj hi'
    simpa using hm.symm

/-- From a leaf no bit leads anywhere. -/
theorem LeafAt.path_nil {nodes : List Node} {n m : Nat} {c : Byte} {p : Bits} (h : LeafAt nodes n c)
    (hp : IsPath nodes n p m) : p = [] ∧ m = n := by
  cases p with
  | nil => exact ⟨rfl, hp.nil_eq⟩
  | cons b p =>
    obtain ⟨l, r, hi, -⟩ := hp.cons_inv
    exact absurd hi h.not_internal

/-- A path goes strictly down in index. -/
theorem ArenaOk.path_add_length {nodes : List Node} {M : Nat} (ok : ArenaOk nodes M) {a m : Nat} {p : Bits}
    (h : IsPath nodes a p m) : m + p.length ≤ a := by
  induction h with
  | root => simp
  | left _ hi ih => have := ok.internal_ge hi; simp; omega
  | right _ hi ih => have := ok.internal_ge hi; simp; omega

/-- "Every node has exactly one path": two paths to the same node are equal. -/
theorem ArenaOk.path_unique {nodes : List Node} {M : Nat} (ok : ArenaOk nodes M) {a m : Nat} {p q : Bits}
    (h : IsPath nodes a p m) (h' : IsPath nodes a q m) : p = q := by
  induction h generalizing q with
  | root =>
    have := ok.path_add_length h'
    exact (List.eq_nil_of_length_eq_zero (by omega)).symm
  | @left p n l r hp hi ih =>
    rcases h'.snoc with ⟨rfl, rfl⟩ | ⟨q', b, n', l', r', rfl, h1, hi', hm⟩
    · have := ok.path_add_length (hp.left hi); simp at this
    · have hc : ChildOf nodes l n := ⟨l, r, hi, .inl rfl⟩
      have hc' : ChildOf nodes l n' := ⟨l', r', hi', by cases b <;> simp_all⟩
      obtain rfl := ok.parent_unique hc hc'
      obtain ⟨rfl, rfl⟩ := hi.inj hi'
      obtain rfl := ih h1
      cases b
      · rfl
      · exact absurd hm (ok.internal_ge hi).2.2.2.2
  | @right p n l r hp hi ih =>
    rcases h'.snoc with ⟨rfl, rfl⟩ | ⟨q', b, n', l', r', rfl, h1, hi', hm⟩
    · have := ok.path_add_length (hp.right hi); simp at this
    · have hc : ChildOf nodes r n := ⟨l, r, hi, .inr rfl⟩
      have hc' : ChildOf nodes r n' := ⟨l', r', hi', by cases b <;> simp_all⟩
      obtain rfl := ok.parent_unique hc hc'
      obtain ⟨rfl, rfl⟩ := hi.inj hi'
      obtain rfl := ih h1
      cases b
      · exact absurd hm.symm (ok.internal_ge hi).2.2.2.2
      · rfl

/-- Every node is reached from the root. -/
theorem ArenaOk.exists_path {nodes : List Node} {M : Nat} (ok : ArenaOk nodes M) :
    ∀ n, n < 2 * M - 1 → ∃ p, IsPath nodes (2 * M - 2) p n := by
  have main : ∀ k n, n + k = 2 * M - 2 → n < 2 * M - 1 → ∃ p, IsPath nodes (2 * M - 2) p n := by
    intro k
    induction k using Nat.strong_induction_on with
    | _ k ih =>
      intro n hk hn
      by_cases h0 : k = 0
      · subst h0
        exact ⟨[], by rw [show n = 2 * M - 2 by omega]; exact .root⟩
      · obtain ⟨q, ⟨l, r, hi, hc⟩, -⟩ := ok.parent n (by omega)
        have hq := ok.internal_ge hi
        obtain ⟨p, hp⟩ := ih (2 * M - 2 - q) (by omega) q (by omega) hq.2.1
        rcases hc with rfl | rfl
        · exact ⟨_, hp.left hi⟩
        · exact ⟨_, hp.right hi⟩
  intro n hn
  exact main (2 * M - 2 - n) n (by omega) hn

/-- In a tree of at least two leaves no leaf is the root, so its path is not empty (R152). -/
theorem ArenaOk.leaf_path_ne_nil {nodes : List Node} {M : Nat} (ok : ArenaOk nodes M) (hM : 2 ≤ M) {n : Nat} {c : Byte}
    {p : Bits} (h : LeafAt nodes n c) (hp : IsPath nodes (2 * M - 2) p n) : p ≠ [] := by
  rintro rfl
  have := hp.nil_eq
  have := ok.leaf_lt h
  omega

/-- A leaf's depth is at most M − 1 (R151). -/
theorem ArenaOk.leaf_path_length {nodes : List Node} {M : Nat} (ok : ArenaOk nodes M) (hM : 2 ≤ M) {n : Nat} {c : Byte}
    {p : Bits} (h : LeafAt nodes n c) (hp : IsPath nodes (2 * M - 2) p n) : p.length ≤ M - 1 := by
  rcases hp.snoc with ⟨rfl, rfl⟩ | ⟨q, b, k, l, r, rfl, h1, hi, -⟩
  · simp
  · have h2 := ok.path_add_length h1
    have h3 := ok.internal_ge hi
    simp
    omega

end Sys2Proof.Machine
end

