-- ==== Sys2Proof/Laws/Memory.lean ====
section
/-! SUPPORT. The laws of the named operations over symbol arrays and buffers: a read after a write, and that every operation keeps
the canonical form and the bound of a buffer. -/

namespace Sys2Proof.Machine

/-! ### Symbol arrays -/

theorem lookSym_putSym {α : Type} (v : Vector α 256) (a b : Byte) (x : α) :
    lookSym (putSym v a x) b = if a = b then x else lookSym v b := by
  have h : a.toNat = b.toNat ↔ a = b := BitVec.toNat_inj
  simp only [lookSym, putSym, Vector.getElem_set, h]

@[simp] theorem lookSym_putSym_self {α : Type} (v : Vector α 256) (a : Byte) (x : α) : lookSym (putSym v a x) a = x := by
  simp [lookSym_putSym]

theorem lookSym_putSym_ne {α : Type} (v : Vector α 256) {a b : Byte} (x : α) (h : a ≠ b) :
    lookSym (putSym v a x) b = lookSym v b := by
  simp [lookSym_putSym, h]

@[simp] theorem lookSym_replicate {α : Type} (x : α) (c : Byte) : lookSym (Vector.replicate 256 x) c = x := by
  simp [lookSym]

@[simp] theorem lookSym_emptyTable (c : Byte) : lookSym emptyTable c = [] := lookSym_replicate _ c

@[simp] theorem lookSym_zeroFreq (c : Byte) : lookSym zeroFreq c = 0 := lookSym_replicate _ c

theorem lookSym_ext {α : Type} {v w : Vector α 256} (h : ∀ c, lookSym v c = lookSym w c) : v = w := by
  apply Vector.ext
  intro i hi
  have := h (BitVec.ofNat 8 i)
  simp only [lookSym, BitVec.toNat_ofNat, Nat.reducePow, Nat.mod_eq_of_lt hi] at this
  exact this

@[simp] theorem mem_symbols (c : Byte) : c ∈ symbols := by
  have := c.isLt
  exact List.mem_map.2 ⟨c.toNat, List.mem_range.2 this, by simp⟩

theorem symbols_pairwise : symbols.Pairwise fun a b => a.toNat < b.toNat := by
  rw [symbols, List.pairwise_map]
  refine List.Pairwise.imp_of_mem ?_ (List.pairwise_lt_range (n := 256))
  intro a b ha hb h
  have ha := List.mem_range.1 ha
  have hb := List.mem_range.1 hb
  simp only [BitVec.toNat_ofNat]
  omega

theorem symbols_nodup : symbols.Nodup :=
  symbols_pairwise.imp fun h e => by simp [e] at h

@[simp] theorem symbols_length : symbols.length = 256 := by simp [symbols]

/-! ### Buffers: read after write -/

theorem findCell_putCell {w : Nat} (cs : List (Nat × BitVec w)) (i j : Nat) (v : BitVec w) :
    findCell (putCell cs i v) j = if i = j then some v else findCell cs j := by
  induction cs with
  | nil => simp [putCell, findCell]
  | cons c rest ih =>
    obtain ⟨k, x⟩ := c
    by_cases h1 : i < k
    · simp [putCell, h1, findCell]
    · by_cases h2 : i = k
      · subst h2
        by_cases e : i = j <;> simp [putCell, findCell, e]
      · by_cases e : k = j
        · subst e; simp [putCell, h1, h2, findCell]
        · simp [putCell, h1, h2, findCell, e, ih]

theorem Memory.read_write {w : Nat} (m : Memory w) (i j : Nat) (v : BitVec w) :
    (m.write i v).read j = if i = j then v else m.read j := by
  simp only [Memory.read, Memory.write, Memory.unlisted, findCell_putCell]
  split_ifs <;> rfl

@[simp] theorem Memory.draw_write {w : Nat} (m : Memory w) (i : Nat) (v : BitVec w) : (m.write i v).draw = m.draw := rfl

@[simp] theorem Memory.draw_writeFrom {w : Nat} (m : Memory w) (i : Nat) (vs : List (BitVec w)) :
    (m.writeFrom i vs).draw = m.draw := by
  induction vs generalizing m i with
  | nil => rfl
  | cons v vs ih => exact ih (m.write i v) (i + 1)

/-! ### Buffers: the canonical form is kept -/

theorem cellsRise_putCell {w : Nat} (cs : List (Nat × BitVec w)) (i : Nat) (v : BitVec w) (lo : Option Nat)
    (h : cellsRise lo cs = true) (hlo : ∀ l, lo = some l → l < i) : cellsRise lo (putCell cs i v) = true := by
  induction cs generalizing lo with
  | nil => cases lo <;> simp_all [putCell, cellsRise]
  | cons c rest ih =>
    obtain ⟨k, x⟩ := c
    simp only [cellsRise, Bool.and_eq_true] at h
    simp only [putCell]
    split_ifs with h1 h2
    · cases lo <;> simp_all [cellsRise]
    · subst h2
      cases lo <;> simp_all [cellsRise]
    · have := ih (some k) h.2 (fun l hl => by simp at hl; omega)
      simp [cellsRise, h.1, this]

theorem Memory.wf_write {w : Nat} (m : Memory w) (i : Nat) (v : BitVec w) (h : m.wf = true) : (m.write i v).wf = true :=
  cellsRise_putCell m.cells i v none h (by simp)

theorem Memory.wf_writeFrom {w : Nat} (m : Memory w) (i : Nat) (vs : List (BitVec w)) (h : m.wf = true) :
    (m.writeFrom i vs).wf = true := by
  induction vs generalizing m i with
  | nil => exact h
  | cons v vs ih => exact ih (m.write i v) (i + 1) (m.wf_write i v h)

@[simp] theorem Memory.wf_unspecified (w d : Nat) : (Memory.unspecified w d).wf = true := rfl

theorem cellsBelow_putCell {w : Nat} (cap : Nat) (cs : List (Nat × BitVec w)) (i : Nat) (v : BitVec w)
    (h : cellsBelow cap cs = true) (hi : i < cap) : cellsBelow cap (putCell cs i v) = true := by
  induction cs with
  | nil => simp [putCell, cellsBelow, hi]
  | cons c rest ih =>
    obtain ⟨k, x⟩ := c
    simp only [cellsBelow, Bool.and_eq_true, decide_eq_true_eq] at h
    simp only [putCell]
    split_ifs <;> simp_all [cellsBelow]

theorem Memory.within_write {w : Nat} (m : Memory w) (cap i : Nat) (v : BitVec w) (h : m.within cap = true) (hi : i < cap) :
    (m.write i v).within cap = true :=
  cellsBelow_putCell cap m.cells i v h hi

theorem Memory.within_writeFrom {w : Nat} (m : Memory w) (cap i : Nat) (vs : List (BitVec w)) (h : m.within cap = true)
    (hi : i + vs.length ≤ cap) : (m.writeFrom i vs).within cap = true := by
  induction vs generalizing m i with
  | nil => exact h
  | cons v vs ih =>
    simp only [List.length_cons] at hi
    exact ih (m.write i v) (i + 1) (m.within_write cap i v h (by omega)) (by omega)

@[simp] theorem Memory.within_unspecified (w d cap : Nat) : (Memory.unspecified w d).within cap = true := rfl

/-- A read after a store of a list of values: the value stored where one was, and the old value elsewhere. -/
theorem Memory.read_writeFrom {w : Nat} (m : Memory w) (i j : Nat) (vs : List (BitVec w)) :
    (m.writeFrom i vs).read j = if i ≤ j then (vs[j - i]?).getD (m.read j) else m.read j := by
  induction vs generalizing m i with
  | nil => simp [Memory.writeFrom]
  | cons v vs ih =>
    rw [Memory.writeFrom, ih, m.read_write i j v]
    by_cases h1 : i + 1 ≤ j
    · have e : j - i = (j - (i + 1)) + 1 := by omega
      simp [h1, show i ≤ j by omega, show i ≠ j by omega, e]
    · by_cases h2 : i = j
      · subst h2; simp
      · simp [h1, h2, show ¬ i ≤ j by omega]

end Sys2Proof.Machine
end

