-- ==== Sys2Proof/Laws/Bits.lean ====
section
/-! SUPPORT. The laws of the bit order (R69): what bit a packed word holds at each place, and what BIT(j) is after an output has been
stored. -/

namespace Sys2Proof.Machine

theorem testBit_bitsToNat (bs : Bits) (i : Nat) : (bitsToNat bs).testBit i = (bs[i]?).getD false := by
  induction bs generalizing i with
  | nil => simp [bitsToNat]
  | cons b bs ih =>
    cases i with
    | zero => cases b <;> simp [bitsToNat, Nat.testBit_zero]
    | succ i =>
      have h : (b.toNat + 2 * bitsToNat bs) / 2 = bitsToNat bs := by
        cases b
        · simp
        · simp; omega
      simp [bitsToNat, Nat.testBit_succ, h, ih]

/-- Bit `b` of a packed word is element `b` of the sequence (R39, R40). -/
theorem getLsbD_packWord (bs : Bits) (b : Nat) (hb : b < 32) : (packWord bs).getLsbD b = (bs[b]?).getD false := by
  rw [packWord, BitVec.getLsbD_ofNat, testBit_bitsToNat, List.getElem?_take]
  simp [hb]

@[simp] theorem packWords_length (n : Nat) (bs : Bits) : (packWords n bs).length = n := by
  induction n generalizing bs with
  | zero => rfl
  | succ n ih => simp [packWords, ih]

theorem getElem?_packWords (n : Nat) (bs : Bits) (w : Nat) (hw : w < n) :
    (packWords n bs)[w]? = some (packWord (bs.drop (32 * w))) := by
  induction n generalizing bs w with
  | zero => omega
  | succ n ih =>
    cases w with
    | zero => simp [packWords]
    | succ w =>
      simp only [packWords, List.getElem?_cons_succ]
      rw [ih _ w (by omega), List.drop_drop]
      congr 3
      omega

theorem le_mul_wordsFor (n : Nat) : n ≤ 32 * wordsFor n := by unfold wordsFor; omega

/-- BIT(j) after an output has been stored from word 0 on: the output's bit, or 0, inside its words, and the old bit past them
(R171, R174). -/
theorem bitAt_writeFrom (m : Memory 32) (n : Nat) (bs : Bits) (j : Nat) :
    bitAt (m.writeFrom 0 (packWords n bs)) j = if j < 32 * n then (bs[j]?).getD false else bitAt m j := by
  unfold bitAt
  rw [Memory.read_writeFrom]
  by_cases h : j < 32 * n
  · have hw : j / 32 < n := by omega
    have e : 32 * (j / 32) + j % 32 = j := by omega
    rw [if_pos (Nat.zero_le _), Nat.sub_zero, getElem?_packWords n bs _ hw, Option.getD_some,
      getLsbD_packWord _ _ (Nat.mod_lt _ (by omega)), List.getElem?_drop, e, if_pos h]
  · have hw : n ≤ j / 32 := by omega
    rw [if_pos (Nat.zero_le _), Nat.sub_zero, List.getElem?_eq_none (by simpa using hw), Option.getD_none, if_neg h]

/-- A word past the stored ones is as before (R174). -/
theorem read_writeFrom_packWords (m : Memory 32) (n : Nat) (bs : Bits) (w : Nat) (h : n ≤ w) :
    (m.writeFrom 0 (packWords n bs)).read w = m.read w := by
  rw [Memory.read_writeFrom, if_pos (Nat.zero_le _), Nat.sub_zero, List.getElem?_eq_none (by simpa using h),
    Option.getD_none]

@[simp] theorem bitsIn_length (s : State) : (bitsIn s).length = s.bitLen.toNat := by simp [bitsIn]

@[simp] theorem bytesIn_length (s : State) : (bytesIn s).length = s.inLen.toNat := by simp [bytesIn]

theorem map_range_getD (bs : Bits) : (List.range bs.length).map (fun j => (bs[j]?).getD false) = bs := by
  apply List.ext_getElem (by simp)
  intro i h1 h2
  simp [List.getElem?_eq_getElem h2]

end Sys2Proof.Machine
end

