-- ==== Sys2Proof/Laws/Decode.lean ====
section
/-! SUPPORT. What DECODE's walk answers: over the paths of a tree of at least two leaves, over a one-leaf tree, and the shape of
its failures (R190 to R194). -/

namespace Sys2Proof.Machine

theorem childOf_internal {nodes : List Node} {n l r : Nat} (h : InternalAt nodes n l r) (b : Bool) :
    childOf nodes n b = if b then r else l := by
  obtain ⟨f, hf⟩ := h.nodeAt
  simp [childOf, hf]

/-- One bit that leads to an internal node. -/
theorem walkBit_internal {t : WalkTree} (h1 : t.leafCount ≠ 1) (i : Nat) (w : Walk) (b : Bool) {l r l' r' : Nat}
    (hi : InternalAt t.nodes w.node l r) (hc : InternalAt t.nodes (if b then r else l) l' r') :
    walkBit t i w b = .ok { w with node := if b then r else l } := by
  obtain ⟨f, hf⟩ := hc.nodeAt
  simp [walkBit, h1, childOf_internal hi, hf]

/-- One bit that leads to a leaf. -/
theorem walkBit_leaf {t : WalkTree} (h1 : t.leafCount ≠ 1) (i : Nat) (w : Walk) (b : Bool) {l r : Nat} {c : Byte}
    (hi : InternalAt t.nodes w.node l r) (hc : LeafAt t.nodes (if b then r else l) c) :
    walkBit t i w b = emit t c i w.out := by
  obtain ⟨f, hf⟩ := hc.nodeAt
  simp [walkBit, h1, childOf_internal hi, hf]

/-- The walk along a path to a leaf, from any node on the way: the symbol is emitted at the path's last bit (R191). -/
theorem walkBits_path {t : WalkTree} {M : Nat} (ok : ArenaOk t.nodes M) (h1 : t.leafCount ≠ 1) (i : Nat) (w : Walk)
    (p rest : Bits) (hp : p ≠ []) {m : Nat} {c : Byte} (h : IsPath t.nodes w.node p m) (hm : LeafAt t.nodes m c) :
    walkBits t i w (p ++ rest) =
      match emit t c (i + p.length - 1) w.out with
      | .error f => .error f
      | .ok w' => walkBits t (i + p.length) w' rest := by
  induction p generalizing i w with
  | nil => exact absurd rfl hp
  | cons b p ih =>
    obtain ⟨l, r, hi, h'⟩ := h.cons_inv
    have hr := ok.internal_ge hi
    by_cases hnil : p = []
    · subst hnil
      obtain rfl := h'.nil_eq
      simp only [List.cons_append, List.nil_append, walkBits, walkBit_leaf h1 i w b hi hm, List.length_singleton]
      rfl
    · obtain ⟨l', r', hi'⟩ : ∃ l' r', InternalAt t.nodes (if b then r else l) l' r' := by
        obtain ⟨b', p', rfl⟩ := List.exists_cons_of_ne_nil hnil
        obtain ⟨l', r', hi', -⟩ := h'.cons_inv
        exact ⟨l', r', hi'⟩
      have hstep : walkBits t i w (b :: p ++ rest) =
          walkBits t (i + 1) { w with node := if b then r else l } (p ++ rest) := by
        rw [List.cons_append, walkBits, walkBit_internal h1 i w b hi hi']
      rw [hstep, ih (i + 1) { w with node := if b then r else l } hnil h', List.length_cons,
        show i + 1 + p.length = i + (p.length + 1) by omega]

/-- The walk along a path to an internal node: nothing is emitted. -/
theorem walkBits_part {t : WalkTree} (h1 : t.leafCount ≠ 1) (i : Nat) (w : Walk) (p : Bits) {m l r : Nat}
    (h : IsPath t.nodes w.node p m) (hm : InternalAt t.nodes m l r) :
    walkBits t i w p = .ok { w with node := m } := by
  induction p generalizing i w with
  | nil =>
    obtain rfl := h.nil_eq
    rfl
  | cons b p ih =>
    obtain ⟨l0, r0, hi, h'⟩ := h.cons_inv
    have hc : ∃ l' r', InternalAt t.nodes (if b then r0 else l0) l' r' := by
      cases p with
      | nil => exact ⟨l, r, h'.nil_eq ▸ hm⟩
      | cons b' p' =>
        obtain ⟨l', r', hi', -⟩ := h'.cons_inv
        exact ⟨l', r', hi'⟩
    obtain ⟨l', r', hi'⟩ := hc
    simp only [walkBits, walkBit_internal h1 i w b hi hi']
    exact ih (i + 1) { w with node := if b then r0 else l0 } h'

/-- The walk from the root over the paths of some symbols that fit the output. -/
theorem walkBits_codes {t : WalkTree} {M : Nat} (ok : ArenaOk t.nodes M) (hM : 2 ≤ M) (hroot : t.root = 2 * M - 2)
    (h1 : t.leafCount ≠ 1) (i : Nat) (out : List Byte) (qs : List (Byte × Bits)) (rest : Bits)
    (hq : ∀ q ∈ qs, ∃ n, LeafAt t.nodes n q.1 ∧ IsPath t.nodes t.root q.2 n) (hl : out.length + qs.length ≤ t.outCap) :
    walkBits t i { node := t.root, out := out } (qs.flatMap (fun q => q.2) ++ rest) =
      walkBits t (i + (qs.flatMap fun q => q.2).length) { node := t.root, out := out ++ qs.map fun q => q.1 } rest := by
  induction qs generalizing i out with
  | nil => simp
  | cons q qs ih =>
    obtain ⟨n, hn, hp⟩ := hq q (by simp)
    have hne : q.2 ≠ [] := ok.leaf_path_ne_nil hM hn (hroot ▸ hp)
    simp only [List.length_cons] at hl
    rw [List.flatMap_cons, List.append_assoc,
      walkBits_path ok h1 i { node := t.root, out := out } q.2 _ hne hp hn]
    simp only [emit, show out.length ≠ t.outCap by omega, if_false]
    rw [ih _ _ (fun x hx => hq x (by simp [hx])) (by simp; omega)]
    simp only [List.map_cons, List.append_assoc, List.singleton_append, List.length_append]
    congr 1
    omega

/-- The walk of a one-leaf tree over 0 bits that fit the output (R194). -/
theorem walkBits_zeros {t : WalkTree} (h1 : t.leafCount = 1) (i : Nat) (out : List Byte) (n : Nat) (rest : Bits)
    (hl : out.length + n ≤ t.outCap) :
    walkBits t i { node := t.root, out := out } (List.replicate n false ++ rest) =
      walkBits t (i + n) { node := t.root, out := out ++ List.replicate n (symOf t.nodes t.root) } rest := by
  induction n generalizing i out with
  | zero => simp
  | succ n ih =>
    rw [List.replicate_succ, List.cons_append, walkBits]
    simp only [walkBit, h1, if_true, Bool.false_eq_true, if_false, emit, show out.length ≠ t.outCap by omega]
    rw [ih _ _ (by simp; omega)]
    simp only [List.append_assoc, List.singleton_append, ← List.replicate_succ]
    congr 1
    omega

/-! ### The shape of every answer -/

theorem walkBit_shape (t : WalkTree) (i : Nat) (w : Walk) (b : Bool) (hw : w.out.length ≤ t.outCap) :
    (∃ w', walkBit t i w b = .ok w' ∧ w'.out.length ≤ t.outCap ∧ w'.out.length ≤ w.out.length + 1) ∨
    ∃ f, walkBit t i w b = .error f ∧ (f.code = .framing ∨ f.code = .capacity) := by
  have hemit : ∀ c, (∃ w', emit t c i w.out = .ok w' ∧ w'.out.length ≤ t.outCap ∧ w'.out.length ≤ w.out.length + 1) ∨
      ∃ f, emit t c i w.out = .error f ∧ (f.code = .framing ∨ f.code = .capacity) := by
    intro c
    unfold emit
    split_ifs with h
    · exact .inr ⟨_, rfl, .inr rfl⟩
    · exact .inl ⟨_, rfl, by simp; omega, by simp⟩
  unfold walkBit
  split_ifs with h1 h2
  · exact .inr ⟨_, rfl, .inl rfl⟩
  · exact hemit _
  · split
    · exact hemit _
    · exact .inl ⟨_, rfl, hw, by simp⟩

theorem walkBits_shape (t : WalkTree) (i : Nat) (w : Walk) (bits : Bits) (hw : w.out.length ≤ t.outCap) :
    (∃ w', walkBits t i w bits = .ok w' ∧ w'.out.length ≤ t.outCap ∧ w'.out.length ≤ w.out.length + bits.length) ∨
    ∃ f, walkBits t i w bits = .error f ∧ (f.code = .framing ∨ f.code = .capacity) := by
  induction bits generalizing i w with
  | nil => exact .inl ⟨w, rfl, hw, by simp⟩
  | cons b bits ih =>
    rcases walkBit_shape t i w b hw with ⟨w', h1, h2, h3⟩ | ⟨f, h1, h2⟩
    · rcases ih (i + 1) w' h2 with ⟨w'', h4, h5, h6⟩ | ⟨f, h4, h5⟩
      · exact .inl ⟨w'', by simp [walkBits, h1, h4], h5, by simp; omega⟩
      · exact .inr ⟨f, by simp [walkBits, h1, h4], h5⟩
    · exact .inr ⟨f, by simp [walkBits, h1], h2⟩

theorem decodeWalk_shape (t : WalkTree) (bits : Bits) :
    (∃ out, decodeWalk t bits = .ok out ∧ out.length ≤ t.outCap ∧ out.length ≤ bits.length) ∨
    ∃ f, decodeWalk t bits = .error f ∧ (f.code = .framing ∨ f.code = .capacity) := by
  unfold decodeWalk
  rcases walkBits_shape t 0 { node := t.root, out := [] } bits (Nat.zero_le _) with ⟨w, h1, h2, h3⟩ | ⟨f, h1, h2⟩
  · rw [h1]
    by_cases h : w.node = t.root
    · exact .inl ⟨w.out, by simp [h], h2, by simpa using h3⟩
    · exact .inr ⟨{ code := .framing, info := bits.length, sym := 0 }, by simp [h], .inl rfl⟩
  · exact .inr ⟨f, by rw [h1], h2⟩

/-- The cases of the body of DECODE, in the order of R192. -/
theorem decodeBody_cases (s : State) :
    (s.treeValid = false ∧ decodeBody s = ({ s with outLen := 0 }, .raise .emptyTree 0 0)) ∨
    (s.treeValid = true ∧ s.bitLen.toNat > s.params.bitCap ∧
      decodeBody s = ({ s with outLen := 0 }, .raise .length s.bitLen 0)) ∨
    (s.treeValid = true ∧ s.bitLen.toNat ≤ s.params.bitCap ∧ s.bitLen = 0 ∧
      decodeBody s = ({ s with outLen := 0 }, .raise .framing 0 0)) ∨
    (s.treeValid = true ∧ s.bitLen.toNat ≤ s.params.bitCap ∧ s.bitLen ≠ 0 ∧ ∃ f,
      (f.code = .framing ∨ f.code = .capacity) ∧ decodeWalk s.walkTree (bitsIn s) = .error f ∧
      decodeBody s = ({ s with outLen := 0, outBuf := Memory.unspecified 8 s.draws, draws := s.draws + 1 },
        .raise f.code (BitVec.ofNat 32 f.info) f.sym)) ∨
    (s.treeValid = true ∧ s.bitLen.toNat ≤ s.params.bitCap ∧ s.bitLen ≠ 0 ∧ ∃ out,
      out.length ≤ s.params.outCap ∧ out.length ≤ s.bitLen.toNat ∧ decodeWalk s.walkTree (bitsIn s) = .ok out ∧
      decodeBody s = ({ s with outBuf := s.outBuf.writeFrom 0 out, outLen := BitVec.ofNat 32 out.length }, .complete)) := by
  unfold decodeBody
  by_cases h1 : s.treeValid = false
  · exact .inl ⟨h1, by rw [if_pos h1]⟩
  have h1' : s.treeValid = true := by simpa using h1
  by_cases h2 : s.bitLen.toNat > s.params.bitCap
  · exact .inr (.inl ⟨h1', h2, by rw [if_neg h1, if_pos h2]⟩)
  by_cases h3 : s.bitLen = 0
  · exact .inr (.inr (.inl ⟨h1', by omega, h3, by rw [if_neg h1, if_neg h2, if_pos h3]⟩))
  rw [if_neg h1, if_neg h2, if_neg h3]
  rcases decodeWalk_shape s.walkTree (bitsIn s) with ⟨out, h4, h5, h6⟩ | ⟨f, h4, h5⟩
  · exact .inr (.inr (.inr (.inr ⟨h1', by omega, h3, out, h5, by simpa using h6, h4, by rw [h4]⟩)))
  · exact .inr (.inr (.inr (.inl ⟨h1', by omega, h3, f, h5, h4, by rw [h4]⟩)))

end Sys2Proof.Machine
end

