-- ==== Sys2Proof/Laws/Derive.lean ====
section
/-! SUPPORT. What DERIVE's traversal makes of a tree of R44: the table of R151 and R153. -/

namespace Sys2Proof.Machine

/-- A node of an arena is a leaf or an internal node. -/
theorem ArenaOk.cases_node {nodes : List Node} {M : Nat} (ok : ArenaOk nodes M) {n : Nat} (hn : n < 2 * M - 1) :
    (∃ c, LeafAt nodes n c) ∨ ∃ l r, InternalAt nodes n l r ∧ l < n ∧ r < n ∧ l ≠ r := by
  by_cases h : n < M
  · exact .inl (ok.leaf n h)
  · exact .inr (ok.internal n (by omega) hn)

/-- `visit(n, path)` records `path ++ p` for every leaf that `p` leads to from `n`, and leaves every other symbol's entry. -/
theorem visit_spec {nodes : List Node} {M : Nat} (ok : ArenaOk nodes M) (depth n : Nat) (path : Bits)
    (table : Vector Bits 256) (hn : n < 2 * M - 1) (hd : n < depth) (c : Byte) :
    (∀ m p, IsPath nodes n p m → LeafAt nodes m c → lookSym (visit nodes depth n path table) c = path ++ p) ∧
    ((∀ m p, IsPath nodes n p m → ¬ LeafAt nodes m c) →
      lookSym (visit nodes depth n path table) c = lookSym table c) := by
  induction depth generalizing n path table with
  | zero => omega
  | succ depth ih =>
    rcases ok.cases_node hn with ⟨s, hs⟩ | ⟨l, r, hi, hl, hr, -⟩
    · obtain ⟨f, hf⟩ := hs.nodeAt
      simp only [visit, hf]
      constructor
      · intro m p hp hm
        obtain ⟨rfl, rfl⟩ := hs.path_nil hp
        obtain rfl := hs.sym_inj hm
        simp
      · intro h
        refine lookSym_putSym_ne _ _ ?_
        rintro rfl
        exact h n [] .root hs
    · obtain ⟨f, hf⟩ := hi.nodeAt
      simp only [visit, hf]
      have ihl := ih l (path ++ [false]) table (by omega) (by omega)
      have ihr := ih r (path ++ [true]) (visit nodes depth l (path ++ [false]) table) (by omega) (by omega)
      constructor
      · intro m p hp hm
        cases p with
        | nil =>
          obtain rfl := hp.nil_eq
          exact absurd hi hm.not_internal
        | cons b p =>
          obtain ⟨l', r', hi', hp'⟩ := hp.cons_inv
          obtain ⟨rfl, rfl⟩ := hi.inj hi'
          cases b
          · rw [ihr.2, ihl.1 m p hp' hm]
            · simp
            · intro m' q hq hm'
              obtain rfl := ok.leaf_inj hm hm'
              have := ok.path_unique hp (IsPath.cons hi true hq)
              simp at this
          · rw [ihr.1 m p hp' hm]
            simp
      · intro h
        rw [ihr.2, ihl.2]
        · exact fun m p hp => h m (false :: p) (IsPath.cons hi false hp)
        · exact fun m p hp => h m (true :: p) (IsPath.cons hi true hp)

/-- The table DERIVE makes of an arena of R44 is the table of R151 and R153. -/
theorem tableOf_ok {nodes : List Node} {M : Nat} (ok : ArenaOk nodes M) :
    TableOk nodes M (2 * M - 2) (tableOf nodes M (2 * M - 1) (2 * M - 2)) := by
  have hM := ok.leaves_pos
  by_cases h1 : M = 1
  · subst h1
    obtain ⟨c, hc⟩ := ok.leaf 0 (by omega)
    obtain ⟨f, hf⟩ := hc.nodeAt
    have hsym : symOf nodes 0 = c := by simp [symOf, hf]
    refine ⟨fun _ n d hd => ?_, fun h => absurd rfl h, fun d hd => ?_⟩
    · obtain rfl : n = 0 := by have := ok.leaf_lt hd; omega
      obtain rfl := hc.sym_inj hd
      simp [tableOf, hsym]
    · have : c ≠ d := fun e => hd 0 (e ▸ hc)
      simp [tableOf, hsym, lookSym_putSym_ne _ _ this]
  · have key := visit_spec ok (2 * M - 1) (2 * M - 2) [] emptyTable (by omega) (by omega)
    refine ⟨fun h => absurd h h1, fun _ n c hc => ?_, fun c hc => ?_⟩
    · obtain ⟨p, hp⟩ := ok.exists_path n (by have := ok.leaf_lt hc; omega)
      have := (key c).1 n p hp hc
      simp only [List.nil_append] at this
      simpa [tableOf, h1, this] using hp
    · have := (key c).2 (fun m p _ => hc m)
      simpa [tableOf, h1] using this

/-! ### What a table of R151 and R153 is worth -/

theorem TableOk.ne_nil {nodes : List Node} {M : Nat} {code : Vector Bits 256} (ok : ArenaOk nodes M)
    (tab : TableOk nodes M (2 * M - 2) code) {n : Nat} {c : Byte} (h : LeafAt nodes n c) : lookSym code c ≠ [] := by
  by_cases h1 : M = 1
  · simp [tab.one h1 n c h]
  · have := ok.leaves_pos
    exact ok.leaf_path_ne_nil (by omega) h (tab.path h1 n c h)

/-- "CODE[s] ≠ [] exactly for the symbols of the current tree's leaves" (R37, R152). -/
theorem TableOk.ne_nil_iff {nodes : List Node} {M : Nat} {code : Vector Bits 256} (ok : ArenaOk nodes M)
    (tab : TableOk nodes M (2 * M - 2) code) (c : Byte) : lookSym code c ≠ [] ↔ ∃ n, LeafAt nodes n c := by
  constructor
  · intro h
    by_contra hno
    exact h (tab.absent c fun n hn => hno ⟨n, hn⟩)
  · rintro ⟨n, hn⟩
    exact tab.ne_nil ok hn

theorem TableOk.length_bounds {nodes : List Node} {M : Nat} {code : Vector Bits 256} (ok : ArenaOk nodes M)
    (tab : TableOk nodes M (2 * M - 2) code) {c : Byte} (h : lookSym code c ≠ []) :
    1 ≤ (lookSym code c).length ∧ (lookSym code c).length ≤ if M = 1 then 1 else M - 1 := by
  obtain ⟨n, hn⟩ := (tab.ne_nil_iff ok c).1 h
  refine ⟨List.length_pos_iff.2 h, ?_⟩
  have := ok.leaves_pos
  split_ifs with h1
  · simp [tab.one h1 n c hn]
  · exact ok.leaf_path_length (by omega) hn (tab.path h1 n c hn)

theorem TableOk.length_le {nodes : List Node} {M : Nat} {code : Vector Bits 256} (ok : ArenaOk nodes M)
    (tab : TableOk nodes M (2 * M - 2) code) (c : Byte) : (lookSym code c).length ≤ 255 := by
  by_cases h : lookSym code c = []
  · simp [h]
  · have h1 := (tab.length_bounds ok h).2
    have := ok.leaves_le
    split_ifs at h1 <;> omega

end Sys2Proof.Machine
end

