-- ==== Sys2Proof/Laws/Encode.lean ====
section
/-! SUPPORT. What ENCODE's serialising loop answers: the output when every symbol has a code and all fit, and otherwise the first
failure (R171, R172). -/

namespace Sys2Proof.Machine

@[simp] theorem codesOf_nil (code : Vector Bits 256) : codesOf code [] = [] := rfl

@[simp] theorem codesOf_cons (code : Vector Bits 256) (c : Byte) (cs : List Byte) :
    codesOf code (c :: cs) = lookSym code c ++ codesOf code cs := by simp [codesOf]

theorem codesOf_append (code : Vector Bits 256) (cs ds : List Byte) :
    codesOf code (cs ++ ds) = codesOf code cs ++ codesOf code ds := by simp [codesOf]

/-- The loop past symbols that have codes and fit. -/
theorem serialise_append (code : Vector Bits 256) (cap i : Nat) (out : Bits) (cs rest : List Byte)
    (hc : ∀ c ∈ cs, lookSym code c ≠ []) (hl : (out ++ codesOf code cs).length ≤ cap) :
    serialise code cap i out (cs ++ rest) = serialise code cap (i + cs.length) (out ++ codesOf code cs) rest := by
  induction cs generalizing i out with
  | nil => simp
  | cons c cs ih =>
    have h1 : lookSym code c ≠ [] := hc c (by simp)
    simp only [codesOf_cons, List.length_append] at hl
    rw [List.cons_append, serialise, if_neg h1, if_neg (by omega), ih (i + 1) _ (fun d hd => hc d (by simp [hd]))
      (by simp only [List.length_append]; omega)]
    simp only [codesOf_cons, List.append_assoc, List.length_cons]
    congr 1
    omega

/-- Success (R171): the concatenation of the codes in input order. -/
theorem serialise_ok (code : Vector Bits 256) (cap : Nat) (cs : List Byte) (hc : ∀ c ∈ cs, lookSym code c ≠ [])
    (hl : (codesOf code cs).length ≤ cap) : serialise code cap 0 [] cs = .ok (codesOf code cs) := by
  have := serialise_append code cap 0 [] cs [] hc (by simpa using hl)
  simpa [serialise] using this

/-- What the loop answers: on success the codes were all there and fit; on failure an error of R172 items 3 and 4. -/
theorem serialise_cases (code : Vector Bits 256) (cap i : Nat) (out : Bits) (cs : List Byte) (hout : out.length ≤ cap) :
    (serialise code cap i out cs = .ok (out ++ codesOf code cs) ∧ (∀ c ∈ cs, lookSym code c ≠ []) ∧
      (out ++ codesOf code cs).length ≤ cap) ∨
    ∃ f, serialise code cap i out cs = .error f ∧ (f.code = .missingSymbol ∨ f.code = .capacity) := by
  induction cs generalizing i out with
  | nil => exact .inl ⟨by simp [serialise], by simp, by simpa using hout⟩
  | cons c cs ih =>
    rw [serialise]
    split_ifs with h1 h2
    · exact .inr ⟨_, rfl, .inl rfl⟩
    · exact .inr ⟨_, rfl, .inr rfl⟩
    · rcases ih (i + 1) (out ++ lookSym code c) (by simp; omega) with ⟨h3, h4, h5⟩ | ⟨f, h3, h4⟩
      · refine .inl ⟨by rw [h3]; simp, ?_, by simpa [Nat.add_assoc] using h5⟩
        intro d hd
        rcases List.mem_cons.1 hd with rfl | hd
        · exact h1
        · exact h4 d hd
      · exact .inr ⟨f, h3, h4⟩

/-- The cases of the body of ENCODE, in the order of R172. -/
theorem encodeBody_cases (s : State) :
    (s.inLen.toNat > s.params.inCap ∧ encodeBody s = ({ s with bitLen := 0 }, .raise .length s.inLen 0)) ∨
    (s.inLen.toNat ≤ s.params.inCap ∧ s.inLen = 0 ∧ encodeBody s = ({ s with bitLen := 0 }, .raise .emptyInput 0 0)) ∨
    (s.inLen.toNat ≤ s.params.inCap ∧ s.inLen ≠ 0 ∧ ∃ f,
      (f.code = .missingSymbol ∨ f.code = .capacity) ∧ serialise s.code s.params.bitCap 0 [] (bytesIn s) = .error f ∧
      encodeBody s = ({ s with bitLen := 0, bitBuf := Memory.unspecified 32 s.draws, draws := s.draws + 1 },
        .raise f.code (BitVec.ofNat 32 f.info) f.sym)) ∨
    (s.inLen.toNat ≤ s.params.inCap ∧ s.inLen ≠ 0 ∧ (∀ c ∈ bytesIn s, lookSym s.code c ≠ []) ∧
      (codesOf s.code (bytesIn s)).length ≤ s.params.bitCap ∧
      encodeBody s = ({ s with
        bitBuf := s.bitBuf.writeFrom 0
          (packWords (wordsFor (codesOf s.code (bytesIn s)).length) (codesOf s.code (bytesIn s)))
        bitLen := BitVec.ofNat 32 (codesOf s.code (bytesIn s)).length }, .complete)) := by
  unfold encodeBody
  by_cases h1 : s.inLen.toNat > s.params.inCap
  · exact .inl ⟨h1, by rw [if_pos h1]⟩
  by_cases h2 : s.inLen = 0
  · exact .inr (.inl ⟨by omega, h2, by rw [if_neg h1, if_pos h2]⟩)
  rw [if_neg h1, if_neg h2]
  rcases serialise_cases s.code s.params.bitCap 0 [] (bytesIn s) (Nat.zero_le _) with ⟨h3, h4, h5⟩ | ⟨f, h3, h4⟩
  · simp only [List.nil_append] at h3 h5
    exact .inr (.inr (.inr ⟨by omega, h2, h4, h5, by rw [h3]⟩))
  · exact .inr (.inr (.inl ⟨by omega, h2, f, h4, h3, by rw [h3]⟩))

end Sys2Proof.Machine
end

