-- ==== Sys2Proof/Laws/Merge.lean ====
section
/-! SUPPORT. What BUILD's merging makes of the leaves: the arena of R44, and the greedy choice of R132 and R133 at every merge. -/

namespace Sys2Proof.Machine

/-! ### The least member of the pool -/

theorem removeLeast_eq_none {ks : List Key} : removeLeast ks = none ↔ ks = [] := by
  cases ks with
  | nil => simp [removeLeast]
  | cons k ks =>
    simp only [removeLeast]
    split
    · simp
    · split_ifs <;> simp

theorem Key.not_less_trans {a b c : Key} (h1 : ¬ a.less b) (h2 : ¬ b.less c) : ¬ a.less c := by
  unfold Key.less at *; omega

/-- `removeLeast` takes out one member, and no other member has a smaller key (R132). -/
theorem removeLeast_some {ks rest : List Key} {m : Key} (h : removeLeast ks = some (m, rest)) :
    ks.Perm (m :: rest) ∧ ∀ k ∈ rest, ¬ k.less m := by
  induction ks generalizing m rest with
  | nil => simp [removeLeast] at h
  | cons k ks ih =>
    simp only [removeLeast] at h
    split at h
    · rename_i hn
      obtain rfl := removeLeast_eq_none.1 hn
      simp only [Option.some.injEq, Prod.mk.injEq] at h
      obtain ⟨rfl, rfl⟩ := h
      simp
    · rename_i m' rest' hs
      obtain ⟨hp, hl⟩ := ih hs
      split_ifs at h with hk
      · simp only [Option.some.injEq, Prod.mk.injEq] at h
        obtain ⟨rfl, rfl⟩ := h
        refine ⟨(hp.cons k).trans (.swap _ _ _), ?_⟩
        intro x hx
        rcases List.mem_cons.1 hx with rfl | hx
        · unfold Key.less at *; omega
        · exact hl x hx
      · simp only [Option.some.injEq, Prod.mk.injEq] at h
        obtain ⟨rfl, rfl⟩ := h
        refine ⟨.refl _, ?_⟩
        intro x hx
        rcases List.mem_cons.1 (hp.subset hx) with rfl | hx
        · exact hk
        · exact Key.not_less_trans (hl x hx) hk

/-! ### One more record -/

section Append

variable {arena : List Node} {nd : Node} {l r : Nat} {f : Word}

theorem internalAt_append {n l' r' : Nat} :
    InternalAt (arena ++ [.internal l r f]) n l' r' ↔
      InternalAt arena n l' r' ∨ (n = arena.length ∧ l' = l ∧ r' = r) := by
  unfold InternalAt
  rcases Nat.lt_trichotomy n arena.length with h | h | h
  · simp [List.getElem?_append_left h, show n ≠ arena.length by omega]
  · subst h
    simp only [List.getElem?_concat_length, Option.some.injEq, Node.internal.injEq, true_and]
    constructor
    · rintro ⟨g, rfl, rfl, -⟩; exact .inr ⟨rfl, rfl⟩
    · rintro (⟨g, hg⟩ | ⟨rfl, rfl⟩)
      · rw [List.getElem?_eq_none (Nat.le_refl _)] at hg; simp at hg
      · exact ⟨f, rfl, rfl, rfl⟩
  · have h1 : (arena ++ [Node.internal l r f])[n]? = none := List.getElem?_eq_none (by simp; omega)
    have h2 : arena[n]? = none := List.getElem?_eq_none (by omega)
    simp [h1, h2, show n ≠ arena.length by omega]

theorem childOf_append {z p : Nat} :
    ChildOf (arena ++ [.internal l r f]) z p ↔ ChildOf arena z p ∨ (p = arena.length ∧ (z = l ∨ z = r)) := by
  unfold ChildOf
  simp only [internalAt_append]
  constructor
  · rintro ⟨l', r', h | ⟨rfl, rfl, rfl⟩, hz⟩
    · exact .inl ⟨l', r', h, hz⟩
    · exact .inr ⟨rfl, hz⟩
  · rintro (⟨l', r', h, hz⟩ | ⟨rfl, hz⟩)
    · exact ⟨l', r', .inl h, hz⟩
    · exact ⟨l, r, .inr ⟨rfl, rfl, rfl⟩, hz⟩

theorem freqAt_append_lt {n : Nat} (h : n < arena.length) : freqAt (arena ++ [nd]) n = freqAt arena n := by
  simp [freqAt, List.getElem?_append_left h]

theorem freqAt_append_self : freqAt (arena ++ [nd]) arena.length = nd.freq.toNat := by
  simp [freqAt]

theorem keyLess_append {a b : Nat} (ha : a < arena.length) (hb : b < arena.length) :
    KeyLess (arena ++ [nd]) a b ↔ KeyLess arena a b := by
  simp [KeyLess, freqAt_append_lt ha, freqAt_append_lt hb]

theorem inPool_append {n z : Nat} (h : n ≤ arena.length) :
    InPool (arena ++ [.internal l r f]) n z ↔ InPool arena n z := by
  unfold InPool
  simp only [childOf_append, not_or]
  constructor
  · rintro ⟨h1, h2⟩; exact ⟨h1, fun p hp => (h2 p hp).1⟩
  · rintro ⟨h1, h2⟩; exact ⟨h1, fun p hp => ⟨h2 p hp, fun hc => by omega⟩⟩

end Append

/-! ### The invariant of the merging -/

/-- What holds before and after every merge of R133: the pool is the nodes without a parent, with their keys, and every internal
node so far was a greedy choice. -/
structure MergeInv (leaves : List Node) (pool : List Key) (arena : List Node) : Prop where
  old : ∀ n, n < leaves.length → arena[n]? = leaves[n]?
  len : leaves.length ≤ arena.length
  count : arena.length + pool.length = 2 * leaves.length
  pool_lt : ∀ k ∈ pool, k.index < arena.length
  pool_freq : ∀ k ∈ pool, freqAt arena k.index = k.freq
  nodup : (pool.map Key.index).Nodup
  free : ∀ z, z < arena.length → ((∃ k ∈ pool, k.index = z) ↔ ∀ p, ¬ ChildOf arena z p)
  internal : ∀ n, leaves.length ≤ n → n < arena.length → ∃ l r, InternalAt arena n l r ∧ l < n ∧ r < n ∧ l ≠ r
  freq_add : ∀ n l r, InternalAt arena n l r → freqAt arena n = freqAt arena l + freqAt arena r
  parent : ∀ z p q, ChildOf arena z p → ChildOf arena z q → p = q
  greedy : ∀ n l r, InternalAt arena n l r →
    InPool arena n l ∧ InPool arena n r ∧ KeyLess arena r l ∧
    ∀ z, InPool arena n z → z ≠ l → z ≠ r → KeyLess arena l z
  sum : (pool.map Key.freq).sum = totalOf leaves
  fits : totalOf leaves ≤ 2 ^ 32 - 1

theorem MergeInv.keyLess {leaves arena : List Node} {pool : List Key} (inv : MergeInv leaves pool arena) {a b : Key}
    (ha : a ∈ pool) (hb : b ∈ pool) (hne : a.index ≠ b.index) (h : ¬ b.less a) : KeyLess arena a.index b.index := by
  unfold KeyLess
  rw [inv.pool_freq a ha, inv.pool_freq b hb]
  unfold Key.less at h
  omega

/-- A pool member is in the pool, in the sense of the arena. -/
theorem MergeInv.inPool {leaves arena : List Node} {pool : List Key} (inv : MergeInv leaves pool arena) {a : Key}
    (ha : a ∈ pool) : InPool arena arena.length a.index :=
  ⟨inv.pool_lt a ha, fun p _ => (inv.free a.index (inv.pool_lt a ha)).1 ⟨a, ha, rfl⟩ p⟩

/-- One merge keeps the invariant (R133). -/
theorem MergeInv.merge {leaves arena : List Node} {pool rest others : List Key} {x y : Key}
    (inv : MergeInv leaves pool arena) (hx : removeLeast pool = some (x, rest)) (hy : removeLeast rest = some (y, others)) :
    MergeInv leaves (others ++ [{ freq := x.freq + y.freq, index := arena.length }]) (arena ++ [mergedNode x y]) := by
  obtain ⟨px, lx⟩ := removeLeast_some hx
  obtain ⟨py, ly⟩ := removeLeast_some hy
  have perm : pool.Perm (x :: y :: others) := px.trans (py.cons x)
  have mx : x ∈ pool := perm.mem_iff.2 (by simp)
  have my : y ∈ pool := perm.mem_iff.2 (by simp)
  have mo : ∀ k ∈ others, k ∈ pool := fun k hk => perm.mem_iff.2 (by simp [hk])
  have nd := (perm.map Key.index).nodup_iff.1 inv.nodup
  simp only [List.map_cons, List.nodup_cons, List.mem_cons, not_or, List.mem_map, not_exists, not_and] at nd
  obtain ⟨⟨hxy, hxo⟩, hyo, ndo⟩ := nd
  have lenp : pool.length = others.length + 2 := by simpa using perm.length_eq
  have hsum : x.freq + (y.freq + (others.map Key.freq).sum) = totalOf leaves := by
    rw [← inv.sum, (perm.map Key.freq).sum_eq]; simp
  have hfit := inv.fits
  have hmod : (x.freq + y.freq) % 2 ^ 32 = x.freq + y.freq := Nat.mod_eq_of_lt (by omega)
  have xlt := inv.pool_lt x mx
  have ylt := inv.pool_lt y my
  have kxy : KeyLess arena x.index y.index := inv.keyLess mx my hxy (lx y (py.mem_iff.2 (by simp)))
  have selfFreq : freqAt (arena ++ [mergedNode x y]) arena.length = x.freq + y.freq := by
    rw [freqAt_append_self]
    simpa [mergedNode, Node.freq] using hmod
  have childs : ∀ z p, ChildOf (arena ++ [mergedNode x y]) z p ↔
      ChildOf arena z p ∨ (p = arena.length ∧ (z = y.index ∨ z = x.index)) := fun z p => childOf_append
  have ints : ∀ n l r, InternalAt (arena ++ [mergedNode x y]) n l r ↔
      InternalAt arena n l r ∨ (n = arena.length ∧ l = y.index ∧ r = x.index) := fun n l r => internalAt_append
  have below : ∀ n l r, InternalAt arena n l r → n < arena.length ∧ l < n ∧ r < n := by
    intro n l r h
    have g := inv.greedy n l r h
    exact ⟨h.lt_length, g.1.1, g.2.1.1⟩
  have freeX := (inv.free x.index xlt).1 ⟨x, mx, rfl⟩
  have freeY := (inv.free y.index ylt).1 ⟨y, my, rfl⟩
  refine ⟨?_, ?_, ?_, ?_, ?_, ?_, ?_, ?_, ?_, ?_, ?_, ?_, inv.fits⟩
  · intro n hn
    rw [List.getElem?_append_left (by have := inv.len; omega), inv.old n hn]
  · have := inv.len; simp; omega
  · have := inv.count; simp; omega
  · intro k hk
    rcases List.mem_append.1 hk with hk | hk
    · have := inv.pool_lt k (mo k hk); simp; omega
    · obtain rfl := List.mem_singleton.1 hk; simp
  · intro k hk
    rcases List.mem_append.1 hk with hk | hk
    · rw [freqAt_append_lt (inv.pool_lt k (mo k hk)), inv.pool_freq k (mo k hk)]
    · obtain rfl := List.mem_singleton.1 hk; exact selfFreq
  · rw [List.map_append, List.nodup_append]
    refine ⟨ndo, by simp, ?_⟩
    intro a ha b hb
    obtain ⟨k, hk, rfl⟩ := List.mem_map.1 ha
    have := inv.pool_lt k (mo k hk)
    simp at hb
    omega
  · intro z hz
    simp only [List.length_append, List.length_singleton] at hz
    simp only [childs, not_or, not_and]
    constructor
    · rintro ⟨k, hk, rfl⟩ p
      rcases List.mem_append.1 hk with hk | hk
      · exact ⟨(inv.free _ (inv.pool_lt k (mo k hk))).1 ⟨k, mo k hk, rfl⟩ p, fun _ => ⟨hyo k hk, hxo k hk⟩⟩
      · obtain rfl := List.mem_singleton.1 hk
        refine ⟨?_, fun _ => ⟨by simp; omega, by simp; omega⟩⟩
        rintro ⟨l, r, hi, hc⟩
        have := below p l r hi
        simp at hc
        omega
    · intro h
      by_cases e : z = arena.length
      · exact ⟨_, List.mem_append_right _ (List.mem_singleton.2 rfl), e.symm⟩
      · obtain ⟨k, hk, rfl⟩ := (inv.free z (by omega)).2 (fun p => (h p).1)
        have h2 := (h arena.length).2 rfl
        rcases List.mem_cons.1 (perm.mem_iff.1 hk) with rfl | hk
        · exact absurd rfl h2.2
        · rcases List.mem_cons.1 hk with rfl | hk
          · exact absurd rfl h2.1
          · exact ⟨k, List.mem_append_left _ hk, rfl⟩
  · intro n h1 h2
    simp only [List.length_append, List.length_singleton] at h2
    by_cases e : n = arena.length
    · exact ⟨y.index, x.index, (ints _ _ _).2 (.inr ⟨e, rfl, rfl⟩), by omega, by omega, fun h => hxy h.symm⟩
    · obtain ⟨l, r, hi, h3⟩ := inv.internal n h1 (by omega)
      exact ⟨l, r, (ints _ _ _).2 (.inl hi), h3⟩
  · intro n l r h
    rcases (ints _ _ _).1 h with h | ⟨rfl, rfl, rfl⟩
    · have := below n l r h
      rw [freqAt_append_lt (by omega), freqAt_append_lt (by omega), freqAt_append_lt (by omega)]
      exact inv.freq_add n l r h
    · rw [selfFreq, freqAt_append_lt ylt, freqAt_append_lt xlt, inv.pool_freq x mx, inv.pool_freq y my, Nat.add_comm]
  · intro z p q hp hq
    rcases (childs _ _).1 hp with hp' | ⟨ep, hp'⟩
    · rcases (childs _ _).1 hq with hq' | ⟨-, rfl | rfl⟩
      · exact inv.parent z p q hp' hq'
      · exact absurd hp' (freeY p)
      · exact absurd hp' (freeX p)
    · rcases (childs _ _).1 hq with hq' | ⟨eq, -⟩
      · rcases hp' with rfl | rfl
        · exact absurd hq' (freeY q)
        · exact absurd hq' (freeX q)
      · rw [ep, eq]
  · intro n l r h
    rcases (ints _ _ _).1 h with h | ⟨rfl, rfl, rfl⟩
    · have hb := below n l r h
      have g := inv.greedy n l r h
      have hp : ∀ z, InPool (arena ++ [mergedNode x y]) n z ↔ InPool arena n z := fun z => inPool_append (by omega)
      refine ⟨(hp l).2 g.1, (hp r).2 g.2.1, (keyLess_append (by omega) (by omega)).2 g.2.2.1, ?_⟩
      intro z hz hl hr
      have hz := (hp z).1 hz
      exact (keyLess_append (by omega) (by have := hz.1; omega)).2 (g.2.2.2 z hz hl hr)
    · have hp : ∀ z, InPool (arena ++ [mergedNode x y]) arena.length z ↔ InPool arena arena.length z :=
        fun z => inPool_append (Nat.le_refl _)
      refine ⟨(hp _).2 (inv.inPool my), (hp _).2 (inv.inPool mx), (keyLess_append xlt ylt).2 kxy, ?_⟩
      intro z hz hl hr
      have hz := (hp z).1 hz
      have hfree : ∀ p, ¬ ChildOf arena z p := by
        intro p hc
        obtain ⟨l, r, hi, -⟩ := id hc
        exact hz.2 p hi.lt_length hc
      obtain ⟨k, hk, rfl⟩ := (inv.free z hz.1).2 hfree
      refine (keyLess_append ylt hz.1).2 (inv.keyLess my hk (fun e => hl e.symm) ?_)
      rcases List.mem_cons.1 (perm.mem_iff.1 hk) with rfl | hk
      · exact absurd rfl hr
      · rcases List.mem_cons.1 hk with rfl | hk
        · exact absurd rfl hl
        · exact ly k hk
  · simp only [List.map_append, List.map_cons, List.map_nil, List.sum_append, List.sum_cons, List.sum_nil]
    omega

/-- The merging ends with one node in the pool (R134). -/
theorem MergeInv.loop {leaves : List Node} (rounds : Nat) {arena : List Node} {pool : List Key}
    (inv : MergeInv leaves pool arena) (hne : pool ≠ []) (hr : pool.length ≤ rounds + 1) :
    ∃ k, MergeInv leaves [k] (mergeLoop rounds pool arena) := by
  induction rounds generalizing pool arena with
  | zero =>
    obtain ⟨k, rfl⟩ := List.length_eq_one_iff.1 (show pool.length = 1 by
      have := List.length_pos_iff.2 hne; omega)
    exact ⟨k, inv⟩
  | succ rounds ih =>
    simp only [mergeLoop]
    split
    · rename_i h
      exact absurd (removeLeast_eq_none.1 h) hne
    · rename_i x rest hx
      have px := (removeLeast_some hx).1
      split
      · rename_i h
        obtain rfl := removeLeast_eq_none.1 h
        exact ⟨x, (List.perm_singleton.1 px) ▸ inv⟩
      · rename_i y others hy
        have hl := (px.trans ((removeLeast_some hy).1.cons x)).length_eq
        simp only [List.length_cons] at hl
        exact ih (inv.merge hx hy) (by simp) (by simp; omega)

/-! ### The leaves (R131) -/

theorem leavesOf_eq (freq : Vector Word 256) :
    leavesOf freq = (present freq).map fun c => Node.leaf c (lookSym freq c) := by
  have aux : ∀ l : List Byte,
      (l.filterMap fun s => if lookSym freq s = 0 then none else some (Node.leaf s (lookSym freq s))) =
        (l.filter fun c => lookSym freq c != 0).map fun c => Node.leaf c (lookSym freq c) := by
    intro l
    induction l with
    | nil => rfl
    | cons a l ih =>
      by_cases h : lookSym freq a = 0#32
      · simpa [h] using ih
      · simpa [h] using ih
  exact aux symbols

@[simp] theorem leavesOf_length (freq : Vector Word 256) : (leavesOf freq).length = (present freq).length := by
  simp [leavesOf_eq]

theorem present_pairwise (freq : Vector Word 256) : (present freq).Pairwise fun a b => a.toNat < b.toNat :=
  symbols_pairwise.filter _

theorem present_length_le (freq : Vector Word 256) : (present freq).length ≤ 256 := by
  have := List.length_filter_le (fun c => lookSym freq c != 0) symbols
  simpa [present] using this

theorem mem_present {freq : Vector Word 256} {c : Byte} : c ∈ present freq ↔ lookSym freq c ≠ 0 := by
  simp [present]

/-- The present symbols, from their membership and their order. -/
theorem present_eq {freq : Vector Word 256} {l : List Byte} (sorted : l.Pairwise fun a b => a.toNat < b.toNat)
    (mem : ∀ c, lookSym freq c ≠ 0 ↔ c ∈ l) : present freq = l := by
  have nodup : ∀ {m : List Byte}, m.Pairwise (fun a b => a.toNat < b.toNat) → m.Nodup :=
    fun h => h.imp fun h e => by simp [e] at h
  refine List.Perm.eq_of_pairwise (fun a b _ _ h1 h2 => absurd h2 (by omega)) (present_pairwise freq) sorted ?_
  rw [List.perm_ext_iff_of_nodup (nodup (present_pairwise freq)) (nodup sorted)]
  exact fun c => mem_present.trans (mem c)

theorem totalOf_leavesOf (freq : Vector Word 256) : totalOf (leavesOf freq) = freqSum freq := by
  have aux : ∀ l : List Byte,
      (((l.filter fun c => lookSym freq c != 0).map fun c => Node.leaf c (lookSym freq c)).map fun n => n.freq.toNat).sum =
        (l.map fun c => (lookSym freq c).toNat).sum := by
    intro l
    induction l with
    | nil => rfl
    | cons a l ih =>
      by_cases h : lookSym freq a = 0#32
      · simpa [h] using ih
      · simpa [h, Node.freq] using ih
  rw [leavesOf_eq, totalOf, freqSum]
  exact aux symbols

/-- The pool of the leaves meets the invariant. -/
theorem MergeInv.start (freq : Vector Word 256) (fits : freqSum freq ≤ 2 ^ 32 - 1) :
    MergeInv (leavesOf freq) (startPool (leavesOf freq)) (leavesOf freq) := by
  have noInt : ∀ n l r, ¬ InternalAt (leavesOf freq) n l r := by
    rintro n l r ⟨f, hf⟩
    rw [leavesOf_eq, List.getElem?_map] at hf
    cases h : (present freq)[n]? <;> simp [h] at hf
  have noChild : ∀ z p, ¬ ChildOf (leavesOf freq) z p := fun z p ⟨l, r, hi, _⟩ => noInt p l r hi
  have mem : ∀ k, k ∈ startPool (leavesOf freq) ↔
      ∃ nd, (leavesOf freq)[k.index]? = some nd ∧ k.freq = nd.freq.toNat := by
    intro k
    simp only [startPool, List.mem_map, Prod.exists, List.mem_zipIdx_iff_getElem?]
    constructor
    · rintro ⟨nd, i, h, rfl⟩; exact ⟨nd, h, rfl⟩
    · rintro ⟨nd, h, e⟩; exact ⟨nd, k.index, h, by cases k; simp_all⟩
  have idx : (startPool (leavesOf freq)).map Key.index = List.range (leavesOf freq).length := by
    simp only [startPool, List.map_map]
    rw [show (Key.index ∘ fun p : Node × Nat => ({ freq := p.1.freq.toNat, index := p.2 } : Key)) = Prod.snd from rfl]
    rw [List.zipIdx_map_snd, List.range_eq_range']
  have len : (startPool (leavesOf freq)).length = (leavesOf freq).length := by simp [startPool]
  refine ⟨fun _ _ => rfl, Nat.le_refl _, by omega, ?_, ?_, ?_, ?_, ?_, ?_, ?_, ?_, ?_, ?_⟩
  · intro k hk
    obtain ⟨nd, h, -⟩ := (mem k).1 hk
    exact (List.getElem?_eq_some_iff.1 h).1
  · intro k hk
    obtain ⟨nd, h, e⟩ := (mem k).1 hk
    simp [freqAt, h, e]
  · rw [idx]; exact List.nodup_range
  · intro z hz
    refine ⟨fun _ p => noChild z p, fun _ => ?_⟩
    exact ⟨⟨(leavesOf freq)[z].freq.toNat, z⟩, (mem _).2 ⟨_, List.getElem?_eq_getElem hz, rfl⟩, rfl⟩
  · intro n h1 h2; omega
  · exact fun n l r h => absurd h (noInt n l r)
  · exact fun z p q h => absurd h (noChild z p)
  · exact fun n l r h => absurd h (noInt n l r)
  · simp only [startPool, List.map_map, totalOf]
    rw [show (Key.freq ∘ fun p : Node × Nat => ({ freq := p.1.freq.toNat, index := p.2 } : Key)) =
      (fun n : Node => n.freq.toNat) ∘ Prod.fst from rfl, ← List.map_map, List.zipIdx_map_fst]
  · rw [totalOf_leavesOf]; exact fits

/-! ### The arena of a successful BUILD -/

/-- The merging of the leaves of FREQ ends with one node in the pool. -/
theorem arenaOf_mergeInv (freq : Vector Word 256) (hne : present freq ≠ []) (fits : freqSum freq ≤ 2 ^ 32 - 1) :
    ∃ k, MergeInv (leavesOf freq) [k] (arenaOf freq) := by
  have hl : (startPool (leavesOf freq)).length = (leavesOf freq).length := by simp [startPool]
  refine (MergeInv.start freq fits).loop _ ?_ (by omega)
  intro h
  rw [h] at hl
  have : (present freq).length = 0 := by simpa using hl.symm
  exact hne (List.eq_nil_of_length_eq_zero this)

/-- NODE[n] is the leaf of the symbol `c` exactly when `c` is the n-th present symbol (R131). -/
theorem arenaOf_leafAt (freq : Vector Word 256) (hne : present freq ≠ []) (fits : freqSum freq ≤ 2 ^ 32 - 1) (n : Nat)
    (c : Byte) : LeafAt (arenaOf freq) n c ↔ (present freq)[n]? = some c := by
  obtain ⟨k, inv⟩ := arenaOf_mergeInv freq hne fits
  by_cases h : n < (leavesOf freq).length
  · unfold LeafAt
    rw [inv.old n h, leavesOf_eq, List.getElem?_map]
    cases e : (present freq)[n]? <;> simp
  · have hn : (present freq)[n]? = none := List.getElem?_eq_none (by simpa using h)
    simp only [hn, reduceCtorEq, iff_false]
    intro hc
    obtain ⟨l, r, hi, -⟩ := inv.internal n (by omega) hc.lt_length
    exact hc.not_internal hi

/-- A leaf's frequency is its symbol's count (R131). -/
theorem arenaOf_leaf_freq (freq : Vector Word 256) (hne : present freq ≠ []) (fits : freqSum freq ≤ 2 ^ 32 - 1) (n : Nat)
    (c : Byte) (h : LeafAt (arenaOf freq) n c) : freqAt (arenaOf freq) n = (lookSym freq c).toNat := by
  obtain ⟨k, inv⟩ := arenaOf_mergeInv freq hne fits
  have hc := (arenaOf_leafAt freq hne fits n c).1 h
  have hlt : n < (leavesOf freq).length := by
    rw [leavesOf_length]; exact (List.getElem?_eq_some_iff.1 hc).1
  simp [freqAt, inv.old n hlt, leavesOf_eq, hc, Node.freq]

/-- The greedy choice of every merge (R132, R133). -/
theorem arenaOf_greedy (freq : Vector Word 256) (hne : present freq ≠ []) (fits : freqSum freq ≤ 2 ^ 32 - 1) (n l r : Nat)
    (h : InternalAt (arenaOf freq) n l r) :
    InPool (arenaOf freq) n l ∧ InPool (arenaOf freq) n r ∧ KeyLess (arenaOf freq) r l ∧
      ∀ z, InPool (arenaOf freq) n z → z ≠ l → z ≠ r → KeyLess (arenaOf freq) l z :=
  (arenaOf_mergeInv freq hne fits).choose_spec.greedy n l r h

/-- The arena of a successful BUILD is one of R44, and the root's frequency is the sum of FREQ. -/
theorem arenaOf_ok (freq : Vector Word 256) (hne : present freq ≠ []) (fits : freqSum freq ≤ 2 ^ 32 - 1) :
    ArenaOk (arenaOf freq) (present freq).length ∧
      freqAt (arenaOf freq) (2 * (present freq).length - 2) = freqSum freq := by
  obtain ⟨k, inv⟩ := arenaOf_mergeInv freq hne fits
  have hM : 1 ≤ (present freq).length := List.length_pos_iff.2 hne
  have hlen : (arenaOf freq).length = 2 * (present freq).length - 1 := by
    have := inv.count
    simp only [List.length_singleton, leavesOf_length] at this
    omega
  have below : ∀ n l r, InternalAt (arenaOf freq) n l r → n < (arenaOf freq).length ∧ l < n ∧ r < n := by
    intro n l r h
    have g := inv.greedy n l r h
    exact ⟨h.lt_length, g.1.1, g.2.1.1⟩
  have rootFree : ∀ p, ¬ ChildOf (arenaOf freq) (2 * (present freq).length - 2) p := by
    rintro p ⟨l, r, hi, hc⟩
    have := below p l r hi
    omega
  obtain ⟨k', hk', hroot⟩ := (inv.free (2 * (present freq).length - 2) (by omega)).2 rootFree
  obtain rfl := List.mem_singleton.1 hk'
  have rootSum : freqAt (arenaOf freq) (2 * (present freq).length - 2) = freqSum freq := by
    rw [← hroot, inv.pool_freq k' (by simp), ← totalOf_leavesOf, ← inv.sum]; simp
  have leafSum : ((List.range (present freq).length).map (freqAt (arenaOf freq))).sum = freqSum freq := by
    rw [← totalOf_leavesOf, totalOf]
    congr 1
    apply List.ext_getElem (by simp)
    intro i h1 h2
    have hi : i < (leavesOf freq).length := by simpa using h2
    simp [freqAt, inv.old i hi, List.getElem?_eq_getElem hi]
  refine ⟨⟨hM, present_length_le freq, hlen, ?_, ?_, ?_, inv.freq_add, ?_, rootFree, by rw [rootSum, leafSum]⟩, rootSum⟩
  · intro n hn
    exact ⟨(present freq)[n], (arenaOf_leafAt freq hne fits n _).2 (List.getElem?_eq_getElem hn)⟩
  · intro m n c d hmn hc hd
    obtain ⟨h1, rfl⟩ := List.getElem?_eq_some_iff.1 ((arenaOf_leafAt freq hne fits m c).1 hc)
    obtain ⟨h2, rfl⟩ := List.getElem?_eq_some_iff.1 ((arenaOf_leafAt freq hne fits n d).1 hd)
    exact List.pairwise_iff_getElem.1 (present_pairwise freq) m n h1 h2 hmn
  · intro n h1 h2
    exact inv.internal n (by simpa using h1) (by omega)
  · intro n hn
    by_contra hno
    have hfree : ∀ p, ¬ ChildOf (arenaOf freq) n p := fun p hp =>
      hno ⟨p, hp, fun q hq => inv.parent n q p hq hp⟩
    obtain ⟨j, hj, hjn⟩ := (inv.free n (by omega)).2 hfree
    obtain rfl := List.mem_singleton.1 hj
    omega

end Sys2Proof.Machine
end

