-- ==== Sys2Proof/Laws/State.lean ====
section
/-! SUPPORT. One lemma per field per named update of the state, so that no proof unfolds one, and the two facts that every use
of `finish` needs. -/

namespace Sys2Proof.Machine

/-! ### `complete` -/

@[simp] theorem complete_params (s : State) : (complete s).params = s.params := rfl
@[simp] theorem complete_cmdLatch (s : State) : (complete s).cmdLatch = s.cmdLatch := rfl
@[simp] theorem complete_busy (s : State) : (complete s).busy = false := rfl
@[simp] theorem complete_done (s : State) : (complete s).done = true := rfl
@[simp] theorem complete_err (s : State) : (complete s).err = false := rfl
@[simp] theorem complete_haz (s : State) : (complete s).haz = s.haz := rfl
@[simp] theorem complete_errCode (s : State) : (complete s).errCode = .none := rfl
@[simp] theorem complete_treeValid (s : State) : (complete s).treeValid = s.treeValid := rfl
@[simp] theorem complete_tableValid (s : State) : (complete s).tableValid = s.tableValid := rfl
@[simp] theorem complete_inLen (s : State) : (complete s).inLen = s.inLen := rfl
@[simp] theorem complete_bitLen (s : State) : (complete s).bitLen = s.bitLen := rfl
@[simp] theorem complete_outLen (s : State) : (complete s).outLen = s.outLen := rfl
@[simp] theorem complete_leafCount (s : State) : (complete s).leafCount = s.leafCount := rfl
@[simp] theorem complete_nodeCount (s : State) : (complete s).nodeCount = s.nodeCount := rfl
@[simp] theorem complete_root (s : State) : (complete s).root = s.root := rfl
@[simp] theorem complete_totalFreq (s : State) : (complete s).totalFreq = s.totalFreq := rfl
@[simp] theorem complete_errInfo (s : State) : (complete s).errInfo = s.errInfo := rfl
@[simp] theorem complete_errSym (s : State) : (complete s).errSym = s.errSym := rfl
@[simp] theorem complete_freq (s : State) : (complete s).freq = s.freq := rfl
@[simp] theorem complete_nodes (s : State) : (complete s).nodes = s.nodes := rfl
@[simp] theorem complete_code (s : State) : (complete s).code = s.code := rfl
@[simp] theorem complete_inBuf (s : State) : (complete s).inBuf = s.inBuf := rfl
@[simp] theorem complete_outBuf (s : State) : (complete s).outBuf = s.outBuf := rfl
@[simp] theorem complete_bitBuf (s : State) : (complete s).bitBuf = s.bitBuf := rfl
@[simp] theorem complete_program (s : State) : (complete s).program = s.program := rfl
@[simp] theorem complete_sched (s : State) : (complete s).sched = s.sched := rfl
@[simp] theorem complete_readData (s : State) : (complete s).readData = s.readData := rfl
@[simp] theorem complete_draws (s : State) : (complete s).draws = s.draws := rfl

/-! ### `raise` -/

@[simp] theorem raise_params (c : ErrorCode) (info : Word) (sym : Byte) (s : State) : (raise c info sym s).params = s.params := rfl
@[simp] theorem raise_cmdLatch (c : ErrorCode) (info : Word) (sym : Byte) (s : State) : (raise c info sym s).cmdLatch = s.cmdLatch := rfl
@[simp] theorem raise_busy (c : ErrorCode) (info : Word) (sym : Byte) (s : State) : (raise c info sym s).busy = false := rfl
@[simp] theorem raise_done (c : ErrorCode) (info : Word) (sym : Byte) (s : State) : (raise c info sym s).done = true := rfl
@[simp] theorem raise_err (c : ErrorCode) (info : Word) (sym : Byte) (s : State) : (raise c info sym s).err = true := rfl
@[simp] theorem raise_haz (c : ErrorCode) (info : Word) (sym : Byte) (s : State) : (raise c info sym s).haz = s.haz := rfl
@[simp] theorem raise_errCode (c : ErrorCode) (info : Word) (sym : Byte) (s : State) : (raise c info sym s).errCode = c := rfl
@[simp] theorem raise_treeValid (c : ErrorCode) (info : Word) (sym : Byte) (s : State) : (raise c info sym s).treeValid = s.treeValid := rfl
@[simp] theorem raise_tableValid (c : ErrorCode) (info : Word) (sym : Byte) (s : State) : (raise c info sym s).tableValid = s.tableValid := rfl
@[simp] theorem raise_inLen (c : ErrorCode) (info : Word) (sym : Byte) (s : State) : (raise c info sym s).inLen = s.inLen := rfl
@[simp] theorem raise_bitLen (c : ErrorCode) (info : Word) (sym : Byte) (s : State) : (raise c info sym s).bitLen = s.bitLen := rfl
@[simp] theorem raise_outLen (c : ErrorCode) (info : Word) (sym : Byte) (s : State) : (raise c info sym s).outLen = s.outLen := rfl
@[simp] theorem raise_leafCount (c : ErrorCode) (info : Word) (sym : Byte) (s : State) : (raise c info sym s).leafCount = s.leafCount := rfl
@[simp] theorem raise_nodeCount (c : ErrorCode) (info : Word) (sym : Byte) (s : State) : (raise c info sym s).nodeCount = s.nodeCount := rfl
@[simp] theorem raise_root (c : ErrorCode) (info : Word) (sym : Byte) (s : State) : (raise c info sym s).root = s.root := rfl
@[simp] theorem raise_totalFreq (c : ErrorCode) (info : Word) (sym : Byte) (s : State) : (raise c info sym s).totalFreq = s.totalFreq := rfl
@[simp] theorem raise_errInfo (c : ErrorCode) (info : Word) (sym : Byte) (s : State) : (raise c info sym s).errInfo = info := rfl
@[simp] theorem raise_errSym (c : ErrorCode) (info : Word) (sym : Byte) (s : State) : (raise c info sym s).errSym = sym := rfl
@[simp] theorem raise_freq (c : ErrorCode) (info : Word) (sym : Byte) (s : State) : (raise c info sym s).freq = s.freq := rfl
@[simp] theorem raise_nodes (c : ErrorCode) (info : Word) (sym : Byte) (s : State) : (raise c info sym s).nodes = s.nodes := rfl
@[simp] theorem raise_code (c : ErrorCode) (info : Word) (sym : Byte) (s : State) : (raise c info sym s).code = s.code := rfl
@[simp] theorem raise_inBuf (c : ErrorCode) (info : Word) (sym : Byte) (s : State) : (raise c info sym s).inBuf = s.inBuf := rfl
@[simp] theorem raise_outBuf (c : ErrorCode) (info : Word) (sym : Byte) (s : State) : (raise c info sym s).outBuf = s.outBuf := rfl
@[simp] theorem raise_bitBuf (c : ErrorCode) (info : Word) (sym : Byte) (s : State) : (raise c info sym s).bitBuf = s.bitBuf := rfl
@[simp] theorem raise_program (c : ErrorCode) (info : Word) (sym : Byte) (s : State) : (raise c info sym s).program = s.program := rfl
@[simp] theorem raise_sched (c : ErrorCode) (info : Word) (sym : Byte) (s : State) : (raise c info sym s).sched = s.sched := rfl
@[simp] theorem raise_readData (c : ErrorCode) (info : Word) (sym : Byte) (s : State) : (raise c info sym s).readData = s.readData := rfl
@[simp] theorem raise_draws (c : ErrorCode) (info : Word) (sym : Byte) (s : State) : (raise c info sym s).draws = s.draws := rfl

/-! ### `acceptCommand` -/

@[simp] theorem acceptCommand_params (v : Word) (s : State) : (acceptCommand v s).params = s.params := rfl
@[simp] theorem acceptCommand_cmdLatch (v : Word) (s : State) : (acceptCommand v s).cmdLatch = v := rfl
@[simp] theorem acceptCommand_busy (v : Word) (s : State) : (acceptCommand v s).busy = true := rfl
@[simp] theorem acceptCommand_done (v : Word) (s : State) : (acceptCommand v s).done = false := rfl
@[simp] theorem acceptCommand_err (v : Word) (s : State) : (acceptCommand v s).err = false := rfl
@[simp] theorem acceptCommand_haz (v : Word) (s : State) : (acceptCommand v s).haz = s.haz := rfl
@[simp] theorem acceptCommand_errCode (v : Word) (s : State) : (acceptCommand v s).errCode = .none := rfl
@[simp] theorem acceptCommand_treeValid (v : Word) (s : State) : (acceptCommand v s).treeValid = s.treeValid := rfl
@[simp] theorem acceptCommand_tableValid (v : Word) (s : State) : (acceptCommand v s).tableValid = s.tableValid := rfl
@[simp] theorem acceptCommand_inLen (v : Word) (s : State) : (acceptCommand v s).inLen = s.inLen := rfl
@[simp] theorem acceptCommand_bitLen (v : Word) (s : State) : (acceptCommand v s).bitLen = s.bitLen := rfl
@[simp] theorem acceptCommand_outLen (v : Word) (s : State) : (acceptCommand v s).outLen = s.outLen := rfl
@[simp] theorem acceptCommand_leafCount (v : Word) (s : State) : (acceptCommand v s).leafCount = s.leafCount := rfl
@[simp] theorem acceptCommand_nodeCount (v : Word) (s : State) : (acceptCommand v s).nodeCount = s.nodeCount := rfl
@[simp] theorem acceptCommand_root (v : Word) (s : State) : (acceptCommand v s).root = s.root := rfl
@[simp] theorem acceptCommand_totalFreq (v : Word) (s : State) : (acceptCommand v s).totalFreq = s.totalFreq := rfl
@[simp] theorem acceptCommand_errInfo (v : Word) (s : State) : (acceptCommand v s).errInfo = 0 := rfl
@[simp] theorem acceptCommand_errSym (v : Word) (s : State) : (acceptCommand v s).errSym = 0 := rfl
@[simp] theorem acceptCommand_freq (v : Word) (s : State) : (acceptCommand v s).freq = s.freq := rfl
@[simp] theorem acceptCommand_nodes (v : Word) (s : State) : (acceptCommand v s).nodes = s.nodes := rfl
@[simp] theorem acceptCommand_code (v : Word) (s : State) : (acceptCommand v s).code = s.code := rfl
@[simp] theorem acceptCommand_inBuf (v : Word) (s : State) : (acceptCommand v s).inBuf = s.inBuf := rfl
@[simp] theorem acceptCommand_outBuf (v : Word) (s : State) : (acceptCommand v s).outBuf = s.outBuf := rfl
@[simp] theorem acceptCommand_bitBuf (v : Word) (s : State) : (acceptCommand v s).bitBuf = s.bitBuf := rfl
@[simp] theorem acceptCommand_program (v : Word) (s : State) : (acceptCommand v s).program = s.program := rfl
@[simp] theorem acceptCommand_sched (v : Word) (s : State) : (acceptCommand v s).sched = s.sched := rfl
@[simp] theorem acceptCommand_readData (v : Word) (s : State) : (acceptCommand v s).readData = s.readData := rfl
@[simp] theorem acceptCommand_draws (v : Word) (s : State) : (acceptCommand v s).draws = s.draws := rfl

/-! ### `dropTable` -/

@[simp] theorem dropTable_params (s : State) : (dropTable s).params = s.params := rfl
@[simp] theorem dropTable_cmdLatch (s : State) : (dropTable s).cmdLatch = s.cmdLatch := rfl
@[simp] theorem dropTable_busy (s : State) : (dropTable s).busy = s.busy := rfl
@[simp] theorem dropTable_done (s : State) : (dropTable s).done = s.done := rfl
@[simp] theorem dropTable_err (s : State) : (dropTable s).err = s.err := rfl
@[simp] theorem dropTable_haz (s : State) : (dropTable s).haz = s.haz := rfl
@[simp] theorem dropTable_errCode (s : State) : (dropTable s).errCode = s.errCode := rfl
@[simp] theorem dropTable_treeValid (s : State) : (dropTable s).treeValid = s.treeValid := rfl
@[simp] theorem dropTable_tableValid (s : State) : (dropTable s).tableValid = false := rfl
@[simp] theorem dropTable_inLen (s : State) : (dropTable s).inLen = s.inLen := rfl
@[simp] theorem dropTable_bitLen (s : State) : (dropTable s).bitLen = s.bitLen := rfl
@[simp] theorem dropTable_outLen (s : State) : (dropTable s).outLen = s.outLen := rfl
@[simp] theorem dropTable_leafCount (s : State) : (dropTable s).leafCount = s.leafCount := rfl
@[simp] theorem dropTable_nodeCount (s : State) : (dropTable s).nodeCount = s.nodeCount := rfl
@[simp] theorem dropTable_root (s : State) : (dropTable s).root = s.root := rfl
@[simp] theorem dropTable_totalFreq (s : State) : (dropTable s).totalFreq = s.totalFreq := rfl
@[simp] theorem dropTable_errInfo (s : State) : (dropTable s).errInfo = s.errInfo := rfl
@[simp] theorem dropTable_errSym (s : State) : (dropTable s).errSym = s.errSym := rfl
@[simp] theorem dropTable_freq (s : State) : (dropTable s).freq = s.freq := rfl
@[simp] theorem dropTable_nodes (s : State) : (dropTable s).nodes = s.nodes := rfl
@[simp] theorem dropTable_code (s : State) : (dropTable s).code = emptyTable := rfl
@[simp] theorem dropTable_inBuf (s : State) : (dropTable s).inBuf = s.inBuf := rfl
@[simp] theorem dropTable_outBuf (s : State) : (dropTable s).outBuf = s.outBuf := rfl
@[simp] theorem dropTable_bitBuf (s : State) : (dropTable s).bitBuf = s.bitBuf := rfl
@[simp] theorem dropTable_program (s : State) : (dropTable s).program = s.program := rfl
@[simp] theorem dropTable_sched (s : State) : (dropTable s).sched = s.sched := rfl
@[simp] theorem dropTable_readData (s : State) : (dropTable s).readData = s.readData := rfl
@[simp] theorem dropTable_draws (s : State) : (dropTable s).draws = s.draws := rfl

/-! ### `dropSession` -/

@[simp] theorem dropSession_params (s : State) : (dropSession s).params = s.params := rfl
@[simp] theorem dropSession_cmdLatch (s : State) : (dropSession s).cmdLatch = s.cmdLatch := rfl
@[simp] theorem dropSession_busy (s : State) : (dropSession s).busy = s.busy := rfl
@[simp] theorem dropSession_done (s : State) : (dropSession s).done = s.done := rfl
@[simp] theorem dropSession_err (s : State) : (dropSession s).err = s.err := rfl
@[simp] theorem dropSession_haz (s : State) : (dropSession s).haz = s.haz := rfl
@[simp] theorem dropSession_errCode (s : State) : (dropSession s).errCode = s.errCode := rfl
@[simp] theorem dropSession_treeValid (s : State) : (dropSession s).treeValid = false := rfl
@[simp] theorem dropSession_tableValid (s : State) : (dropSession s).tableValid = false := rfl
@[simp] theorem dropSession_inLen (s : State) : (dropSession s).inLen = s.inLen := rfl
@[simp] theorem dropSession_bitLen (s : State) : (dropSession s).bitLen = s.bitLen := rfl
@[simp] theorem dropSession_outLen (s : State) : (dropSession s).outLen = s.outLen := rfl
@[simp] theorem dropSession_leafCount (s : State) : (dropSession s).leafCount = 0 := rfl
@[simp] theorem dropSession_nodeCount (s : State) : (dropSession s).nodeCount = 0 := rfl
@[simp] theorem dropSession_root (s : State) : (dropSession s).root = 0 := rfl
@[simp] theorem dropSession_totalFreq (s : State) : (dropSession s).totalFreq = 0 := rfl
@[simp] theorem dropSession_errInfo (s : State) : (dropSession s).errInfo = s.errInfo := rfl
@[simp] theorem dropSession_errSym (s : State) : (dropSession s).errSym = s.errSym := rfl
@[simp] theorem dropSession_freq (s : State) : (dropSession s).freq = s.freq := rfl
@[simp] theorem dropSession_nodes (s : State) : (dropSession s).nodes = [] := rfl
@[simp] theorem dropSession_code (s : State) : (dropSession s).code = emptyTable := rfl
@[simp] theorem dropSession_inBuf (s : State) : (dropSession s).inBuf = s.inBuf := rfl
@[simp] theorem dropSession_outBuf (s : State) : (dropSession s).outBuf = s.outBuf := rfl
@[simp] theorem dropSession_bitBuf (s : State) : (dropSession s).bitBuf = s.bitBuf := rfl
@[simp] theorem dropSession_program (s : State) : (dropSession s).program = s.program := rfl
@[simp] theorem dropSession_sched (s : State) : (dropSession s).sched = s.sched := rfl
@[simp] theorem dropSession_readData (s : State) : (dropSession s).readData = s.readData := rfl
@[simp] theorem dropSession_draws (s : State) : (dropSession s).draws = s.draws := rfl

/-! ### `popSched` -/

@[simp] theorem State.popSched_params (s : State) : (s.popSched).params = s.params := rfl
@[simp] theorem State.popSched_cmdLatch (s : State) : (s.popSched).cmdLatch = s.cmdLatch := rfl
@[simp] theorem State.popSched_busy (s : State) : (s.popSched).busy = s.busy := rfl
@[simp] theorem State.popSched_done (s : State) : (s.popSched).done = s.done := rfl
@[simp] theorem State.popSched_err (s : State) : (s.popSched).err = s.err := rfl
@[simp] theorem State.popSched_haz (s : State) : (s.popSched).haz = s.haz := rfl
@[simp] theorem State.popSched_errCode (s : State) : (s.popSched).errCode = s.errCode := rfl
@[simp] theorem State.popSched_treeValid (s : State) : (s.popSched).treeValid = s.treeValid := rfl
@[simp] theorem State.popSched_tableValid (s : State) : (s.popSched).tableValid = s.tableValid := rfl
@[simp] theorem State.popSched_inLen (s : State) : (s.popSched).inLen = s.inLen := rfl
@[simp] theorem State.popSched_bitLen (s : State) : (s.popSched).bitLen = s.bitLen := rfl
@[simp] theorem State.popSched_outLen (s : State) : (s.popSched).outLen = s.outLen := rfl
@[simp] theorem State.popSched_leafCount (s : State) : (s.popSched).leafCount = s.leafCount := rfl
@[simp] theorem State.popSched_nodeCount (s : State) : (s.popSched).nodeCount = s.nodeCount := rfl
@[simp] theorem State.popSched_root (s : State) : (s.popSched).root = s.root := rfl
@[simp] theorem State.popSched_totalFreq (s : State) : (s.popSched).totalFreq = s.totalFreq := rfl
@[simp] theorem State.popSched_errInfo (s : State) : (s.popSched).errInfo = s.errInfo := rfl
@[simp] theorem State.popSched_errSym (s : State) : (s.popSched).errSym = s.errSym := rfl
@[simp] theorem State.popSched_freq (s : State) : (s.popSched).freq = s.freq := rfl
@[simp] theorem State.popSched_nodes (s : State) : (s.popSched).nodes = s.nodes := rfl
@[simp] theorem State.popSched_code (s : State) : (s.popSched).code = s.code := rfl
@[simp] theorem State.popSched_inBuf (s : State) : (s.popSched).inBuf = s.inBuf := rfl
@[simp] theorem State.popSched_outBuf (s : State) : (s.popSched).outBuf = s.outBuf := rfl
@[simp] theorem State.popSched_bitBuf (s : State) : (s.popSched).bitBuf = s.bitBuf := rfl
@[simp] theorem State.popSched_program (s : State) : (s.popSched).program = s.program := rfl
@[simp] theorem State.popSched_sched (s : State) : (s.popSched).sched = s.sched.tail := rfl
@[simp] theorem State.popSched_readData (s : State) : (s.popSched).readData = s.readData := rfl
@[simp] theorem State.popSched_draws (s : State) : (s.popSched).draws = s.draws := rfl

/-! ### `popHost` -/

@[simp] theorem State.popHost_params (s : State) : (s.popHost).params = s.params := rfl
@[simp] theorem State.popHost_cmdLatch (s : State) : (s.popHost).cmdLatch = s.cmdLatch := rfl
@[simp] theorem State.popHost_busy (s : State) : (s.popHost).busy = s.busy := rfl
@[simp] theorem State.popHost_done (s : State) : (s.popHost).done = s.done := rfl
@[simp] theorem State.popHost_err (s : State) : (s.popHost).err = s.err := rfl
@[simp] theorem State.popHost_haz (s : State) : (s.popHost).haz = s.haz := rfl
@[simp] theorem State.popHost_errCode (s : State) : (s.popHost).errCode = s.errCode := rfl
@[simp] theorem State.popHost_treeValid (s : State) : (s.popHost).treeValid = s.treeValid := rfl
@[simp] theorem State.popHost_tableValid (s : State) : (s.popHost).tableValid = s.tableValid := rfl
@[simp] theorem State.popHost_inLen (s : State) : (s.popHost).inLen = s.inLen := rfl
@[simp] theorem State.popHost_bitLen (s : State) : (s.popHost).bitLen = s.bitLen := rfl
@[simp] theorem State.popHost_outLen (s : State) : (s.popHost).outLen = s.outLen := rfl
@[simp] theorem State.popHost_leafCount (s : State) : (s.popHost).leafCount = s.leafCount := rfl
@[simp] theorem State.popHost_nodeCount (s : State) : (s.popHost).nodeCount = s.nodeCount := rfl
@[simp] theorem State.popHost_root (s : State) : (s.popHost).root = s.root := rfl
@[simp] theorem State.popHost_totalFreq (s : State) : (s.popHost).totalFreq = s.totalFreq := rfl
@[simp] theorem State.popHost_errInfo (s : State) : (s.popHost).errInfo = s.errInfo := rfl
@[simp] theorem State.popHost_errSym (s : State) : (s.popHost).errSym = s.errSym := rfl
@[simp] theorem State.popHost_freq (s : State) : (s.popHost).freq = s.freq := rfl
@[simp] theorem State.popHost_nodes (s : State) : (s.popHost).nodes = s.nodes := rfl
@[simp] theorem State.popHost_code (s : State) : (s.popHost).code = s.code := rfl
@[simp] theorem State.popHost_inBuf (s : State) : (s.popHost).inBuf = s.inBuf := rfl
@[simp] theorem State.popHost_outBuf (s : State) : (s.popHost).outBuf = s.outBuf := rfl
@[simp] theorem State.popHost_bitBuf (s : State) : (s.popHost).bitBuf = s.bitBuf := rfl
@[simp] theorem State.popHost_program (s : State) : (s.popHost).program = s.program.tail := rfl
@[simp] theorem State.popHost_sched (s : State) : (s.popHost).sched = s.sched := rfl
@[simp] theorem State.popHost_readData (s : State) : (s.popHost).readData = s.readData := rfl
@[simp] theorem State.popHost_draws (s : State) : (s.popHost).draws = s.draws := rfl

/-! ### `hardReset` -/

@[simp] theorem hardReset_params (s : State) : (hardReset s).params = s.params := rfl
@[simp] theorem hardReset_cmdLatch (s : State) : (hardReset s).cmdLatch = 0 := rfl
@[simp] theorem hardReset_busy (s : State) : (hardReset s).busy = false := rfl
@[simp] theorem hardReset_done (s : State) : (hardReset s).done = false := rfl
@[simp] theorem hardReset_err (s : State) : (hardReset s).err = false := rfl
@[simp] theorem hardReset_haz (s : State) : (hardReset s).haz = false := rfl
@[simp] theorem hardReset_errCode (s : State) : (hardReset s).errCode = .none := rfl
@[simp] theorem hardReset_treeValid (s : State) : (hardReset s).treeValid = false := rfl
@[simp] theorem hardReset_tableValid (s : State) : (hardReset s).tableValid = false := rfl
@[simp] theorem hardReset_inLen (s : State) : (hardReset s).inLen = 0 := rfl
@[simp] theorem hardReset_bitLen (s : State) : (hardReset s).bitLen = 0 := rfl
@[simp] theorem hardReset_outLen (s : State) : (hardReset s).outLen = 0 := rfl
@[simp] theorem hardReset_leafCount (s : State) : (hardReset s).leafCount = 0 := rfl
@[simp] theorem hardReset_nodeCount (s : State) : (hardReset s).nodeCount = 0 := rfl
@[simp] theorem hardReset_root (s : State) : (hardReset s).root = 0 := rfl
@[simp] theorem hardReset_totalFreq (s : State) : (hardReset s).totalFreq = 0 := rfl
@[simp] theorem hardReset_errInfo (s : State) : (hardReset s).errInfo = 0 := rfl
@[simp] theorem hardReset_errSym (s : State) : (hardReset s).errSym = 0 := rfl
@[simp] theorem hardReset_freq (s : State) : (hardReset s).freq = Vector.replicate 256 0 := rfl
@[simp] theorem hardReset_nodes (s : State) : (hardReset s).nodes = [] := rfl
@[simp] theorem hardReset_code (s : State) : (hardReset s).code = Vector.replicate 256 [] := rfl
@[simp] theorem hardReset_inBuf (s : State) : (hardReset s).inBuf = Memory.unspecified 8 s.draws := rfl
@[simp] theorem hardReset_outBuf (s : State) : (hardReset s).outBuf = Memory.unspecified 8 (s.draws + 1) := rfl
@[simp] theorem hardReset_bitBuf (s : State) : (hardReset s).bitBuf = Memory.unspecified 32 (s.draws + 2) := rfl
@[simp] theorem hardReset_program (s : State) : (hardReset s).program = s.program := rfl
@[simp] theorem hardReset_sched (s : State) : (hardReset s).sched = s.sched := rfl
@[simp] theorem hardReset_readData (s : State) : (hardReset s).readData = s.readData := rfl
@[simp] theorem hardReset_draws (s : State) : (hardReset s).draws = s.draws + 3 := rfl

/-! ### `finish`: what `complete` and `raise` do not write is the body's -/

@[simp] theorem finish_params (p : State × Ending) : (finish p).params = p.1.params := by
  rcases p with ⟨s, _ | _⟩ <;> rfl
@[simp] theorem finish_cmdLatch (p : State × Ending) : (finish p).cmdLatch = p.1.cmdLatch := by
  rcases p with ⟨s, _ | _⟩ <;> rfl
@[simp] theorem finish_haz (p : State × Ending) : (finish p).haz = p.1.haz := by
  rcases p with ⟨s, _ | _⟩ <;> rfl
@[simp] theorem finish_treeValid (p : State × Ending) : (finish p).treeValid = p.1.treeValid := by
  rcases p with ⟨s, _ | _⟩ <;> rfl
@[simp] theorem finish_tableValid (p : State × Ending) : (finish p).tableValid = p.1.tableValid := by
  rcases p with ⟨s, _ | _⟩ <;> rfl
@[simp] theorem finish_inLen (p : State × Ending) : (finish p).inLen = p.1.inLen := by
  rcases p with ⟨s, _ | _⟩ <;> rfl
@[simp] theorem finish_bitLen (p : State × Ending) : (finish p).bitLen = p.1.bitLen := by
  rcases p with ⟨s, _ | _⟩ <;> rfl
@[simp] theorem finish_outLen (p : State × Ending) : (finish p).outLen = p.1.outLen := by
  rcases p with ⟨s, _ | _⟩ <;> rfl
@[simp] theorem finish_leafCount (p : State × Ending) : (finish p).leafCount = p.1.leafCount := by
  rcases p with ⟨s, _ | _⟩ <;> rfl
@[simp] theorem finish_nodeCount (p : State × Ending) : (finish p).nodeCount = p.1.nodeCount := by
  rcases p with ⟨s, _ | _⟩ <;> rfl
@[simp] theorem finish_root (p : State × Ending) : (finish p).root = p.1.root := by
  rcases p with ⟨s, _ | _⟩ <;> rfl
@[simp] theorem finish_totalFreq (p : State × Ending) : (finish p).totalFreq = p.1.totalFreq := by
  rcases p with ⟨s, _ | _⟩ <;> rfl
@[simp] theorem finish_freq (p : State × Ending) : (finish p).freq = p.1.freq := by
  rcases p with ⟨s, _ | _⟩ <;> rfl
@[simp] theorem finish_nodes (p : State × Ending) : (finish p).nodes = p.1.nodes := by
  rcases p with ⟨s, _ | _⟩ <;> rfl
@[simp] theorem finish_code (p : State × Ending) : (finish p).code = p.1.code := by
  rcases p with ⟨s, _ | _⟩ <;> rfl
@[simp] theorem finish_inBuf (p : State × Ending) : (finish p).inBuf = p.1.inBuf := by
  rcases p with ⟨s, _ | _⟩ <;> rfl
@[simp] theorem finish_outBuf (p : State × Ending) : (finish p).outBuf = p.1.outBuf := by
  rcases p with ⟨s, _ | _⟩ <;> rfl
@[simp] theorem finish_bitBuf (p : State × Ending) : (finish p).bitBuf = p.1.bitBuf := by
  rcases p with ⟨s, _ | _⟩ <;> rfl
@[simp] theorem finish_program (p : State × Ending) : (finish p).program = p.1.program := by
  rcases p with ⟨s, _ | _⟩ <;> rfl
@[simp] theorem finish_sched (p : State × Ending) : (finish p).sched = p.1.sched := by
  rcases p with ⟨s, _ | _⟩ <;> rfl
@[simp] theorem finish_readData (p : State × Ending) : (finish p).readData = p.1.readData := by
  rcases p with ⟨s, _ | _⟩ <;> rfl
@[simp] theorem finish_draws (p : State × Ending) : (finish p).draws = p.1.draws := by
  rcases p with ⟨s, _ | _⟩ <;> rfl

@[simp] theorem finish_busy (p : State × Ending) : (finish p).busy = false := by
  rcases p with ⟨s, _ | _⟩ <;> rfl
@[simp] theorem finish_done (p : State × Ending) : (finish p).done = true := by
  rcases p with ⟨s, _ | _⟩ <;> rfl
@[simp] theorem finish_complete (s : State) : finish (s, .complete) = complete s := rfl
@[simp] theorem finish_raise (s : State) (c : ErrorCode) (info : Word) (sym : Byte) :
    finish (s, .raise c info sym) = raise c info sym s := rfl

/-- The completion fields an ending leaves: those of R212 or of R213. -/
theorem finish_status (p : State × Ending) :
    (p.2 = .complete ∧ (finish p).err = false ∧ (finish p).errCode = .none ∧ (finish p).errInfo = p.1.errInfo ∧
      (finish p).errSym = p.1.errSym) ∨
    ∃ c info sym, p.2 = .raise c info sym ∧ (finish p).err = true ∧ (finish p).errCode = c ∧ (finish p).errInfo = info ∧
      (finish p).errSym = sym := by
  rcases p with ⟨s, _ | ⟨c, info, sym⟩⟩
  · exact .inl ⟨rfl, rfl, rfl, rfl, rfl⟩
  · exact .inr ⟨c, info, sym, rfl, rfl, rfl, rfl, rfl⟩

/-- Two states with equal completion fields to come are equal once completed. -/
@[simp] theorem complete_complete (s : State) : complete (complete s) = complete s := rfl

end Sys2Proof.Machine
end

