-- ==== Sys2Proof/Laws/Step.lean ====
section
/-! SUPPORT. What a step can do, said once: the cases of `step`, of the host's turn and of the port, and the form of every meaning. -/

namespace Sys2Proof.Machine

/-! ### The meanings -/

/-- The body of a command: its effects and how it ends. -/
def bodyOf : Instr → State → State × Ending
  | .nop => nopBody
  | .clear => clearBody
  | .build => buildBody
  | .derive => deriveBody
  | .buildCode => buildCodeBody
  | .encode => encodeBody
  | .decode => decodeBody

/-- Every meaning is the end of its body, and so answers a next state (R110). -/
theorem exec_eq (i : Instr) (s : State) : exec i s = .next (finish (bodyOf i s)) := by cases i <;> rfl

theorem exec_next {i : Instr} {s t : State} (h : exec i s = .next t) : t = finish (bodyOf i s) := by
  rw [exec_eq] at h
  exact (Host.Outcome.next.inj h).symm

/-- The cases of the body of BUILD, in the order of R137. -/
theorem buildBody_cases (s : State) :
    ((leavesOf s.freq).length = 0 ∧ buildBody s = (dropSession s, .raise .emptyInput 0 0)) ∨
    ((leavesOf s.freq).length ≠ 0 ∧ totalOf (leavesOf s.freq) > 2 ^ 32 - 1 ∧
      buildBody s = (dropSession s, .raise .freqOverflow 0 0)) ∨
    ((leavesOf s.freq).length ≠ 0 ∧ totalOf (leavesOf s.freq) ≤ 2 ^ 32 - 1 ∧
      buildBody s = ({ dropSession s with
        nodes := arenaOf s.freq
        leafCount := BitVec.ofNat 32 (leavesOf s.freq).length
        nodeCount := BitVec.ofNat 32 (2 * (leavesOf s.freq).length - 1)
        root := BitVec.ofNat 32 (2 * (leavesOf s.freq).length - 2)
        totalFreq := BitVec.ofNat 32 (totalOf (leavesOf s.freq))
        treeValid := true }, .complete)) := by
  unfold buildBody
  by_cases h1 : (leavesOf s.freq).length = 0
  · exact .inl ⟨h1, by rw [if_pos h1]⟩
  by_cases h2 : totalOf (leavesOf s.freq) > 2 ^ 32 - 1
  · exact .inr (.inl ⟨h1, h2, by rw [if_neg h1, if_pos h2]⟩)
  · exact .inr (.inr ⟨h1, by omega, by rw [if_neg h1, if_neg h2]⟩)

/-- The cases of the body of DERIVE. -/
theorem deriveBody_cases (s : State) :
    (s.treeValid = false ∧ deriveBody s = (dropTable s, .raise .emptyTree 0 0)) ∨
    (s.treeValid = true ∧ deriveBody s = ({ dropTable s with
        code := tableOf s.nodes s.leafCount.toNat s.nodeCount.toNat s.root.toNat
        tableValid := true }, .complete)) := by
  unfold deriveBody
  by_cases h : s.treeValid = true
  · exact .inr ⟨h, by rw [if_pos h]⟩
  · exact .inl ⟨by simpa using h, by rw [if_neg h]⟩

/-- BUILD_CODE is the failed BUILD, or DERIVE after a BUILD that completed (R156). -/
theorem buildCodeBody_cases (s : State) :
    (∃ c info sym, (buildBody s).2 = .raise c info sym ∧ buildCodeBody s = buildBody s) ∨
    ((buildBody s).2 = .complete ∧ buildCodeBody s = deriveBody (buildBody s).1) := by
  unfold buildCodeBody
  rcases h : buildBody s with ⟨u, _ | ⟨c, info, sym⟩⟩
  · exact .inr ⟨rfl, rfl⟩
  · exact .inl ⟨c, info, sym, rfl, rfl⟩

/-! ### The port -/

/-- A read leaves everything but its answer and the count of free values (R64, R251). -/
theorem portRead_eq (a : Addr) (s : State) :
    ∃ v d, portRead a s = { s with readData := some v, draws := d } ∧ s.draws ≤ d := by
  unfold portRead
  split_ifs
  · exact ⟨_, s.draws + 1, rfl, by omega⟩
  · exact ⟨_, s.draws, rfl, Nat.le_refl _⟩

/-- What a write can do (R65, R250). -/
theorem portWrite_cases (a : Addr) (v : Word) (s : State) :
    (s.busy = true ∧ portWrite a v s = { s with haz := true }) ∨
    (s.busy = false ∧
      ((regionOf s.params a = .cmd ∧ portWrite a v s = acceptCommand v s) ∨
       (regionOf s.params a = .inLen ∧ portWrite a v s = { s with inLen := v }) ∨
       (regionOf s.params a = .bitLen ∧ portWrite a v s = { s with bitLen := v }) ∨
       (∃ c, regionOf s.params a = .freq c ∧ portWrite a v s = { s with freq := putSym s.freq c v }) ∨
       (∃ i, regionOf s.params a = .inBuf i ∧ portWrite a v s = { s with inBuf := s.inBuf.write i (v.setWidth 8) }) ∨
       (∃ w, regionOf s.params a = .bitBuf w ∧ portWrite a v s = { s with bitBuf := s.bitBuf.write w v }) ∨
       portWrite a v s = s)) := by
  unfold portWrite
  by_cases hb : s.busy = true
  · exact .inl ⟨hb, by rw [if_pos hb]⟩
  · refine .inr ⟨by simpa using hb, ?_⟩
    rw [if_neg hb]
    cases h : regionOf s.params a <;> simp [writeRegion]

theorem tableWindow_not_buffer (n : Nat) :
    (∀ i, tableWindow n ≠ .inBuf i) ∧ (∀ i, tableWindow n ≠ .outBuf i) ∧ (∀ w, tableWindow n ≠ .bitBuf w) := by
  unfold tableWindow
  repeat' split
  all_goals simp

theorem bufferWindow_live (p : Config.Params) (n : Nat) :
    (∀ i, bufferWindow p n = .inBuf i → i < p.inCap) ∧ (∀ i, bufferWindow p n = .outBuf i → i < p.outCap) ∧
    (∀ w, bufferWindow p n = .bitBuf w → w < p.bitCap / 32) := by
  unfold bufferWindow liveCell
  repeat' split
  all_goals simp_all

theorem windowOf_live (p : Config.Params) (n : Nat) :
    (∀ i, windowOf p n = .inBuf i → i < p.inCap) ∧ (∀ i, windowOf p n = .outBuf i → i < p.outCap) ∧
    (∀ w, windowOf p n = .bitBuf w → w < p.bitCap / 32) := by
  unfold windowOf
  split
  · have h := tableWindow_not_buffer n
    exact ⟨fun i e => absurd e (h.1 i), fun i e => absurd e (h.2.1 i), fun i e => absurd e (h.2.2 i)⟩
  · exact bufferWindow_live p n

/-- The buffer windows name only live cells (R62). -/
theorem regionOf_live (p : Config.Params) (a : Addr) :
    (∀ i, regionOf p a = .inBuf i → i < p.inCap) ∧ (∀ i, regionOf p a = .outBuf i → i < p.outCap) ∧
    (∀ w, regionOf p a = .bitBuf w → w < p.bitCap / 32) := by
  unfold regionOf
  by_cases h : a.toNat < registers.length
  · have hm := List.getElem_mem h
    rw [List.getElem?_eq_getElem h, Option.getD_some]
    generalize registers[a.toNat] = r at hm
    simp only [registers, List.mem_cons, List.not_mem_nil, or_false] at hm
    rcases hm with rfl | rfl | rfl | rfl | rfl | rfl | rfl | rfl | rfl | rfl | rfl | rfl | rfl | rfl | rfl <;> simp
  · rw [List.getElem?_eq_none (Nat.le_of_not_lt h), Option.getD_none]
    exact windowOf_live p a.toNat

/-! ### The turns -/

theorem hostOp_next {op : HostOp} {s t : State} (h : hostOp op s = .next t) :
    (∃ a, op = .read a 4 ∧ t = portRead a s.popHost) ∨ (∃ a v, op = .write a 4 v ∧ t = portWrite a v s.popHost) ∨
    (op = .wait ∧ t = portRead statusAddr (if s.busy then s else s.popHost)) := by
  cases op with
  | read a size =>
    by_cases hs : size = 4
    · subst hs
      exact .inl ⟨a, rfl, (Host.Outcome.next.inj h).symm⟩
    · simp [hostOp, wfAccessSize, hs] at h
  | write a size v =>
    by_cases hs : size = 4
    · subst hs
      exact .inr (.inl ⟨a, v, rfl, (Host.Outcome.next.inj h).symm⟩)
    · simp [hostOp, wfAccessSize, hs] at h
  | wait => exact .inr (.inr ⟨rfl, (Host.Outcome.next.inj h).symm⟩)

/-- The host's turn, by its first access. -/
theorem hostTurn_next {s t : State} (h : hostTurn s = .next t) :
    (s.program = [] ∧ t = s) ∨ ∃ op rest, s.program = op :: rest ∧ hostOp op s = .next t := by
  unfold hostTurn at h
  cases hp : s.program with
  | nil => rw [hp] at h; exact .inl ⟨rfl, (Host.Outcome.next.inj h).symm⟩
  | cons op rest => rw [hp] at h; exact .inr ⟨op, rest, rfl, h⟩

/-- The engine's step, by what the latched word decodes to. -/
theorem engineStep_next {s t : State} (h : engineStep s = .next t) :
    (∃ i, decode s.cmdLatch = .ok i ∧ t = finish (bodyOf i s)) ∨
    ((∃ e, decode s.cmdLatch = .error e) ∧ t = finish (illegalBody s)) := by
  unfold engineStep at h
  cases hd : decode s.cmdLatch with
  | ok i => rw [hd] at h; exact .inl ⟨i, rfl, exec_next h⟩
  | error e => rw [hd] at h; exact .inr ⟨⟨e, rfl⟩, (Host.Outcome.next.inj h).symm⟩

/-- Everything a step that answers a next state can have done. -/
theorem step_cases {s t : State} (h : step s = .next t) :
    (nextAgent s = .reset ∧ t = hardReset s.popSched) ∨
    (nextAgent s = .engine ∧ s.busy = true ∧ ∃ i, decode s.cmdLatch = .ok i ∧ t = finish (bodyOf i s.popSched)) ∨
    (nextAgent s = .engine ∧ s.busy = true ∧ (∃ e, decode s.cmdLatch = .error e) ∧ t = finish (illegalBody s.popSched)) ∨
    (nextAgent s = .engine ∧ s.busy = false ∧ t = s.popSched) ∨
    (nextAgent s = .host ∧ s.program = [] ∧ t = s.popSched) ∨
    (nextAgent s = .host ∧ ∃ a rest, s.program = .read a 4 :: rest ∧ t = portRead a s.popSched.popHost) ∨
    (nextAgent s = .host ∧ ∃ a v rest, s.program = .write a 4 v :: rest ∧ t = portWrite a v s.popSched.popHost) ∨
    (nextAgent s = .host ∧ ∃ rest, s.program = .wait :: rest ∧
      t = portRead statusAddr (if s.busy then s.popSched else s.popSched.popHost)) := by
  unfold step at h
  cases ha : nextAgent s with
  | reset =>
    rw [ha] at h
    exact .inl ⟨rfl, (Host.Outcome.next.inj h).symm⟩
  | engine =>
    rw [ha] at h
    by_cases hb : s.busy = true
    · rw [turn, engineTurn, State.popSched_busy, if_pos hb] at h
      rcases engineStep_next h with ⟨i, hd, ht⟩ | ⟨hd, ht⟩
      · exact .inr (.inl ⟨rfl, hb, i, hd, ht⟩)
      · exact .inr (.inr (.inl ⟨rfl, hb, hd, ht⟩))
    · rw [turn, engineTurn, State.popSched_busy, if_neg hb] at h
      exact .inr (.inr (.inr (.inl ⟨rfl, by simpa using hb, (Host.Outcome.next.inj h).symm⟩)))
  | host =>
    rw [ha] at h
    rcases hostTurn_next h with ⟨hp, ht⟩ | ⟨op, rest, hp, hop⟩
    · exact .inr (.inr (.inr (.inr (.inl ⟨rfl, hp, ht⟩))))
    · rcases hostOp_next hop with ⟨a, rfl, ht⟩ | ⟨a, v, rfl, ht⟩ | ⟨rfl, ht⟩
      · exact .inr (.inr (.inr (.inr (.inr (.inl ⟨rfl, a, rest, hp, ht⟩)))))
      · exact .inr (.inr (.inr (.inr (.inr (.inr (.inl ⟨rfl, a, v, rest, hp, ht⟩))))))
      · exact .inr (.inr (.inr (.inr (.inr (.inr (.inr ⟨rfl, rest, hp, ht⟩))))))

end Sys2Proof.Machine
end

