-- ==== Sys2Proof/Laws/Body.lean ====
section
/-! SUPPORT. What no command touches, whatever its outcome: cited by the frames and by the claims about whole steps. -/

namespace Sys2Proof.Machine

/-- What every engine step keeps (R61), and that it ends (R212, R213). -/
structure EngineKeeps (s t : State) : Prop where
  params : t.params = s.params
  cmdLatch : t.cmdLatch = s.cmdLatch
  inBuf : t.inBuf = s.inBuf
  program : t.program = s.program
  sched : t.sched = s.sched
  readData : t.readData = s.readData
  idle : t.busy = false
  ended : t.done = true
  err_iff : t.err = true ↔ t.errCode ≠ .none

theorem finish_complete_keeps {s u : State} (hp : u.params = s.params) (hc : u.cmdLatch = s.cmdLatch) (hi : u.inBuf = s.inBuf)
    (hg : u.program = s.program) (hs : u.sched = s.sched) (hr : u.readData = s.readData) :
    EngineKeeps s (finish (u, .complete)) :=
  ⟨hp, hc, hi, hg, hs, hr, rfl, rfl, by simp [finish]⟩

theorem finish_raise_keeps {s u : State} {c : ErrorCode} {info : Word} {sym : Byte} (hne : c ≠ .none)
    (hp : u.params = s.params) (hc : u.cmdLatch = s.cmdLatch) (hi : u.inBuf = s.inBuf)
    (hg : u.program = s.program) (hs : u.sched = s.sched) (hr : u.readData = s.readData) :
    EngineKeeps s (finish (u, .raise c info sym)) :=
  ⟨hp, hc, hi, hg, hs, hr, rfl, rfl, by simp [finish, hne]⟩

theorem buildBody_keeps (s : State) : EngineKeeps s (finish (buildBody s)) := by
  rcases buildBody_cases s with ⟨-, h⟩ | ⟨-, -, h⟩ | ⟨-, -, h⟩ <;> rw [h]
  · exact finish_raise_keeps (by decide) rfl rfl rfl rfl rfl rfl
  · exact finish_raise_keeps (by decide) rfl rfl rfl rfl rfl rfl
  · exact finish_complete_keeps rfl rfl rfl rfl rfl rfl

theorem deriveBody_keeps (s : State) : EngineKeeps s (finish (deriveBody s)) := by
  rcases deriveBody_cases s with ⟨-, h⟩ | ⟨-, h⟩ <;> rw [h]
  · exact finish_raise_keeps (by decide) rfl rfl rfl rfl rfl rfl
  · exact finish_complete_keeps rfl rfl rfl rfl rfl rfl

theorem buildCodeBody_keeps (s : State) : EngineKeeps s (finish (buildCodeBody s)) := by
  rcases buildCodeBody_cases s with ⟨-, -, -, -, h⟩ | ⟨-, h⟩ <;> rw [h]
  · exact buildBody_keeps s
  · have hd := deriveBody_keeps (buildBody s).1
    have hb := buildBody_keeps s
    have e : ∀ p : State × Ending, (finish p).params = p.1.params ∧ (finish p).cmdLatch = p.1.cmdLatch ∧
        (finish p).inBuf = p.1.inBuf ∧ (finish p).program = p.1.program ∧ (finish p).sched = p.1.sched ∧
        (finish p).readData = p.1.readData := by
      rintro ⟨u, _ | _⟩ <;> exact ⟨rfl, rfl, rfl, rfl, rfl, rfl⟩
    obtain ⟨e1, e2, e3, e4, e5, e6⟩ := e (buildBody s)
    exact ⟨hd.params.trans (e1.symm.trans hb.params), hd.cmdLatch.trans (e2.symm.trans hb.cmdLatch),
      hd.inBuf.trans (e3.symm.trans hb.inBuf), hd.program.trans (e4.symm.trans hb.program),
      hd.sched.trans (e5.symm.trans hb.sched), hd.readData.trans (e6.symm.trans hb.readData), hd.idle, hd.ended, hd.err_iff⟩

theorem encodeBody_keeps (s : State) : EngineKeeps s (finish (encodeBody s)) := by
  rcases encodeBody_cases s with ⟨-, h⟩ | ⟨-, -, h⟩ | ⟨-, -, f, hf, -, h⟩ | ⟨-, -, -, -, h⟩ <;> rw [h]
  · exact finish_raise_keeps (by decide) rfl rfl rfl rfl rfl rfl
  · exact finish_raise_keeps (by decide) rfl rfl rfl rfl rfl rfl
  · exact finish_raise_keeps (by rcases hf with hf | hf <;> rw [hf] <;> decide) rfl rfl rfl rfl rfl rfl
  · exact finish_complete_keeps rfl rfl rfl rfl rfl rfl

theorem decodeBody_keeps (s : State) : EngineKeeps s (finish (decodeBody s)) := by
  rcases decodeBody_cases s with ⟨-, h⟩ | ⟨-, -, h⟩ | ⟨-, -, -, h⟩ | ⟨-, -, -, f, hf, -, h⟩ | ⟨-, -, -, out, -, -, -, h⟩ <;>
    rw [h]
  · exact finish_raise_keeps (by decide) rfl rfl rfl rfl rfl rfl
  · exact finish_raise_keeps (by decide) rfl rfl rfl rfl rfl rfl
  · exact finish_raise_keeps (by decide) rfl rfl rfl rfl rfl rfl
  · exact finish_raise_keeps (by rcases hf with hf | hf <;> rw [hf] <;> decide) rfl rfl rfl rfl rfl rfl
  · exact finish_complete_keeps rfl rfl rfl rfl rfl rfl

/-- Every command keeps what R61 gives to none of them, and ends. -/
theorem finish_body_keeps (i : Instr) (s : State) : EngineKeeps s (finish (bodyOf i s)) := by
  cases i with
  | nop => exact finish_complete_keeps rfl rfl rfl rfl rfl rfl
  | clear => exact finish_complete_keeps rfl rfl rfl rfl rfl rfl
  | build => exact buildBody_keeps s
  | derive => exact deriveBody_keeps s
  | buildCode => exact buildCodeBody_keeps s
  | encode => exact encodeBody_keeps s
  | decode => exact decodeBody_keeps s

/-- No command's body writes ERR_INFO or ERR_SYM (R212), and none raises NONE. -/
theorem body_info (i : Instr) (s : State) :
    (bodyOf i s).1.errInfo = s.errInfo ∧ (bodyOf i s).1.errSym = s.errSym ∧
      match (bodyOf i s).2 with
      | .complete => True
      | .raise c _ _ => c ≠ .none := by
  have hb : ∀ u : State, (buildBody u).1.errInfo = u.errInfo ∧ (buildBody u).1.errSym = u.errSym ∧
      match (buildBody u).2 with
      | .complete => True
      | .raise c _ _ => c ≠ .none := by
    intro u
    rcases buildBody_cases u with ⟨-, h⟩ | ⟨-, -, h⟩ | ⟨-, -, h⟩ <;> rw [h] <;> exact ⟨rfl, rfl, by simp⟩
  have hd : ∀ u : State, (deriveBody u).1.errInfo = u.errInfo ∧ (deriveBody u).1.errSym = u.errSym ∧
      match (deriveBody u).2 with
      | .complete => True
      | .raise c _ _ => c ≠ .none := by
    intro u
    rcases deriveBody_cases u with ⟨-, h⟩ | ⟨-, h⟩ <;> rw [h] <;> exact ⟨rfl, rfl, by simp⟩
  cases i with
  | nop => exact ⟨rfl, rfl, trivial⟩
  | clear => exact ⟨rfl, rfl, trivial⟩
  | build => exact hb s
  | derive => exact hd s
  | buildCode =>
    rw [bodyOf]
    rcases buildCodeBody_cases s with ⟨-, -, -, -, h⟩ | ⟨-, h⟩ <;> rw [h]
    · exact hb s
    · exact ⟨(hd _).1.trans (hb s).1, (hd _).2.1.trans (hb s).2.1, (hd _).2.2⟩
  | encode =>
    rw [bodyOf]
    rcases encodeBody_cases s with ⟨-, h⟩ | ⟨-, -, h⟩ | ⟨-, -, f, hf, -, h⟩ | ⟨-, -, -, -, h⟩ <;> rw [h]
    · exact ⟨rfl, rfl, by simp⟩
    · exact ⟨rfl, rfl, by simp⟩
    · exact ⟨rfl, rfl, by rcases hf with hf | hf <;> simp [hf]⟩
    · exact ⟨rfl, rfl, trivial⟩
  | decode =>
    rw [bodyOf]
    rcases decodeBody_cases s with ⟨-, h⟩ | ⟨-, -, h⟩ | ⟨-, -, -, h⟩ | ⟨-, -, -, f, hf, -, h⟩ | ⟨-, -, -, out, -, -, -, h⟩ <;>
      rw [h]
    · exact ⟨rfl, rfl, by simp⟩
    · exact ⟨rfl, rfl, by simp⟩
    · exact ⟨rfl, rfl, by simp⟩
    · exact ⟨rfl, rfl, by rcases hf with hf | hf <;> simp [hf]⟩
    · exact ⟨rfl, rfl, trivial⟩

/-! ### Fields one command alone may write -/

/-- HAZ and FREQ are written by CLEAR alone (R61). -/
theorem finish_keeps_haz_freq (i : Instr) (s : State) (hi : i ≠ .clear) :
    (finish (bodyOf i s)).haz = s.haz ∧ (finish (bodyOf i s)).freq = s.freq := by
  have hf : ∀ p : State × Ending, (finish p).haz = p.1.haz ∧ (finish p).freq = p.1.freq := by
    rintro ⟨u, _ | _⟩ <;> exact ⟨rfl, rfl⟩
  rw [(hf _).1, (hf _).2]
  have hb : ∀ u : State, (buildBody u).1.haz = u.haz ∧ (buildBody u).1.freq = u.freq := by
    intro u
    rcases buildBody_cases u with ⟨-, h⟩ | ⟨-, -, h⟩ | ⟨-, -, h⟩ <;> rw [h] <;> exact ⟨rfl, rfl⟩
  have hd : ∀ u : State, (deriveBody u).1.haz = u.haz ∧ (deriveBody u).1.freq = u.freq := by
    intro u
    rcases deriveBody_cases u with ⟨-, h⟩ | ⟨-, h⟩ <;> rw [h] <;> exact ⟨rfl, rfl⟩
  cases i with
  | nop => exact ⟨rfl, rfl⟩
  | clear => exact absurd rfl hi
  | build => exact hb s
  | derive => exact hd s
  | buildCode =>
    rw [bodyOf]
    rcases buildCodeBody_cases s with ⟨-, -, -, -, h⟩ | ⟨-, h⟩ <;> rw [h]
    · exact hb s
    · exact ⟨(hd _).1.trans (hb s).1, (hd _).2.trans (hb s).2⟩
  | encode =>
    rw [bodyOf]
    rcases encodeBody_cases s with ⟨-, h⟩ | ⟨-, -, h⟩ | ⟨-, -, f, hf, -, h⟩ | ⟨-, -, -, -, h⟩ <;> rw [h] <;> exact ⟨rfl, rfl⟩
  | decode =>
    rw [bodyOf]
    rcases decodeBody_cases s with ⟨-, h⟩ | ⟨-, -, h⟩ | ⟨-, -, -, h⟩ | ⟨-, -, -, f, hf, -, h⟩ | ⟨-, -, -, out, -, -, -, h⟩ <;>
      rw [h] <;> exact ⟨rfl, rfl⟩

/-- The arena is written by BUILD, BUILD_CODE and CLEAR alone (R32). -/
theorem finish_keeps_nodes (i : Instr) (s : State) (h1 : i ≠ .clear) (h2 : i ≠ .build) (h3 : i ≠ .buildCode) :
    (finish (bodyOf i s)).nodes = s.nodes := by
  have hf : ∀ p : State × Ending, (finish p).nodes = p.1.nodes := by
    rintro ⟨u, _ | _⟩ <;> rfl
  rw [hf]
  cases i with
  | nop => rfl
  | clear => exact absurd rfl h1
  | build => exact absurd rfl h2
  | derive =>
    rw [bodyOf]
    rcases deriveBody_cases s with ⟨-, h⟩ | ⟨-, h⟩ <;> rw [h] <;> rfl
  | buildCode => exact absurd rfl h3
  | encode =>
    rw [bodyOf]
    rcases encodeBody_cases s with ⟨-, h⟩ | ⟨-, -, h⟩ | ⟨-, -, f, hf, -, h⟩ | ⟨-, -, -, -, h⟩ <;> rw [h]
  | decode =>
    rw [bodyOf]
    rcases decodeBody_cases s with ⟨-, h⟩ | ⟨-, -, h⟩ | ⟨-, -, -, h⟩ | ⟨-, -, -, f, hf, -, h⟩ | ⟨-, -, -, out, -, -, -, h⟩ <;>
      rw [h]

/-! ### The arena and the table a command leaves -/

/-- The tree and the table, as far as `SessionOk` reads them. -/
theorem SessionOk.of_eq {s t : State} (ok : SessionOk s) (h1 : t.treeValid = s.treeValid) (h2 : t.tableValid = s.tableValid)
    (h3 : t.nodes = s.nodes) (h4 : t.leafCount = s.leafCount) (h5 : t.nodeCount = s.nodeCount) (h6 : t.root = s.root)
    (h7 : t.totalFreq = s.totalFreq) (h8 : t.code = s.code) : SessionOk t where
  noTree h := by
    have n := ok.noTree (h1 ▸ h)
    exact ⟨h4 ▸ n.leafCount, h5 ▸ n.nodeCount, h6 ▸ n.root, h7 ▸ n.totalFreq, h3 ▸ n.nodes⟩
  tree h := by
    have n := ok.tree (h1 ▸ h)
    exact ⟨by rw [h3, h4]; exact n.arena, by rw [h5, h4]; exact n.nodeCount, by rw [h6, h4]; exact n.root,
      by rw [h7, h3, h6]; exact n.total⟩
  noTable h := by rw [h8]; exact ok.noTable (h2 ▸ h)
  table h := by rw [h3, h4, h6, h8]; exact ok.table (h2 ▸ h)

theorem sessionOk_dropSession (s : State) : SessionOk (dropSession s) where
  noTree _ := ⟨rfl, rfl, rfl, rfl, rfl⟩
  tree h := absurd h (by simp)
  noTable _ c := by simp [dropSession, dropTable, emptyTable]
  table h := absurd h (by simp)

/-- The tree of a successful BUILD is one of R44 (R135), and there is no table (R138). -/
theorem treeOk_build (s : State) (hne : present s.freq ≠ []) (fits : freqSum s.freq ≤ 2 ^ 32 - 1) :
    buildBody s = (({ dropSession s with
        nodes := arenaOf s.freq
        leafCount := BitVec.ofNat 32 (present s.freq).length
        nodeCount := BitVec.ofNat 32 (2 * (present s.freq).length - 1)
        root := BitVec.ofNat 32 (2 * (present s.freq).length - 2)
        totalFreq := BitVec.ofNat 32 (freqSum s.freq)
        treeValid := true } : State), Ending.complete) ∧ TreeOk (buildBody s).1 := by
  have h0 : (leavesOf s.freq).length ≠ 0 := by rw [leavesOf_length]; simpa using hne
  have e : buildBody s = (({ dropSession s with
        nodes := arenaOf s.freq
        leafCount := BitVec.ofNat 32 (present s.freq).length
        nodeCount := BitVec.ofNat 32 (2 * (present s.freq).length - 1)
        root := BitVec.ofNat 32 (2 * (present s.freq).length - 2)
        totalFreq := BitVec.ofNat 32 (freqSum s.freq)
        treeValid := true } : State), Ending.complete) := by
    rw [← leavesOf_length, ← totalOf_leavesOf, buildBody, if_neg h0,
      if_neg (by rw [totalOf_leavesOf]; omega)]
  refine ⟨e, ?_⟩
  obtain ⟨ok, hroot⟩ := arenaOf_ok s.freq hne fits
  have hM := ok.leaves_pos
  have hM' := ok.leaves_le
  have n1 : (BitVec.ofNat 32 (present s.freq).length).toNat = (present s.freq).length := by simp; omega
  have n2 : (BitVec.ofNat 32 (2 * (present s.freq).length - 1)).toNat = 2 * (present s.freq).length - 1 := by simp; omega
  have n3 : (BitVec.ofNat 32 (2 * (present s.freq).length - 2)).toNat = 2 * (present s.freq).length - 2 := by simp; omega
  have n4 : (BitVec.ofNat 32 (freqSum s.freq)).toNat = freqSum s.freq := by simp; omega
  rw [e]
  exact ⟨by simpa only [n1] using ok, by simp only [n1, n2], by simp only [n1, n3], by simp only [n3, n4, hroot]⟩

theorem present_ne_nil_of {s : State} (h : (leavesOf s.freq).length ≠ 0) : present s.freq ≠ [] := by
  intro e; rw [leavesOf_length, e] at h; exact h rfl

theorem sessionOk_buildBody (s : State) : SessionOk (buildBody s).1 := by
  rcases buildBody_cases s with ⟨-, h⟩ | ⟨-, -, h⟩ | ⟨hne, fits, -⟩
  · rw [h]; exact sessionOk_dropSession s
  · rw [h]; exact sessionOk_dropSession s
  · rw [totalOf_leavesOf] at fits
    obtain ⟨e, ok⟩ := treeOk_build s (present_ne_nil_of hne) fits
    refine ⟨fun h => ?_, fun _ => ok, fun _ c => ?_, fun h => ?_⟩
    · rw [e] at h; exact absurd h (by simp)
    · rw [e]; simp [dropSession, dropTable, emptyTable]
    · rw [e] at h; exact absurd h (by simp [dropSession, dropTable])

/-- The table of a successful DERIVE is the tree's (R150). -/
theorem sessionOk_deriveBody {s : State} (ok : SessionOk s) : SessionOk (deriveBody s).1 := by
  rcases deriveBody_cases s with ⟨hv, h⟩ | ⟨hv, h⟩
  · rw [h]
    refine ⟨fun _ => ?_, fun h => absurd (hv.symm.trans h) (by simp), fun _ c => by simp [dropTable, emptyTable],
      fun h => absurd h (by simp [dropTable])⟩
    have n := ok.noTree hv
    exact ⟨n.leafCount, n.nodeCount, n.root, n.totalFreq, n.nodes⟩
  · rw [h]
    have n := ok.tree hv
    refine ⟨fun h => absurd (hv.symm.trans h) (by simp), fun _ => ⟨n.arena, n.nodeCount, n.root, n.total⟩,
      fun h => absurd h (by simp), fun _ => ?_⟩
    show TableOk s.nodes s.leafCount.toNat s.root.toNat (tableOf s.nodes s.leafCount.toNat s.nodeCount.toNat s.root.toNat)
    rw [n.root, n.nodeCount]
    exact tableOf_ok n.arena

theorem sessionOk_buildCodeBody (s : State) : SessionOk (buildCodeBody s).1 := by
  rcases buildCodeBody_cases s with ⟨-, -, -, -, h⟩ | ⟨-, h⟩ <;> rw [h]
  · exact sessionOk_buildBody s
  · exact sessionOk_deriveBody (sessionOk_buildBody s)

theorem SessionOk.finish {p : State × Ending} (ok : SessionOk p.1) : SessionOk (finish p) := by
  obtain ⟨u, e⟩ := p
  cases e <;> exact SessionOk.of_eq ok rfl rfl rfl rfl rfl rfl rfl rfl

/-- Every command keeps the tree and the table what TREE_VALID and TABLE_VALID say (R31, R37, R44). -/
theorem sessionOk_body (i : Instr) {s : State} (ok : SessionOk s) : SessionOk (Machine.finish (bodyOf i s)) := by
  apply SessionOk.finish
  cases i with
  | nop => exact ok
  | clear => exact SessionOk.of_eq (sessionOk_dropSession s) rfl rfl rfl rfl rfl rfl rfl rfl
  | build => exact sessionOk_buildBody s
  | derive => exact sessionOk_deriveBody ok
  | buildCode => exact sessionOk_buildCodeBody s
  | encode =>
    show SessionOk (encodeBody s).1
    rcases encodeBody_cases s with ⟨-, h⟩ | ⟨-, -, h⟩ | ⟨-, -, f, hf, -, h⟩ | ⟨-, -, -, -, h⟩ <;> rw [h] <;>
      exact SessionOk.of_eq ok rfl rfl rfl rfl rfl rfl rfl rfl
  | decode =>
    show SessionOk (decodeBody s).1
    rcases decodeBody_cases s with ⟨-, h⟩ | ⟨-, -, h⟩ | ⟨-, -, -, h⟩ | ⟨-, -, -, f, hf, -, h⟩ | ⟨-, -, -, out, -, -, -, h⟩ <;>
      rw [h] <;> exact SessionOk.of_eq ok rfl rfl rfl rfl rfl rfl rfl rfl

/-! ### The buffers a command leaves -/

theorem BuffersOk.of_eq {s t : State} (ok : BuffersOk s) (h1 : t.params = s.params) (h2 : t.inBuf = s.inBuf)
    (h3 : t.outBuf = s.outBuf) (h4 : t.bitBuf = s.bitBuf) (h5 : t.outLen = s.outLen ∨ t.outLen = 0) : BuffersOk t :=
  ⟨by rw [h1, h2]; exact ok.inBuf, by rw [h1, h3]; exact ok.outBuf, by rw [h1, h4]; exact ok.bitBuf, by
    rcases h5 with h5 | h5
    · rw [h1, h5]; exact ok.outLen
    · rw [h5]; exact Nat.zero_le _⟩

theorem BuffersOk.finish {p : State × Ending} (ok : BuffersOk p.1) : BuffersOk (finish p) := by
  obtain ⟨u, e⟩ := p
  cases e <;> exact BuffersOk.of_eq ok rfl rfl rfl rfl (.inl rfl)

theorem buffersOk_buildBody {s : State} (ok : BuffersOk s) : BuffersOk (buildBody s).1 := by
  rcases buildBody_cases s with ⟨-, h⟩ | ⟨-, -, h⟩ | ⟨-, -, h⟩ <;> rw [h] <;>
    exact BuffersOk.of_eq ok rfl rfl rfl rfl (.inl rfl)

theorem buffersOk_deriveBody {s : State} (ok : BuffersOk s) : BuffersOk (deriveBody s).1 := by
  rcases deriveBody_cases s with ⟨-, h⟩ | ⟨-, h⟩ <;> rw [h] <;> exact BuffersOk.of_eq ok rfl rfl rfl rfl (.inl rfl)

theorem buffersOk_encodeBody {s : State} (hp : wfParams s.params) (ok : BuffersOk s) : BuffersOk (encodeBody s).1 := by
  rcases encodeBody_cases s with ⟨-, h⟩ | ⟨-, -, h⟩ | ⟨-, -, f, hf, -, h⟩ | ⟨-, -, -, hl, h⟩ <;> rw [h]
  · exact BuffersOk.of_eq ok rfl rfl rfl rfl (.inl rfl)
  · exact BuffersOk.of_eq ok rfl rfl rfl rfl (.inl rfl)
  · exact ⟨ok.inBuf, ok.outBuf, ⟨rfl, rfl⟩, ok.outLen⟩
  · refine ⟨ok.inBuf, ok.outBuf, ⟨Memory.wf_writeFrom _ _ _ ok.bitBuf.1, ?_⟩, ok.outLen⟩
    refine Memory.within_writeFrom _ _ _ _ ok.bitBuf.2 ?_
    obtain ⟨-, -, -, -, h32⟩ := hp
    show 0 + _ ≤ s.params.bitCap / 32
    rw [packWords_length, wordsFor]
    omega

theorem buffersOk_decodeBody {s : State} (hp : wfParams s.params) (ok : BuffersOk s) : BuffersOk (decodeBody s).1 := by
  rcases decodeBody_cases s with ⟨-, h⟩ | ⟨-, -, h⟩ | ⟨-, -, -, h⟩ | ⟨-, -, -, f, hf, -, h⟩ | ⟨-, -, -, out, hl, -, -, h⟩ <;>
    rw [h]
  · exact BuffersOk.of_eq ok rfl rfl rfl rfl (.inr rfl)
  · exact BuffersOk.of_eq ok rfl rfl rfl rfl (.inr rfl)
  · exact BuffersOk.of_eq ok rfl rfl rfl rfl (.inr rfl)
  · exact ⟨ok.inBuf, ⟨rfl, rfl⟩, ok.bitBuf, Nat.zero_le _⟩
  · refine ⟨ok.inBuf, ⟨Memory.wf_writeFrom _ _ _ ok.outBuf.1, ?_⟩, ok.bitBuf, ?_⟩
    · exact Memory.within_writeFrom _ _ _ _ ok.outBuf.2 (by show 0 + _ ≤ s.params.outCap; omega)
    · obtain ⟨-, hcap, -⟩ := hp
      show (BitVec.ofNat 32 out.length).toNat ≤ s.params.outCap
      rw [BitVec.toNat_ofNat]
      exact (Nat.mod_le _ _).trans hl

/-- Every command keeps the form of the buffers and their written cells below their capacities. -/
theorem buffersOk_body (i : Instr) {s : State} (hp : wfParams s.params) (ok : BuffersOk s) :
    BuffersOk (Machine.finish (bodyOf i s)) := by
  apply BuffersOk.finish
  cases i with
  | nop => exact ok
  | clear => exact BuffersOk.of_eq ok rfl rfl rfl rfl (.inr rfl)
  | build => exact buffersOk_buildBody ok
  | derive => exact buffersOk_deriveBody ok
  | buildCode =>
    show BuffersOk (buildCodeBody s).1
    rcases buildCodeBody_cases s with ⟨-, -, -, -, h⟩ | ⟨-, h⟩ <;> rw [h]
    · exact buffersOk_buildBody ok
    · exact buffersOk_deriveBody (buffersOk_buildBody ok)
  | encode => exact buffersOk_encodeBody hp ok
  | decode => exact buffersOk_decodeBody hp ok

/-! ### The invariant -/

/-- A command leaves a table only beside a tree (R26). -/
theorem body_table_tree (i : Instr) {s : State} (ok : s.tableValid = true → s.treeValid = true) :
    (Machine.finish (bodyOf i s)).tableValid = true → (Machine.finish (bodyOf i s)).treeValid = true := by
  have hf : ∀ p : State × Ending, (p.1.tableValid = true → p.1.treeValid = true) →
      ((Machine.finish p).tableValid = true → (Machine.finish p).treeValid = true) := by
    rintro ⟨u, _ | _⟩ h <;> exact h
  have hb : (buildBody s).1.tableValid = true → (buildBody s).1.treeValid = true := by
    rcases buildBody_cases s with ⟨-, h⟩ | ⟨-, -, h⟩ | ⟨-, -, h⟩ <;> rw [h] <;> intro h <;> exact absurd h (by simp [dropSession, dropTable])
  have hd : ∀ u : State, (deriveBody u).1.tableValid = true → (deriveBody u).1.treeValid = true := by
    intro u
    rcases deriveBody_cases u with ⟨hv, h⟩ | ⟨hv, h⟩ <;> rw [h]
    · intro h; exact absurd h (by simp [dropTable])
    · intro _; exact hv
  apply hf
  cases i with
  | nop => exact ok
  | clear => exact fun h => absurd h (by simp [bodyOf, clearBody, dropSession, dropTable])
  | build => exact hb
  | derive => exact hd s
  | buildCode =>
    show (buildCodeBody s).1.tableValid = true → _
    rcases buildCodeBody_cases s with ⟨-, -, -, -, h⟩ | ⟨-, h⟩ <;> rw [bodyOf, h]
    · exact hb
    · exact hd _
  | encode =>
    show (encodeBody s).1.tableValid = true → (encodeBody s).1.treeValid = true
    rcases encodeBody_cases s with ⟨-, h⟩ | ⟨-, -, h⟩ | ⟨-, -, f, hf, -, h⟩ | ⟨-, -, -, -, h⟩ <;> rw [h] <;> exact ok
  | decode =>
    show (decodeBody s).1.tableValid = true → (decodeBody s).1.treeValid = true
    rcases decodeBody_cases s with ⟨-, h⟩ | ⟨-, -, h⟩ | ⟨-, -, -, h⟩ | ⟨-, -, -, f, hf, -, h⟩ | ⟨-, -, -, out, -, -, -, h⟩ <;>
      rw [h] <;> exact ok

/-- A command that ends without an error leaves ERR_INFO and ERR_SYM 0, as the accepted CMD write left them (R36). -/
theorem body_clean_info (i : Instr) {s : State} (ok : s.errInfo = 0 ∧ s.errSym = 0) :
    (Machine.finish (bodyOf i s)).errCode = .none → (Machine.finish (bodyOf i s)).errInfo = 0 ∧ (Machine.finish (bodyOf i s)).errSym = 0 := by
  have e := body_info i s
  generalize bodyOf i s = p at e
  obtain ⟨u, _ | _⟩ := p
  · intro _; exact ⟨e.1.trans ok.1, e.2.1.trans ok.2⟩
  · intro h; exact absurd h e.2.2

/-- A command run in a state without an error recorded, as every pending one is (R25), keeps the invariant. -/
theorem inv_body (i : Instr) {s : State} (inv : Inv s) (hc : s.errCode = .none) : Inv (Machine.finish (bodyOf i s)) := by
  have k := finish_body_keeps i s
  refine ⟨by rw [k.params]; exact inv.params, ⟨k.err_iff, fun _ => k.idle, body_table_tree i inv.status.table_tree,
    fun h => by rw [k.idle] at h; simp at h, ?_⟩, sessionOk_body i inv.session, buffersOk_body i inv.params inv.buffers⟩
  exact body_clean_info i (inv.status.clean_info hc)

end Sys2Proof.Machine
end

