-- ==== Sys2Proof/Laws/PerInstr.lean ====
section
/-! SUPPORT. Facts of every command as syntax, one lemma per constructor of `Instr`. -/

namespace Sys2Proof.Laws

/-- The word of a well-formed command has RSV = 0, and its OP field is its opcode, below 0x07 (R90, R92, R94). -/
def WordFields.Statement (i : Instr) : Prop :=
  i.wf = true → rsvField (encode i) = 0 ∧ opField (encode i) = i.opcode ∧ i.opcode.toNat < 7

theorem WordFields.nop : WordFields.Statement .nop := by unfold WordFields.Statement; decide
theorem WordFields.clear : WordFields.Statement .clear := by unfold WordFields.Statement; decide
theorem WordFields.build : WordFields.Statement .build := by unfold WordFields.Statement; decide
theorem WordFields.derive : WordFields.Statement .derive := by unfold WordFields.Statement; decide
theorem WordFields.buildCode : WordFields.Statement .buildCode := by unfold WordFields.Statement; decide
theorem WordFields.encode : WordFields.Statement .encode := by unfold WordFields.Statement; decide
theorem WordFields.decode : WordFields.Statement .decode := by unfold WordFields.Statement; decide

end Sys2Proof.Laws
end

