-- ==== Sys2Proof/Tests/Slice0.lean ====
section
/-! SUPPORT. The model's own tests: the well-formedness smoke tests, the decode tests, at most two one-step tests an instruction
(expected results from the spec's examples and from 95_test_vectors.md), and for every obligation with hypotheses a named
witness that meets all of them. -/

namespace Sys2Proof.Tests

open Sys2Proof.Machine

-- One declaration at a time: the package is compiled as one text, where the waiting threads of many tests would exhaust memory.
set_option Elab.async false

/-! ### Well-formedness: an ill-formed term for each check -/

/-- R5: IN_CAP is 1 to 4096. -/
theorem test_wfInCap : wfInCap 1 ∧ wfInCap 4096 ∧ ¬ wfInCap 0 ∧ ¬ wfInCap 4097 := by decide
/-- R5: OUT_CAP is 1 to 4096. -/
theorem test_wfOutCap : wfOutCap 1 ∧ wfOutCap 4096 ∧ ¬ wfOutCap 0 ∧ ¬ wfOutCap 4097 := by decide
/-- R5: BIT_CAP is a multiple of 32 from 32 to 32768. -/
theorem test_wfBitCap : wfBitCap 32 ∧ wfBitCap 32768 ∧ ¬ wfBitCap 0 ∧ ¬ wfBitCap 33 ∧ ¬ wfBitCap 32800 := by decide
theorem test_wfParams : wfParams Config.defaultParams ∧ ¬ wfParams { Config.defaultParams with outCap := 0 } := by decide
/-- R63: one word is the only access. -/
theorem test_wfHostOp : wfHostOp (.read 0 4) = true ∧ wfHostOp (.read 0 2) = false ∧ wfHostOp (.write 0 1 0) = false ∧
    wfHostOp .wait = true := by decide
/-- R23: the index of a name is one its window has. -/
theorem test_placeWf : (Place.freq 256).wf = false ∧ (Place.nodeFreq 512).wf = false ∧ (Place.nodeLink 512).wf = false ∧
    (Place.codeLen 256).wf = false ∧ (Place.codeBits 0 8).wf = false ∧ (Place.codeBits 256 0).wf = false ∧
    (Place.inBuf 4096).wf = false ∧ (Place.outBuf 4096).wf = false ∧ (Place.bitBuf 1024).wf = false ∧
    (Place.number 65536).wf = false := by decide
/-- The canonical form of a buffer: cells out of order, doubled, or at or past the capacity are refused. -/
theorem test_memoryWf : Memory.wf (w := 8) { draw := 0, cells := [(2, 0), (1, 0)] } = false ∧
    Memory.wf (w := 8) { draw := 0, cells := [(1, 0), (1, 0)] } = false ∧
    Memory.within (w := 8) { draw := 0, cells := [(4, 0)] } 4 = false ∧
    (Memory.wf (w := 8) { draw := 0, cells := [(1, 0), (2, 0)] } = true) := by decide
/-- Every command is well formed (R91). -/
theorem test_instrWf : ∀ i : Instr, i.wf = true := by intro i; cases i <;> rfl

/-! ### Decoding: the words of R92, bit by bit (OP in bits 7:0, RSV in bits 31:8 all 0) -/

theorem test_decode_nop : decode 0b000000000000000000000000_00000000 = .ok .nop := by decide
theorem test_decode_clear : decode 0b000000000000000000000000_00000001 = .ok .clear := by decide
theorem test_decode_build : decode 0b000000000000000000000000_00000010 = .ok .build := by decide
theorem test_decode_derive : decode 0b000000000000000000000000_00000011 = .ok .derive := by decide
theorem test_decode_buildCode : decode 0b000000000000000000000000_00000100 = .ok .buildCode := by decide
theorem test_decode_encode : decode 0b000000000000000000000000_00000101 = .ok .encode := by decide
theorem test_decode_decode : decode 0b000000000000000000000000_00000110 = .ok .decode := by decide
/-- R113: 0x100 is illegal though its OP is NOP's; so are 0x107, 0x07 and 0xFF. -/
theorem test_decode_illegal : decode 0x100 = .error .reservedField ∧ decode 0x107 = .error .reservedField ∧
    decode 0x80000006 = .error .reservedField ∧ decode 0x07 = .error .reservedOpcode ∧
    decode 0xFF = .error .reservedOpcode := by decide
theorem test_decodeTableWord : decodeTableWord 32 4 = some .buildCode ∧ decodeTableWord 32 7 = none ∧
    decodeTableWord 8 6 = some .decode := by decide

/-! ### Small states -/

/-- A small build of the block: every bound of R5 kept, capacities that a test can fill. -/
def tiny : Config.Params := { inCap := 4, outCap := 2, bitCap := 32 }

/-- The small build right after reset. -/
def start : State := State.resetOf tiny

/-- Symbols and their counts, in ascending order. -/
abbrev Counts := List (Byte × Word)

/-- That state with some counts loaded, in the order written (R99). -/
def counts (ps : Counts) : State := { start with freq := ps.foldl (fun v q => putSym v q.1 q.2) start.freq }

/-- Counts a BUILD accepts (R131, R137). -/
abbrev Good (ps : Counts) : Prop :=
  ps ≠ [] ∧ (ps.Pairwise fun a b => a.1.toNat < b.1.toNat) ∧ (∀ q ∈ ps, q.2 ≠ 0) ∧
    (ps.map fun q => q.2.toNat).sum ≤ 2 ^ 32 - 1

/-- What a command leaves. -/
def after (i : Instr) (s : State) : State := finish (bodyOf i s)

theorem exec_after (i : Instr) (s : State) : exec i s = .next (after i s) := exec_eq i s

/-- A state with lengths and buffer cells as a host would have written them. -/
def put (inLen bitLen : Word) (bytes : List (Nat × Byte)) (words : List (Nat × Word)) (s : State) : State :=
  { s with
    inLen := inLen
    bitLen := bitLen
    inBuf := { s.inBuf with cells := bytes }
    bitBuf := { s.bitBuf with cells := words } }

/-- A command word pending. -/
def pending (w : Word) (s : State) : State := acceptCommand w s

theorem look_counts (ps : Counts) (c : Byte) :
    lookSym (counts ps).freq c = ps.foldl (fun x q => if q.1 = c then q.2 else x) 0 := by
  have h : ∀ v : Vector Word 256, lookSym (ps.foldl (fun v q => putSym v q.1 q.2) v) c =
      ps.foldl (fun x q => if q.1 = c then q.2 else x) (lookSym v c) := by
    induction ps with
    | nil => exact fun v => rfl
    | cons q ps ih => intro v; rw [List.foldl_cons, ih, List.foldl_cons, lookSym_putSym]
  rw [counts, h]
  simp [start, State.resetOf]

theorem foldl_pick (ps : Counts) (c : Byte) (x : Word) (hp : ps.Pairwise fun a b => a.1.toNat < b.1.toNat) :
    (∀ q ∈ ps, q.1 = c → ps.foldl (fun x q => if q.1 = c then q.2 else x) x = q.2) ∧
    ((∀ q ∈ ps, q.1 ≠ c) → ps.foldl (fun x q => if q.1 = c then q.2 else x) x = x) := by
  induction ps generalizing x with
  | nil => simp
  | cons p ps ih =>
    rw [List.pairwise_cons] at hp
    refine ⟨fun q hq hc => ?_, fun hne => ?_⟩
    · rw [List.foldl_cons]
      rcases List.mem_cons.1 hq with rfl | hq
      · rw [if_pos hc]
        refine (ih q.2 hp.2).2 fun r hr e => ?_
        have := hp.1 r hr
        rw [e, hc] at this; omega
      · exact (ih _ hp.2).1 q hq hc
    · rw [List.foldl_cons, if_neg (hne p (by simp))]
      exact (ih x hp.2).2 fun r hr => hne r (by simp [hr])

theorem look_counts_mem {ps : Counts} (h : Good ps) {q : Byte × Word} (hq : q ∈ ps) :
    lookSym (counts ps).freq q.1 = q.2 := by
  rw [look_counts, (foldl_pick ps q.1 0 h.2.1).1 q hq rfl]

theorem present_counts {ps : Counts} (h : Good ps) : present (counts ps).freq = ps.map fun q => q.1 := by
  refine present_eq (List.pairwise_map.2 h.2.1) fun c => ?_
  rw [List.mem_map]
  constructor
  · intro hne
    by_contra hc
    push Not at hc
    rw [look_counts] at hne
    exact hne ((foldl_pick ps c 0 h.2.1).2 fun q hq e => hc q hq e)
  · rintro ⟨q, hq, rfl⟩
    rw [look_counts_mem h hq]
    exact h.2.2.1 q hq

/-- The leaves of the counts (R131). -/
def leaves (ps : Counts) : List Node := ps.map fun q => .leaf q.1 q.2

theorem leavesOf_counts {ps : Counts} (h : Good ps) : leavesOf (counts ps).freq = leaves ps := by
  rw [leavesOf_eq, present_counts h, List.map_map]
  apply List.map_congr_left
  intro q hq
  show Node.leaf q.1 _ = _
  rw [look_counts_mem h hq]

/-- The arena of the counts, without the scan of FREQ. -/
def arena (ps : Counts) : List Node := mergeLoop (leaves ps).length (startPool (leaves ps)) (leaves ps)

/-- What BUILD leaves of them, before its `complete`. -/
def tree (ps : Counts) : State :=
  { dropSession (counts ps) with
    nodes := arena ps
    leafCount := BitVec.ofNat 32 (leaves ps).length
    nodeCount := BitVec.ofNat 32 (2 * (leaves ps).length - 1)
    root := BitVec.ofNat 32 (2 * (leaves ps).length - 2)
    totalFreq := BitVec.ofNat 32 (totalOf (leaves ps))
    treeValid := true }

/-- What BUILD leaves, and what BUILD_CODE leaves. -/
def built (ps : Counts) : State := complete (tree ps)
def coded (ps : Counts) : State :=
  complete { dropTable (tree ps) with
    code := tableOf (arena ps) (tree ps).leafCount.toNat (tree ps).nodeCount.toNat (tree ps).root.toNat
    tableValid := true }

theorem buildBody_counts {ps : Counts} (h : Good ps) : buildBody (counts ps) = (tree ps, .complete) := by
  have hne : (leaves ps).length ≠ 0 := by simpa [leaves] using h.1
  have hs : ¬ totalOf (leaves ps) > 2 ^ 32 - 1 := by
    have : totalOf (leaves ps) = (ps.map fun q => q.2.toNat).sum := by
      rw [totalOf, leaves, List.map_map]; rfl
    rw [this]; exact Nat.not_lt.2 h.2.2.2
  unfold buildBody arenaOf
  rw [leavesOf_counts h, if_neg hne, if_neg hs, tree, arena]

theorem after_build {ps : Counts} (h : Good ps) : after .build (counts ps) = built ps := by
  rw [after, bodyOf, buildBody_counts h]; rfl

theorem after_buildCode {ps : Counts} (h : Good ps) : after .buildCode (counts ps) = coded ps := by
  rw [after, bodyOf, buildCodeBody, buildBody_counts h]
  show finish (deriveBody (tree ps)) = coded ps
  rw [deriveBody, if_pos (show (tree ps).treeValid = true from rfl), coded]
  rfl

/-! The states the tests and the witnesses use. -/

/-- 'a' twice and 'b' three times: leaves 0 and 1 under node 2 = Internal(1, 0), codes a = [1] and b = [0]. -/
def two : Counts := [(0x61, 2), (0x62, 3)]
/-- One of each. -/
def pair : Counts := [(0x61, 1), (0x62, 1)]
/-- L2-B5: a, b and c, two, three and four times: node 3 = Internal(1, 0) and node 4 = Internal(3, 2). -/
def tri : Counts := [(0x61, 2), (0x62, 3), (0x63, 4)]
/-- One symbol (R136). -/
def one : Counts := [(0x61, 4)]
/-- "abracadabra" (R143). -/
def abra : Counts := [(0x61, 5), (0x62, 2), (0x63, 1), (0x64, 1), (0x72, 2)]

theorem two_good : Good two := ⟨by simp [two], by simp [two], by simp [two], by simp [two]⟩
theorem pair_good : Good pair := ⟨by simp [pair], by simp [pair], by simp [pair], by simp [pair]⟩
theorem tri_good : Good tri := ⟨by simp [tri], by simp [tri], by simp [tri], by simp [tri]⟩
theorem one_good : Good one := ⟨by simp [one], by simp [one], by simp [one], by simp [one]⟩
theorem abra_good : Good abra := ⟨by simp [abra], by simp [abra], by simp [abra], by simp [abra]⟩

theorem present_start : present start.freq = [] := by simp [present, start, State.resetOf]

/-- What a test reads of a state: STATUS, ERR_INFO and ERR_SYM. -/
def outcome (s : State) : Word × Word × Byte := (s.statusWord, s.errInfo, s.errSym)

/-! ### One step of each command -/

/-- R111: from reset, `EXEC NOP` ends with STATUS = 0x2. -/
theorem test_nop : outcome (after .nop start) = (0x2, 0, 0) := by decide +kernel
/-- R112: after a BUILD_CODE, CLEAR gives STATUS = 0x2 and zeros. -/
theorem test_clear : outcome (after .clear (coded abra)) = (0x2, 0, 0) ∧
    readRegion (after .clear (coded abra)) (.freq 0x61) = 0 ∧
    readRegion (after .clear (coded abra)) (.codeLen 0x61) = 0 ∧
    readRegion (after .clear (coded abra)) (.nodeLink 0) = 0 := by decide +kernel
/-- L2-B3: a tie puts the later symbol left: node 2 is Internal(1, 0, 2). -/
theorem test_build_tie : (after .build (counts pair)).nodes = [.leaf 0x61 1, .leaf 0x62 1, .internal 1 0 2] := by
  rw [after_build pair_good]; decide +kernel
/-- R143: the worked merge trace, in the words of the windows. -/
theorem test_build_trace : ([5, 6, 7, 8].map fun i => (readRegion (after .build (counts abra)) (.nodeLink i),
      readRegion (after .build (counts abra)) (.nodeFreq i))) =
    [(0x30002, 2), (0x40001, 4), (0x60005, 6), (0x70000, 11)] := by
  rw [after_build abra_good]; decide +kernel
/-- R158: the worked table. -/
theorem test_derive : (after .derive (built abra)).statusWord = 0x30002 ∧
    [0x61, 0x62, 0x63, 0x64, 0x72].map (lookSym (after .derive (built abra)).code) =
      [[true], [false, false, true], [false, true, true], [false, true, false], [false, false, false]] := by decide +kernel
/-- R155: EMPTY_TREE. -/
theorem test_derive_empty : outcome (after .derive start) = (0x406, 0, 0) := by decide +kernel
/-- R156: FREQ = (0x61: 4) gives STATUS = 0x00030002 and a one-bit code 0. -/
theorem test_buildCode : let s := after .buildCode (counts one)
    s.statusWord = 0x30002 ∧ s.leafCount = 1 ∧ s.nodeCount = 1 ∧ s.root = 0 ∧
    readRegion s (.codeLen 0x61) = 1 ∧ readRegion s (.codeBits 0x61 0) = 0 := by
  rw [after_buildCode one_good]; decide +kernel
/-- L2-B5: the codes' windows. -/
theorem test_buildCode_tri : ([0x61, 0x62, 0x63].map fun c => readRegion (after .buildCode (counts tri)) (.codeLen c)) =
    [2, 2, 1] := by
  rw [after_buildCode tri_good]; decide +kernel
/-- R171: a b = 1 0; the rest of the word is padding (R174). -/
theorem test_encode : let s := after .encode (put 2 0 [(0, 0x61), (1, 0x62)] [(0, 0xFFFFFFFF)] (coded two))
    s.statusWord = 0x30002 ∧ s.bitLen = 2 ∧ s.bitBuf.read 0 = 1 := by decide +kernel
/-- R172 item 3: the first missing symbol, at index 1. -/
theorem test_encode_missing : outcome (after .encode (put 2 0 [(0, 0x61), (1, 0x7A)] [] (coded two))) =
    (0x30206, 1, 0x7A) := by decide +kernel
/-- R190: 1 0 is a b. -/
theorem test_decode : let s := after .decode (put 0 2 [] [(0, 1)] (coded two))
    s.statusWord = 0x30002 ∧ s.outLen = 2 ∧ s.outBuf.read 0 = 0x61 ∧ s.outBuf.read 1 = 0x62 := by decide +kernel
/-- R192 item 4: a 1 bit under a one-leaf tree is FRAMING at its own position. -/
theorem test_decode_framing : outcome (after .decode (put 0 3 [] [(0, 2)] (coded one))) = (0x30306, 1, 0) := by
  decide +kernel
/-- R113: 0x107 then WAIT gives STATUS = 0x806 and ERR_INFO = 0x107. -/
theorem test_illegal : step (pending 0x107 start) = .next (finish (illegalBody (pending 0x107 start))) ∧
    outcome (finish (illegalBody (pending 0x107 start))) = (0x806, 0x107, 0) := ⟨rfl, by decide +kernel⟩
/-- L2-H1: a write before the engine step is lost and sets HAZ. -/
theorem test_busyWrite : (portWrite 0x0141 9 (pending 0 start)).haz = true ∧
    lookSym (portWrite 0x0141 9 (pending 0 start)).freq 0x41 = 0 := by decide +kernel
/-- `withFetchWord` puts the word where the very next step runs it. -/
theorem test_withFetchWord : step (State.reset.withFetchWord 32 4) = exec .buildCode (acceptCommand 4 State.reset) := rfl

/-! ### The invariant holds of these states -/

theorem inv_start : Inv start where
  params := by decide
  status := ⟨by simp [start, State.resetOf], by simp [start, State.resetOf], by simp [start, State.resetOf],
    by simp [start, State.resetOf], by simp [start, State.resetOf]⟩
  session := ⟨fun _ => ⟨rfl, rfl, rfl, rfl, rfl⟩, fun h => absurd h (by simp [start, State.resetOf]),
    fun _ c => by simp [start, State.resetOf], fun h => absurd h (by simp [start, State.resetOf])⟩
  buffers := ⟨⟨rfl, rfl⟩, ⟨rfl, rfl⟩, ⟨rfl, rfl⟩, Nat.zero_le _⟩

theorem inv_counts (ps : Counts) : Inv (counts ps) :=
  ⟨inv_start.params, ⟨inv_start.status.1, inv_start.status.2, inv_start.status.3, inv_start.status.4, inv_start.status.5⟩,
    inv_start.session.of_eq rfl rfl rfl rfl rfl rfl rfl rfl, inv_start.buffers.of_eq rfl rfl rfl rfl (.inl rfl)⟩

theorem inv_built {ps : Counts} (h : Good ps) : Inv (built ps) := by
  rw [← after_build h]; exact inv_body .build (inv_counts ps) rfl

theorem inv_coded {ps : Counts} (h : Good ps) : Inv (coded ps) := by
  rw [← after_buildCode h]; exact inv_body .buildCode (inv_counts ps) rfl

theorem inv_put {s : State} (h : Inv s) (inLen bitLen : Word) {bytes : List (Nat × Byte)} {words : List (Nat × Word)}
    (h1 : cellsRise none bytes = true) (h2 : cellsBelow s.params.inCap bytes = true) (h3 : cellsRise none words = true)
    (h4 : cellsBelow (s.params.bitCap / 32) words = true) : Inv (put inLen bitLen bytes words s) :=
  ⟨h.params, ⟨h.status.1, h.status.2, h.status.3, h.status.4, h.status.5⟩, h.session.of_eq rfl rfl rfl rfl rfl rfl rfl rfl,
    ⟨⟨h1, h2⟩, h.buffers.outBuf, ⟨h3, h4⟩, h.buffers.outLen⟩⟩

/-! The nodes of the three-leaf tree, by name. -/

theorem tri_arena : arena tri =
    [.leaf 0x61 2, .leaf 0x62 3, .leaf 0x63 4, .internal 1 0 5, .internal 3 2 9] := by decide +kernel
theorem two_arena : arena two = [.leaf 0x61 2, .leaf 0x62 3, .internal 1 0 5] := by decide +kernel

theorem tri_leaf (s : State) (h : s.nodes = arena tri) :
    LeafAt s.nodes 0 0x61 ∧ LeafAt s.nodes 1 0x62 ∧ LeafAt s.nodes 2 0x63 := by
  rw [h, tri_arena]; exact ⟨⟨2, rfl⟩, ⟨3, rfl⟩, ⟨4, rfl⟩⟩
theorem tri_internal (s : State) (h : s.nodes = arena tri) :
    InternalAt s.nodes 3 1 0 ∧ InternalAt s.nodes 4 3 2 := by
  rw [h, tri_arena]; exact ⟨⟨5, rfl⟩, ⟨9, rfl⟩⟩
/-- The root-to-leaf paths: a = 0 1, b = 0 0, c = 1, and 0 stops at node 3 (L2-B5). -/
theorem tri_paths (s : State) (h : s.nodes = arena tri) :
    IsPath s.nodes 4 [false] 3 ∧ IsPath s.nodes 4 [false, true] 0 ∧ IsPath s.nodes 4 [false, false] 1 ∧
      IsPath s.nodes 4 [true] 2 :=
  have hi := tri_internal s h
  ⟨IsPath.left .root hi.2, IsPath.right (IsPath.left .root hi.2) hi.1, IsPath.left (IsPath.left .root hi.2) hi.1,
    IsPath.right .root hi.2⟩

/-! ### Witnesses: for each obligation with hypotheses, a state and operands that meet all of them -/

theorem witness_IllegalWordsClassified : (0x100#32).toNat / 256 ≠ 0 ∧ (0xFFFFFFFF#32).toNat / 256 ≠ 0 ∧
    ((0x07#32).toNat / 256 = 0 ∧ 7 ≤ (0x07#32).toNat) ∧ ((0xFF#32).toNat / 256 = 0 ∧ 7 ≤ (0xFF#32).toNat) ∧
    (0x06#32).toNat < 7 := by decide

theorem witness_AddressMapDecodes :
    [Place.id, .bitCap, .freq 0, .freq 255, .nodeFreq 511, .nodeLink 511, .codeLen 255, .codeBits 255 7, .inBuf 3, .inBuf 4,
      .inBuf 4095, .outBuf 2, .bitBuf 0, .bitBuf 1, .bitBuf 1023, .number 0x000F, .number 0x0700, .number 0x3400,
      .number 0xFFFF].all Place.wf = true ∧
    regionOf tiny 0x1003 = .inBuf 3 ∧ regionOf tiny 0x1004 = .reserved ∧
    (0x000F ≤ (0x000F : Addr).toNat ∧ (0x000F : Addr).toNat ≤ 0x00FF) ∧ 0x3400 ≤ (0xFFFF : Addr).toNat := by decide +kernel

theorem witness_HardResetAnyTime : nextAgent { pending 2 (counts two) with sched := [.reset] } = .reset := rfl

theorem witness_StepKeepsInv : Inv (coded tri) ∧ step (coded tri) = .next (coded tri) :=
  ⟨inv_coded tri_good, rfl⟩

theorem witness_FreeValuesStayFresh : DrawsOk State.reset ∧ step State.reset = .next State.reset :=
  ⟨⟨by decide, by decide, by decide, by decide, by decide, by decide⟩, rfl⟩

theorem witness_StepRunsDecodedCommand : (pending 2 (counts two)).busy = true ∧
    nextAgent (pending 2 (counts two)) = .engine ∧ decode (pending 2 (counts two)).cmdLatch = .ok .build :=
  ⟨rfl, rfl, by decide⟩

theorem witness_StepRunsIllegalWord : (pending 0x107 start).busy = true ∧ nextAgent (pending 0x107 start) = .engine ∧
    decode (pending 0x107 start).cmdLatch = .error .reservedField ∧
    decode (pending 0x07 start).cmdLatch = .error .reservedOpcode := ⟨rfl, rfl, by decide, by decide⟩

theorem witness_FreeInterleaving : start.busy = false := rfl

theorem witness_PendingCommandCompletes : (pending 5 start).busy = true ∧ (pending 5 start).sched = [] := ⟨rfl, rfl⟩

/-- HAZ goes from 1 to 0 by CLEAR, and by reset. -/
theorem witness_HazClearedOnlyByClearOrReset :
    (let s := { pending 1 start with haz := true };
      step s = .next (after .clear s) ∧ s.haz = true ∧ (after .clear s).haz = false) ∧
    (let s := { start with haz := true, sched := [.reset] };
      step s = .next (hardReset s.popSched) ∧ s.haz = true ∧ (hardReset s.popSched).haz = false) :=
  ⟨⟨rfl, rfl, rfl⟩, rfl, rfl, rfl⟩

/-- FREQ[0x61] changes by reset, by CLEAR and by a host write. -/
theorem witness_FreqWrittenOnlyByHostClearReset :
    (let s := { counts one with sched := [.reset] };
      step s = .next (hardReset s.popSched) ∧ lookSym (hardReset s.popSched).freq 0x61 ≠ lookSym s.freq 0x61) ∧
    (let s := pending 1 (counts one);
      step s = .next (after .clear s) ∧ lookSym (after .clear s).freq 0x61 ≠ lookSym s.freq 0x61) ∧
    (let s := { start with program := [.write 0x0161 4 9] };
      step s = .next (portWrite 0x0161 9 s.popSched.popHost) ∧
      lookSym (portWrite 0x0161 9 s.popSched.popHost).freq 0x61 ≠ lookSym s.freq 0x61) :=
  ⟨⟨rfl, by decide +kernel⟩, ⟨rfl, by decide +kernel⟩, rfl, by decide +kernel⟩

theorem witness_InBufWrittenOnlyByHost :
    let s := { put 0 0 [(3, 1)] [] start with program := [.write 0x1003 4 0x102] }
    step s = .next (portWrite 0x1003 0x102 s.popSched.popHost) ∧ nextAgent s ≠ .reset ∧
      (portWrite 0x1003 0x102 s.popSched.popHost).inBuf.read 3 ≠ s.inBuf.read 3 := ⟨rfl, by decide, by decide +kernel⟩

/-- The arena changes by reset, BUILD, BUILD_CODE and CLEAR. -/
theorem witness_ArenaChangedOnlyByTreeCommands :
    (let s := { coded two with sched := [.reset] };
      step s = .next (hardReset s.popSched) ∧ (hardReset s.popSched).nodes ≠ s.nodes) ∧
    (step (pending 2 (counts two)) = .next (after .build (pending 2 (counts two))) ∧
      (after .build (pending 2 (counts two))).nodes ≠ (pending 2 (counts two)).nodes) ∧
    (step (pending 4 (coded two)) = .next (after .buildCode (pending 4 (coded two))) ∧
      step (pending 1 (coded two)) = .next (after .clear (pending 1 (coded two))) ∧
      (after .clear (pending 1 (coded two))).nodes ≠ (pending 1 (coded two)).nodes) := by
  have h : (after .build (pending 2 (counts two))).nodes = arena two :=
    congrArg State.nodes (after_build two_good)
  have e : (coded two).nodes ≠ [] := by show arena two ≠ []; rw [two_arena]; simp
  refine ⟨⟨rfl, e.symm⟩, ⟨rfl, ?_⟩, rfl, rfl, e.symm⟩
  rw [h, two_arena]
  exact List.cons_ne_nil _ _

/-- An idle read of a register; and, in the same build, the ends of the windows and of the reserved addresses. -/
theorem witness_IdleReadHasNoSideEffect :
    let s := { coded two with program := [.read 0x000B 4] }
    s.busy = false ∧ nextAgent s = .host ∧ s.program = .read 0x000B 4 :: [] ∧
      (0x0100#16).toNat = 0x0100 + (0x00#8).toNat ∧ (0x01FF#16).toNat = 0x0100 + (0xFF#8).toNat ∧
      (0 < s.params.inCap ∧ 0 < 0x1000 ∧ (0x1000#16).toNat = 0x1000 + 0) ∧
      (3 < s.params.inCap ∧ 3 < 0x1000 ∧ (0x1003#16).toNat = 0x1000 + 3) ∧
      (0 < s.params.outCap ∧ 0 < 0x1000 ∧ (0x2000#16).toNat = 0x2000 + 0) ∧
      (1 < s.params.outCap ∧ 1 < 0x1000 ∧ (0x2001#16).toNat = 0x2000 + 1) ∧
      (0 < s.params.bitCap / 32 ∧ 0 < 0x0400 ∧ (0x3000#16).toNat = 0x3000 + 0) ∧
      regionOf s.params 0x0700 = .reserved ∧ regionOf s.params 0xFFFF = .reserved :=
  ⟨rfl, rfl, rfl, by decide, by decide, by decide, by decide, by decide, by decide, by decide, rfl, rfl⟩

/-- Reads while BUSY, one for each register whose value is defined. -/
theorem witness_BusyReads :
    let s := { pending 2 (counts two) with program := [.read 0x0000 4], sched := [.host] }
    s.busy = true ∧ nextAgent s = .host ∧ s.program = .read 0x0000 4 :: [] ∧
      regionOf s.params 0x0000 = .id ∧ regionOf s.params 0x0001 = .cmd ∧ regionOf s.params 0x0002 = .status ∧
      regionOf s.params 0x000C = .inCap ∧ regionOf s.params 0x000D = .outCap ∧ regionOf s.params 0x000E = .bitCap :=
  ⟨rfl, rfl, rfl, rfl, rfl, rfl, rfl, rfl, rfl⟩

theorem witness_CommandWriteAccepted :
    let s := { start with program := [.write 0x0001 4 0x107] }
    s.busy = false ∧ nextAgent s = .host ∧ s.program = .write 0x0001 4 0x107 :: [] ∧ regionOf s.params 0x0001 = .cmd :=
  ⟨rfl, rfl, rfl, rfl⟩

/-- Idle writes: to each kind of RW storage at the ends of its window, to a read-only register, and to a reserved address. -/
theorem witness_IdleWritesStore :
    let s := { start with program := [.write 0x0003 4 5] }
    s.busy = false ∧ nextAgent s = .host ∧ s.program = .write 0x0003 4 5 :: [] ∧
      ([0x0003, 0x0004, 0x0100, 0x01FF, 0x1000, 0x1003, 0x3000, 0x0000, 0x0002, 0x2000, 0x0700, 0x1004, 0xFFFF].map
        fun a => decide (regionOf s.params (BitVec.ofNat 16 a) ≠ .cmd)).all id = true := ⟨rfl, rfl, rfl, by decide⟩

theorem witness_BusyWriteSetsHaz :
    let s := { pending 0 start with program := [.write 0x0141 4 9], sched := [.host] }
    s.busy = true ∧ nextAgent s = .host ∧ s.program = .write 0x0141 4 9 :: [] := ⟨rfl, rfl, rfl⟩

theorem witness_WaitPollsStatus :
    (let s := { pending 0 start with program := [.wait], sched := [.host] };
      nextAgent s = .host ∧ s.program = .wait :: [] ∧ s.busy = true) ∧
    (let s := { start with program := [.wait] };
      nextAgent s = .host ∧ s.program = .wait :: [] ∧ s.busy = false) := ⟨⟨rfl, rfl, rfl⟩, rfl, rfl, rfl⟩

theorem witness_OtherAccessSizesRefused :
    (let s := { start with program := [.read 0x0003 2] };
      nextAgent s = .host ∧ 2 ≠ 4 ∧ s.program = .read 0x0003 2 :: []) ∧
    (let s := { start with program := [.write 0x0003 8 1] };
      nextAgent s = .host ∧ 8 ≠ 4 ∧ s.program = .write 0x0003 8 1 :: []) :=
  ⟨⟨rfl, by decide, rfl⟩, rfl, by decide, rfl⟩

/-- A disciplined host: `CMD BUILD`, a read of STATUS while it is pending, `WAIT`, and then a read of ROOT. -/
theorem witness_DisciplinedHostIsSafe :
    let s := { start with program := [.write 0x0001 4 2, .read 0x0002 4, .wait, .read 0x0008 4] }
    let t := { pending 2 start with program := [.read 0x0002 4, .wait, .read 0x0008 4], sched := [.host] }
    KeepsDiscipline s ∧ step s = .next (portWrite 0x0001 2 s.popSched.popHost) ∧ s.haz = false ∧
      KeepsDiscipline t ∧ step t = .next (portRead 0x0002 t.popSched.popHost) ∧ t.haz = false ∧ t.busy = true ∧
      nextAgent t = .host ∧ t.program = .read 0x0002 4 :: [.wait, .read 0x0008 4] :=
  ⟨(rfl : disciplined _ _ _ = true), rfl, rfl, (rfl : disciplined _ _ _ = true), rfl, rfl, rfl, rfl, rfl⟩

theorem witness_ExecLineRunsCommand :
    let s := { counts two with program := (Line.exec .buildCode (some 0x30002)).expand ++ [HostOp.read 0x0008 4] }
    s.busy = false ∧ s.sched = [] ∧
      s.program = (Line.exec .buildCode (some 0x30002)).expand ++ [HostOp.read 0x0008 4] := ⟨rfl, rfl, rfl⟩

/-- A leaf, an internal node, and the first and last indices past NODE_COUNT. -/
theorem witness_NodeWindowsRead : Inv (coded tri) ∧ LeafAt (coded tri).nodes 2 0x63 ∧ InternalAt (coded tri).nodes 3 1 0 ∧
    InternalAt (coded tri).nodes 4 3 2 ∧ (coded tri).nodeCount.toNat ≤ 5 ∧ (coded tri).nodeCount.toNat ≤ 511 :=
  ⟨inv_coded tri_good, (tri_leaf _ rfl).2.2, (tri_internal _ rfl).1, (tri_internal _ rfl).2, by decide +kernel,
    by decide +kernel⟩

theorem witness_CodeWindowsRead : Inv (coded tri) ∧ 0 < 32 ∧ 31 < 32 := ⟨inv_coded tri_good, by decide, by decide⟩

theorem witness_BuildCompletes : present (counts tri).freq ≠ [] ∧ freqSum (counts tri).freq ≤ 2 ^ 32 - 1 := by
  rw [← totalOf_leavesOf, leavesOf_counts tri_good, present_counts tri_good]
  exact ⟨by simp [tri], by simp [leaves, tri, totalOf, Node.freq]⟩

/-- A sum of 2^32 − 1, the last that fits. -/
def full : Counts := [(0x00, 0xFFFFFFFE), (0x01, 1)]
theorem full_good : Good full := ⟨by simp [full], by simp [full], by simp [full], by simp [full]⟩
theorem witness_BuildCompletes_full : present (counts full).freq ≠ [] ∧ freqSum (counts full).freq = 2 ^ 32 - 1 := by
  rw [← totalOf_leavesOf, leavesOf_counts full_good, present_counts full_good]
  exact ⟨by simp [full], by simp [leaves, full, totalOf, Node.freq]⟩

/-- No symbol present; and one count alone that, with a 1 beside it, is a sum of 2^32. -/
theorem witness_BuildErrors : present start.freq = [] := present_start
theorem witness_BuildErrors_overflow : ∃ s : State, present s.freq ≠ [] ∧ freqSum s.freq > 2 ^ 32 - 1 := by
  refine ⟨{ start with freq := putSym (putSym start.freq 0x00 0xFFFFFFFF) 0x01 1 }, ?_⟩
  have hp : present (putSym (putSym start.freq 0x00 0xFFFFFFFF) 0x01 1) = [0x00, 0x01] := by
    refine present_eq (by simp) fun c => ?_
    simp only [lookSym_putSym, start, State.resetOf, lookSym_replicate, List.mem_cons, List.not_mem_nil, or_false]
    revert c
    decide +kernel
  refine ⟨by rw [hp]; simp, ?_⟩
  rw [← totalOf_leavesOf, leavesOf_eq, hp]
  simp [totalOf, Node.freq, lookSym_putSym]

/-- The first merge of the three-leaf tree leaves node 2 in the pool. -/
theorem witness_BuildMergesTwoLeastKeys : exec .build (counts tri) = .next (built tri) ∧ (built tri).treeValid = true ∧
    InternalAt (built tri).nodes 3 1 0 ∧ InPool (built tri).nodes 3 2 ∧ 2 ≠ 1 ∧ 2 ≠ 0 := by
  refine ⟨by rw [← after_build tri_good]; exact exec_after _ _, rfl, (tri_internal _ rfl).1, ⟨by decide, ?_⟩, by decide,
    by decide⟩
  rintro p hp ⟨l, r, ⟨f, hf⟩, -⟩
  have hf : (arena tri)[p]? = some (.internal l r f) := hf
  rw [tri_arena] at hf
  interval_cases p <;> simp at hf

theorem witness_InternalFrequenciesNeverDecrease : exec .build (counts tri) = .next (built tri) ∧
    (built tri).treeValid = true ∧ (built tri).leafCount.toNat ≤ 3 ∧ 3 < 4 ∧ 4 ≤ (built tri).root.toNat :=
  ⟨by rw [← after_build tri_good]; exact exec_after _ _, rfl, by decide +kernel, by decide, by decide +kernel⟩

theorem witness_NodeFrequenciesFit : Inv (built tri) ∧ (built tri).treeValid = true ∧ InternalAt (built tri).nodes 4 3 2 :=
  ⟨inv_built tri_good, rfl, (tri_internal _ rfl).2⟩

theorem witness_BuildOneSymbol : present (counts one).freq = [0x61] := by rw [present_counts one_good]; rfl

theorem witness_BuildIsDeterminedByFreq :
    (∀ c, lookSym (counts two).freq c = lookSym { counts two with haz := true, inLen := 3 }.freq c) ∧
    exec .build (counts two) = .next (built two) ∧ exec .derive (built two) = .next (after .derive (built two)) ∧
    ∃ t u, exec .build { counts two with haz := true, inLen := 3 } = .next t ∧ exec .derive t = .next u :=
  ⟨fun _ => rfl, by rw [← after_build two_good]; exact exec_after _ _, exec_after _ _,
    _, _, exec_after _ _, exec_after _ _⟩

theorem witness_DeriveCompletes : Inv (built tri) ∧ (built tri).treeValid = true := ⟨inv_built tri_good, rfl⟩
theorem witness_DeriveWithoutTree : start.treeValid = false := rfl

/-- A table of three codes, and the table of one. -/
theorem witness_TableIsPrefixFree : Inv (coded tri) ∧ (coded tri).tableValid = true ∧ lookSym (coded tri).code 0x61 ≠ [] ∧
    Inv (coded one) ∧ (coded one).tableValid = true ∧ (coded one).leafCount.toNat = 1 :=
  ⟨inv_coded tri_good, rfl, by decide +kernel, inv_coded one_good, rfl, by decide +kernel⟩

theorem witness_KraftSumIsOne : Inv (coded two) ∧ (coded two).tableValid = true ∧ 2 ≤ (coded two).leafCount.toNat :=
  ⟨inv_coded two_good, rfl, by decide +kernel⟩

/-- One run that raises, and one that does not. -/
theorem witness_BuildCodeIsBuildThenDerive :
    (exec .build start = .next (after .build start) ∧ exec .buildCode start = .next (after .buildCode start) ∧
      (after .build start).err = true) ∧
    (exec .build (counts two) = .next (built two) ∧ exec .buildCode (counts two) = .next (coded two) ∧
      (built two).err = false) :=
  ⟨⟨exec_after _ _, exec_after _ _, by decide +kernel⟩, by rw [← after_build two_good]; exact exec_after _ _,
    by rw [← after_buildCode two_good]; exact exec_after _ _, rfl⟩

theorem witness_BuildCodeCompletes : present (counts one).freq ≠ [] ∧ freqSum (counts one).freq ≤ 2 ^ 32 - 1 := by
  rw [← totalOf_leavesOf, leavesOf_counts one_good, present_counts one_good]
  exact ⟨by simp [one], by simp [leaves, one, totalOf, Node.freq]⟩

theorem witness_MoreFrequentNotLonger : exec .buildCode (counts tri) = .next (coded tri) ∧
    (coded tri).tableValid = true ∧ 2 ≤ (coded tri).leafCount.toNat ∧
    (lookSym (counts tri).freq 0x61).toNat < (lookSym (counts tri).freq 0x63).toNat ∧
    lookSym (counts tri).freq 0x61 ≠ 0 := by
  refine ⟨by rw [← after_buildCode tri_good]; exact exec_after _ _, rfl, by decide +kernel, ?_, ?_⟩
  · rw [look_counts, look_counts]; decide
  · rw [look_counts]; decide

/-- Two symbols to encode; and IN_LEN = IN_CAP. -/
theorem witness_EncodeCompletes :
    let s := put 4 0 [(0, 0x61), (1, 0x62), (2, 0x61), (3, 0x62)] [] (coded two)
    wfParams s.params ∧ 1 ≤ s.inLen.toNat ∧ s.inLen.toNat ≤ s.params.inCap ∧ (∀ c ∈ bytesIn s, lookSym s.code c ≠ []) ∧
      (codesOf s.code (bytesIn s)).length ≤ s.params.bitCap :=
  ⟨by decide, by decide, by decide, by decide +kernel, by decide +kernel⟩

theorem witness_EncodeLengthErrors :
    (let s := put 5 0 [] [] start;
      s.inLen.toNat > s.params.inCap) ∧ (let s := put 0 0 [] [] start;
      s.inLen = 0) := ⟨by decide, rfl⟩

/-- A missing symbol at index 1; and codes of 11 bits, of which two fit BIT_CAP = 32 and the third, at index 2, makes 33. -/
theorem witness_EncodeSymbolErrors :
    (let s := put 2 0 [(0, 0x61), (1, 0x7A)] [] (coded two);
      s.inLen.toNat ≤ s.params.inCap ∧ (bytesIn s)[1]? = some 0x7A ∧ (∀ d ∈ (bytesIn s).take 1, lookSym s.code d ≠ []) ∧
      (codesOf s.code ((bytesIn s).take 1)).length ≤ s.params.bitCap ∧ lookSym s.code 0x7A = []) ∧
    (let s := put 3 0 [(0, 0x61), (1, 0x61), (2, 0x61)] []
        { start with code := putSym emptyTable 0x61 (List.replicate 11 true) };
      s.inLen.toNat ≤ s.params.inCap ∧ (bytesIn s)[2]? = some 0x61 ∧ (∀ d ∈ (bytesIn s).take 2, lookSym s.code d ≠ []) ∧
      (codesOf s.code ((bytesIn s).take 2)).length ≤ s.params.bitCap ∧
      (codesOf s.code ((bytesIn s).take 3)).length = s.params.bitCap + 1) :=
  ⟨⟨by decide, by decide +kernel, by decide +kernel, by decide +kernel, by decide +kernel⟩, by decide, by decide +kernel,
    by decide +kernel, by decide +kernel, by decide +kernel⟩

theorem witness_EncodeWithoutTable :
    let s := put 1 0 [(0, 0x61)] [] (built two)
    Inv s ∧ s.tableValid = false ∧ 1 ≤ s.inLen.toNat ∧ s.inLen.toNat ≤ s.params.inCap :=
  ⟨inv_put (inv_built two_good) 1 0 rfl rfl rfl rfl, rfl, by decide, by decide⟩

/-- The three-leaf tree, without a table, and the bits of a then c: 0 1 1. OUT_CAP is 2, so the output fills it. -/
theorem witness_DecodeCompletes :
    let s := put 0 3 [] [(0, 6)] (built tri)
    let out : List (Byte × Bits) := [(0x61, [false, true]), (0x63, [true])]
    Inv s ∧ s.treeValid = true ∧ 2 ≤ s.leafCount.toNat ∧ 1 ≤ s.bitLen.toNat ∧ s.bitLen.toNat ≤ s.params.bitCap ∧
      (∀ q ∈ out, ∃ n, LeafAt s.nodes n q.1 ∧ IsPath s.nodes s.root.toNat q.2 n) ∧
      bitsIn s = out.flatMap (fun q => q.2) ∧ out.length ≤ s.params.outCap := by
  intro s out
  have hr : s.root.toNat = 4 := by decide +kernel
  refine ⟨inv_put (inv_built tri_good) 0 3 rfl rfl rfl rfl, rfl, by decide +kernel, by decide, by decide, ?_,
    by decide +kernel, by decide⟩
  intro q hq
  rw [hr]
  rcases List.mem_cons.1 hq with rfl | hq
  · exact ⟨0, (tri_leaf s rfl).1, (tri_paths s rfl).2.1⟩
  · rcases List.mem_cons.1 hq with rfl | hq
    · exact ⟨2, (tri_leaf s rfl).2.2, (tri_paths s rfl).2.2.2⟩
    · exact absurd hq (by simp)

/-- Two 0 bits, OUT_CAP of them; 0 0 1, the 1 bit at index OUT_CAP; and three 0 bits, OUT_CAP + 1 of them. -/
theorem witness_DecodeOneLeaf :
    (let s := put 0 2 [] [(0, 0)] (coded one);
      Inv s ∧ s.treeValid = true ∧ s.leafCount = 1 ∧ LeafAt s.nodes 0 0x61 ∧ 1 ≤ s.bitLen.toNat ∧
      s.bitLen.toNat ≤ s.params.bitCap ∧ (∀ b ∈ bitsIn s, b = false) ∧ s.bitLen.toNat ≤ s.params.outCap) ∧
    (let s := put 0 3 [] [(0, 4)] (coded one);
      Inv s ∧ s.treeValid = true ∧ s.leafCount = 1 ∧ LeafAt s.nodes 0 0x61 ∧ 1 ≤ s.bitLen.toNat ∧
      s.bitLen.toNat ≤ s.params.bitCap ∧ (bitsIn s)[2]? = some true ∧ (∀ b ∈ (bitsIn s).take 2, b = false) ∧
      2 ≤ s.params.outCap) ∧
    (let s := put 0 3 [] [(0, 0)] (coded one);
      Inv s ∧ s.treeValid = true ∧ s.leafCount = 1 ∧ LeafAt s.nodes 0 0x61 ∧ 1 ≤ s.bitLen.toNat ∧
      s.bitLen.toNat ≤ s.params.bitCap ∧ s.params.outCap < s.bitLen.toNat ∧
      ∀ b ∈ (bitsIn s).take (s.params.outCap + 1), b = false) :=
  ⟨⟨inv_put (inv_coded one_good) 0 2 rfl rfl rfl rfl, rfl, by decide +kernel, ⟨4, by decide +kernel⟩, by decide, by decide,
    by decide +kernel, by decide⟩,
   ⟨inv_put (inv_coded one_good) 0 3 rfl rfl rfl rfl, rfl, by decide +kernel, ⟨4, by decide +kernel⟩, by decide, by decide,
    by decide +kernel, by decide +kernel, by decide⟩,
   inv_put (inv_coded one_good) 0 3 rfl rfl rfl rfl, rfl, by decide +kernel, ⟨4, by decide +kernel⟩, by decide, by decide,
    by decide, by decide +kernel⟩

/-- No tree; a length one past BIT_CAP; a length of 0. -/
theorem witness_DecodeEarlyErrors : start.treeValid = false ∧
    ((put 0 33 [] [] (built two)).treeValid = true ∧
      (put 0 33 [] [] (built two)).bitLen.toNat > (put 0 33 [] [] (built two)).params.bitCap) ∧
    ((put 0 0 [] [] (built two)).treeValid = true ∧ (put 0 0 [] [] (built two)).bitLen = 0) :=
  ⟨rfl, ⟨rfl, by decide⟩, rfl, rfl⟩

/-- The bits of c, then 0, which stops at node 3. -/
theorem witness_DecodeEndsInsideCode :
    let s := put 0 2 [] [(0, 1)] (coded tri)
    let out : List (Byte × Bits) := [(0x63, [true])]
    Inv s ∧ s.treeValid = true ∧ 2 ≤ s.leafCount.toNat ∧ s.bitLen.toNat ≤ s.params.bitCap ∧
      (∀ q ∈ out, ∃ n, LeafAt s.nodes n q.1 ∧ IsPath s.nodes s.root.toNat q.2 n) ∧ out.length ≤ s.params.outCap ∧
      [false] ≠ [] ∧ IsPath s.nodes s.root.toNat [false] 3 ∧ InternalAt s.nodes 3 1 0 ∧
      bitsIn s = out.flatMap (fun q => q.2) ++ [false] := by
  intro s out
  have hr : s.root.toNat = 4 := by decide +kernel
  refine ⟨inv_put (inv_coded tri_good) 0 2 rfl rfl rfl rfl, rfl, by decide +kernel, by decide, ?_, by decide, by decide, ?_,
    (tri_internal s rfl).1, by decide +kernel⟩
  · intro q hq
    rw [hr]
    obtain rfl : q = (0x63, [true]) := by simpa [out] using hq
    exact ⟨2, (tri_leaf s rfl).2.2, (tri_paths s rfl).2.2.2⟩
  · rw [hr]; exact (tri_paths s rfl).1

/-- c three times, where OUT_CAP is 2, and a bit after them. -/
theorem witness_DecodeOutputFull :
    let s := put 0 4 [] [(0, 7)] (coded tri)
    let out : List (Byte × Bits) := [(0x63, [true]), (0x63, [true])]
    Inv s ∧ s.treeValid = true ∧ 2 ≤ s.leafCount.toNat ∧ s.bitLen.toNat ≤ s.params.bitCap ∧
      (∀ q ∈ out, ∃ n, LeafAt s.nodes n q.1 ∧ IsPath s.nodes s.root.toNat q.2 n) ∧ out.length = s.params.outCap ∧
      (∃ n, LeafAt s.nodes n 0x63 ∧ IsPath s.nodes s.root.toNat [true] n) ∧
      bitsIn s = out.flatMap (fun q => q.2) ++ [true] ++ [false] := by
  intro s out
  have hr : s.root.toNat = 4 := by decide +kernel
  have hc : ∃ n, LeafAt s.nodes n 0x63 ∧ IsPath s.nodes s.root.toNat [true] n := by
    rw [hr]; exact ⟨2, (tri_leaf s rfl).2.2, (tri_paths s rfl).2.2.2⟩
  refine ⟨inv_put (inv_coded tri_good) 0 4 rfl rfl rfl rfl, rfl, by decide +kernel, by decide, ?_, by decide, hc,
    by decide +kernel⟩
  intro q hq
  obtain rfl : q = (0x63, [true]) := by simpa [out] using hq
  exact hc

/-- Two buffers that agree on the first two bits and differ in the third. -/
theorem witness_DecodeIgnoresBitsPastLength :
    let s := put 0 2 [] [(0, 1)] (coded two)
    let buf : Memory 32 := { draw := 2, cells := [(0, 5)] }
    (∀ i, i < s.bitLen.toNat → bitAt buf i = bitAt s.bitBuf i) ∧ bitAt buf 2 ≠ bitAt s.bitBuf 2 ∧
      (∃ t, exec .decode s = .next t) ∧ ∃ u, exec .decode { s with bitBuf := buf } = .next u := by
  intro s buf
  refine ⟨?_, by decide +kernel, ⟨_, exec_after _ _⟩, _, exec_after _ _⟩
  intro i hi
  have hi : i < 2 := hi
  interval_cases i <;> decide +kernel

theorem witness_EncodedInputDecodes :
    let s := put 2 0 [(0, 0x61), (1, 0x63)] [] (coded tri)
    Inv s ∧ s.tableValid = true ∧ exec .encode s = .next (after .encode s) ∧ (after .encode s).err = false ∧
      s.inLen.toNat ≤ s.params.outCap :=
  ⟨inv_put (inv_coded tri_good) 2 0 rfl rfl rfl rfl, rfl, exec_after _ _, by decide +kernel, by decide⟩

/-- The counts of "ab", and "ab" itself. -/
theorem witness_RoundTripFromCounts :
    let c := put 2 0 [(0, 0x61), (1, 0x62)] [] (coded pair)
    Inv (counts pair) ∧ ([0x61, 0x62] : List Byte) ≠ [] ∧ ([0x61, 0x62] : List Byte).length ≤ (counts pair).params.inCap ∧
      ([0x61, 0x62] : List Byte).length ≤ (counts pair).params.outCap ∧
      (∀ x, (lookSym (counts pair).freq x).toNat = ([0x61, 0x62] : List Byte).count x) ∧
      exec .buildCode (counts pair) = .next (coded pair) ∧ c = { coded pair with inBuf := c.inBuf, inLen := c.inLen } ∧
      bytesIn c = [0x61, 0x62] ∧ exec .encode c = .next (after .encode c) ∧ (after .encode c).err = false := by
  intro c
  refine ⟨inv_counts pair, by simp, by decide, by decide, ?_, ?_, rfl, by decide +kernel, exec_after _ _, by decide +kernel⟩
  · intro x
    rw [look_counts]
    revert x
    decide +kernel
  · rw [← after_buildCode pair_good]; exact exec_after _ _

/-- Each of the four commands, on success and on an error. -/
theorem witness_FrameOfTreeCommands : exec .nop (coded two) = .next (after .nop (coded two)) ∧
    exec .build (counts two) = .next (built two) ∧ exec .build start = .next (after .build start) ∧
    exec .derive (built two) = .next (after .derive (built two)) ∧ exec .derive start = .next (after .derive start) ∧
    exec .buildCode (counts two) = .next (coded two) ∧ (built two).err = false ∧ (after .derive start).err = true :=
  ⟨exec_after _ _, by rw [← after_build two_good]; exact exec_after _ _, exec_after _ _, exec_after _ _, exec_after _ _,
    by rw [← after_buildCode two_good]; exact exec_after _ _, rfl, by decide +kernel⟩

/-- A success, where word 0 is stored to and word 1 would not be; and the two errors that store nothing. -/
theorem witness_FrameOfEncode :
    (let s := put 2 0 [(0, 0x61), (1, 0x62)] [] (coded two);
      exec .encode s = .next (after .encode s) ∧ (after .encode s).err = false ∧
      wordsFor (codesOf s.code (bytesIn s)).length ≤ 1) ∧
    (let s := put 5 0 [] [] (coded two);
      exec .encode s = .next (after .encode s) ∧ (after .encode s).errCode = .length) ∧
    (let s := put 0 0 [] [] (coded two);
      exec .encode s = .next (after .encode s) ∧ (after .encode s).errCode = .emptyInput) :=
  ⟨⟨exec_after _ _, by decide +kernel, by decide +kernel⟩, ⟨exec_after _ _, by decide +kernel⟩, exec_after _ _,
    by decide +kernel⟩

/-- A success of one byte, where byte 1 is not stored to; and the three errors that store nothing. -/
theorem witness_FrameOfDecode :
    (let s := put 0 1 [] [(0, 1)] (coded two);
      exec .decode s = .next (after .decode s) ∧ (after .decode s).err = false ∧ (after .decode s).outLen.toNat ≤ 1) ∧
    (exec .decode start = .next (after .decode start) ∧ (after .decode start).errCode = .emptyTree) ∧
    (let s := put 0 33 [] [] (coded two);
      exec .decode s = .next (after .decode s) ∧ (after .decode s).errCode = .length) ∧
    (let s := put 0 0 [] [] (coded two);
      exec .decode s = .next (after .decode s) ∧ s.bitLen = 0) :=
  ⟨⟨exec_after _ _, by decide +kernel, by decide +kernel⟩, ⟨exec_after _ _, by decide +kernel⟩,
    ⟨exec_after _ _, by decide +kernel⟩, exec_after _ _, rfl⟩

end Sys2Proof.Tests
end

section
/-! PROOFS. What a step does, by the agent that makes it (R20, R110): the engine's command, the host's access. -/

namespace Sys2Proof.Machine

/-- An engine turn with a pending command is the engine step (R20). -/
theorem step_engine {s : State} (hb : s.busy = true) (ha : nextAgent s = .engine) : step s = engineStep s.popSched := by
  simp [step, ha, turn, engineTurn, hb]

/-- A host turn with an access left makes the first one (R20). -/
theorem step_host {s : State} {op : HostOp} {rest : List HostOp} (ha : nextAgent s = .host) (hp : s.program = op :: rest) :
    step s = hostOp op s.popSched := by
  simp [step, ha, turn, hostTurn, hp]

theorem nextAgent_of_pending {s : State} (hb : s.busy = true) (hs : s.sched = []) : nextAgent s = .engine := by
  simp [nextAgent, hs, hb]

/-- Every engine step, of a command or of an illegal word, is the end of some body (R110, R113). -/
theorem engineStep_eq_finish (s : State) : ∃ p, engineStep s = .next (finish p) := by
  unfold engineStep
  cases decode s.cmdLatch with
  | ok i => exact ⟨_, exec_eq i s⟩
  | error why => exact ⟨_, rfl⟩

/-- A state's first access taken off, where the access is known. -/
theorem popHost_popSched_eq {s : State} {op : HostOp} {rest : List HostOp} (hp : s.program = op :: rest) :
    s.popSched.popHost = { s.popSched with program := rest } := by
  simp [State.popHost, hp]

theorem portRead_idle {s : State} (a : Addr) (hb : s.busy = false) :
    portRead a s = { s with readData := some (readRegion s (regionOf s.params a)) } := by
  simp [portRead, hb]

theorem portWrite_idle {s : State} (a : Addr) (v : Word) (hb : s.busy = false) :
    portWrite a v s = writeRegion v s (regionOf s.params a) := by
  simp [portWrite, hb]

/-- What a read returns depends on the block alone, not on the host's program or the schedule. -/
theorem readRegion_world (s : State) (program : List HostOp) (sched : List Agent) (r : Region) :
    readRegion { s with program := program, sched := sched } r = readRegion s r := by
  cases r <;> rfl

/-- Settles O10: a pending command's turn is the engine step, which runs what CMD_LATCH decodes to. -/
theorem stepRunsDecodedCommand : Obligations.StepRunsDecodedCommand := by
  intro s i hb ha hd
  rw [step_engine hb ha, engineStep, State.popSched_cmdLatch, hd]

/-- Settles O12: the head of the schedule is the next agent, and `step` takes it off again. -/
theorem freeInterleaving : Obligations.FreeInterleaving := by
  constructor
  · intro s a
    rfl
  · intro s hb
    simp [turn, engineTurn, hb]

/-- Settles O13: with an empty schedule the engine is next, and an engine step ends in `finish`. -/
theorem pendingCommandCompletes : Obligations.PendingCommandCompletes := by
  intro s hb hs
  obtain ⟨p, hp⟩ := engineStep_eq_finish s.popSched
  exact ⟨finish p, (step_engine hb (nextAgent_of_pending hb hs)).trans hp, finish_busy p, finish_done p⟩

/-- Settles O20: the write to CMD is `acceptCommand` of the state with the access and the schedule's entry taken off. -/
theorem commandWriteAccepted : Obligations.CommandWriteAccepted := by
  intro s a v rest hb ha hp hr
  have hw : portWrite a v s.popSched.popHost = acceptCommand v s.popSched.popHost := by
    rw [portWrite_idle a v (by simpa using hb), State.popHost_params, State.popSched_params, hr, writeRegion]
  rw [step_host ha hp]
  show Host.Outcome.next (portWrite a v s.popSched.popHost) = _
  rw [hw, popHost_popSched_eq hp, acceptCommand]

end Sys2Proof.Machine
end

section
/-! PROOFS. Every step of every agent keeps `Inv` (R26, R31, R37, R44). -/

namespace Sys2Proof.Machine

/-- `Inv` asks nothing of the registers the host writes and of the world outside the block, but the form of the buffers. -/
theorem Inv.of_hostWritable {s t : State} (inv : Inv s)
    (hu : t = { s with
      cmdLatch := t.cmdLatch, haz := t.haz, inLen := t.inLen, bitLen := t.bitLen, freq := t.freq, inBuf := t.inBuf,
      bitBuf := t.bitBuf, program := t.program, sched := t.sched, readData := t.readData, draws := t.draws })
    (hin : t.inBuf.wf = true ∧ t.inBuf.within s.params.inCap = true)
    (hbit : t.bitBuf.wf = true ∧ t.bitBuf.within (s.params.bitCap / 32) = true) : Inv t := by
  obtain ⟨hp, ⟨h1, h2, h3, h4, h5⟩, hse, hbu⟩ := inv
  rw [hu]
  exact ⟨hp, ⟨h1, h2, h3, h4, h5⟩, hse.of_eq rfl rfl rfl rfl rfl rfl rfl rfl, ⟨hin, hbu.outBuf, hbit, hbu.outLen⟩⟩

theorem Inv.popSched {s : State} (inv : Inv s) : Inv s.popSched :=
  inv.of_hostWritable rfl inv.buffers.inBuf inv.buffers.bitBuf

theorem Inv.popHost {s : State} (inv : Inv s) : Inv s.popHost :=
  inv.of_hostWritable rfl inv.buffers.inBuf inv.buffers.bitBuf

theorem Inv.portRead {s : State} (inv : Inv s) (a : Addr) : Inv (portRead a s) := by
  obtain ⟨v, d, h, -⟩ := portRead_eq a s
  rw [h]
  exact inv.of_hostWritable rfl inv.buffers.inBuf inv.buffers.bitBuf

/-- An accepted CMD write sets BUSY and leaves no error recorded (R25). -/
theorem Inv.acceptCommand {s : State} (inv : Inv s) (v : Word) : Inv (acceptCommand v s) where
  params := inv.params
  status := ⟨by simp, by simp, inv.status.table_tree, by simp, by simp⟩
  session := inv.session.of_eq rfl rfl rfl rfl rfl rfl rfl rfl
  buffers := inv.buffers.of_eq rfl rfl rfl rfl (.inl rfl)

/-- A write reaches a buffer only at a live cell (R62), so its written cells stay below its capacity. -/
theorem Inv.portWrite {s : State} (inv : Inv s) (a : Addr) (v : Word) : Inv (portWrite a v s) := by
  obtain ⟨hin, hbit⟩ := And.intro inv.buffers.inBuf inv.buffers.bitBuf
  obtain ⟨liveIn, -, liveBit⟩ := regionOf_live s.params a
  rcases portWrite_cases a v s with ⟨-, h⟩ | ⟨-, ⟨-, h⟩ | ⟨-, h⟩ | ⟨-, h⟩ | ⟨c, -, h⟩ | ⟨i, hr, h⟩ | ⟨w, hr, h⟩ | h⟩ <;>
    rw [h]
  · exact inv.of_hostWritable rfl hin hbit
  · exact inv.acceptCommand v
  · exact inv.of_hostWritable rfl hin hbit
  · exact inv.of_hostWritable rfl hin hbit
  · exact inv.of_hostWritable rfl hin hbit
  · exact inv.of_hostWritable rfl
      ⟨Memory.wf_write _ _ _ hin.1, Memory.within_write _ _ _ _ hin.2 (liveIn i hr)⟩ hbit
  · exact inv.of_hostWritable rfl hin
      ⟨Memory.wf_write _ _ _ hbit.1, Memory.within_write _ _ _ _ hbit.2 (liveBit w hr)⟩
  · exact inv

/-- The reset values of any build meet the invariant (R242). -/
theorem inv_hardReset {s : State} (hp : wfParams s.params) : Inv (hardReset s) where
  params := hp
  status := ⟨by simp, by simp, by simp, by simp, by simp⟩
  session := ⟨fun _ => ⟨rfl, rfl, rfl, rfl, rfl⟩, by simp, by simp, by simp⟩
  buffers := ⟨⟨rfl, rfl⟩, ⟨rfl, rfl⟩, ⟨rfl, rfl⟩, Nat.zero_le _⟩

/-- An illegal word writes the completion fields alone (R113). -/
theorem Inv.finish_illegalBody {s : State} (inv : Inv s) : Inv (finish (illegalBody s)) where
  params := inv.params
  status := ⟨by simp [illegalBody], by simp, inv.status.table_tree, by simp, by simp [illegalBody]⟩
  session := SessionOk.finish (p := illegalBody s) inv.session
  buffers := BuffersOk.finish (p := illegalBody s) inv.buffers

/-- Settles O8, by the agent of the step and what it did: a pending command has no error recorded (R25), so `inv_body` speaks of
it, and a host write keeps the invariant by `Inv.portWrite`. -/
theorem stepKeepsInv : Obligations.StepKeepsInv := by
  intro s t inv h
  have inv' := inv.popSched
  rcases step_cases h with ⟨-, rfl⟩ | ⟨-, hb, i, -, rfl⟩ | ⟨-, -, -, rfl⟩ | ⟨-, -, rfl⟩ | ⟨-, -, rfl⟩ |
    ⟨-, a, rest, -, rfl⟩ | ⟨-, a, v, rest, -, rfl⟩ | ⟨-, rest, -, rfl⟩
  · exact inv_hardReset inv.params
  · exact inv_body i inv' (inv.status.busy_clean hb)
  · exact inv'.finish_illegalBody
  · exact inv'
  · exact inv'
  · exact inv'.popHost.portRead a
  · exact inv'.popHost.portWrite a v
  · split_ifs
    · exact inv'.portRead statusAddr
    · exact inv'.popHost.portRead statusAddr

end Sys2Proof.Machine
end

section
/-! PROOFS. Who writes HAZ, FREQ, IN_BUF and the arena: reset, commands and accepted host writes (R26, R30, R32, R41). -/

namespace Sys2Proof.Machine

/-- The registers that statements about writers speak of are the same in both states. -/
structure KeepsData (s t : State) : Prop where
  haz : t.haz = s.haz
  freq : t.freq = s.freq
  inBuf : t.inBuf = s.inBuf
  nodes : t.nodes = s.nodes

theorem keepsData_portRead (a : Addr) (s : State) : KeepsData s (portRead a s) := by
  obtain ⟨v, d, h, -⟩ := portRead_eq a s
  rw [h]
  exact ⟨rfl, rfl, rfl, rfl⟩

/-- The steps that can write HAZ, FREQ, IN_BUF or the arena: reset, the engine step of a command, and a host write. -/
theorem step_data_cases {s t : State} (h : step s = .next t) :
    nextAgent s = .reset ∨
    (nextAgent s = .engine ∧ s.busy = true ∧ ∃ i, decode s.cmdLatch = .ok i ∧ t = finish (bodyOf i s.popSched)) ∨
    (nextAgent s = .host ∧ ∃ a v rest, s.program = .write a 4 v :: rest ∧ t = portWrite a v s.popSched.popHost) ∨
    KeepsData s t := by
  rcases step_cases h with ⟨ha, -⟩ | hcmd | ⟨-, -, -, rfl⟩ | ⟨-, -, rfl⟩ | ⟨-, -, rfl⟩ | ⟨-, a, rest, -, rfl⟩ | hwrite |
    ⟨-, rest, -, rfl⟩
  · exact .inl ha
  · exact .inr (.inl hcmd)
  · exact .inr (.inr (.inr ⟨rfl, rfl, rfl, rfl⟩))
  · exact .inr (.inr (.inr ⟨rfl, rfl, rfl, rfl⟩))
  · exact .inr (.inr (.inr ⟨rfl, rfl, rfl, rfl⟩))
  · obtain ⟨h1, h2, h3, h4⟩ := keepsData_portRead a s.popSched.popHost
    exact .inr (.inr (.inr ⟨h1, h2, h3, h4⟩))
  · exact .inr (.inr (.inl hwrite))
  · refine .inr (.inr (.inr ?_))
    split_ifs
    · obtain ⟨h1, h2, h3, h4⟩ := keepsData_portRead statusAddr s.popSched
      exact ⟨h1, h2, h3, h4⟩
    · obtain ⟨h1, h2, h3, h4⟩ := keepsData_portRead statusAddr s.popSched.popHost
      exact ⟨h1, h2, h3, h4⟩

/-! ### What a host write leaves in each of the four -/

/-- A write never clears HAZ (R250). -/
theorem portWrite_haz_of_haz (a : Addr) (v : Word) {s : State} (hz : s.haz = true) : (portWrite a v s).haz = true := by
  rcases portWrite_cases a v s with ⟨-, h⟩ | ⟨-, ⟨-, h⟩ | ⟨-, h⟩ | ⟨-, h⟩ | ⟨c, -, h⟩ | ⟨i, -, h⟩ | ⟨w, -, h⟩ | h⟩ <;>
    simp [h, hz]

/-- No write reaches the arena (R33, R34, R66). -/
theorem portWrite_nodes (a : Addr) (v : Word) (s : State) : (portWrite a v s).nodes = s.nodes := by
  rcases portWrite_cases a v s with ⟨-, h⟩ | ⟨-, ⟨-, h⟩ | ⟨-, h⟩ | ⟨-, h⟩ | ⟨c, -, h⟩ | ⟨i, -, h⟩ | ⟨w, -, h⟩ | h⟩ <;>
    simp [h]

/-- A write leaves FREQ, or stores to one entry while BUSY = 0 (R30, R65). -/
theorem portWrite_freq_cases (a : Addr) (v : Word) (s : State) :
    (portWrite a v s).freq = s.freq ∨
    (s.busy = false ∧ ∃ c, regionOf s.params a = .freq c ∧ (portWrite a v s).freq = putSym s.freq c v) := by
  rcases portWrite_cases a v s with ⟨-, h⟩ | ⟨hb, ⟨-, h⟩ | ⟨-, h⟩ | ⟨-, h⟩ | ⟨c, hr, h⟩ | ⟨i, -, h⟩ | ⟨w, -, h⟩ | h⟩ <;>
    rw [h]
  · exact .inl rfl
  · exact .inl rfl
  · exact .inl rfl
  · exact .inl rfl
  · exact .inr ⟨hb, c, hr, rfl⟩
  · exact .inl rfl
  · exact .inl rfl
  · exact .inl rfl

/-- A write leaves IN_BUF, or stores to one byte while BUSY = 0 (R41, R65). -/
theorem portWrite_inBuf_cases (a : Addr) (v : Word) (s : State) :
    (portWrite a v s).inBuf = s.inBuf ∨
    (s.busy = false ∧ ∃ i, regionOf s.params a = .inBuf i ∧ (portWrite a v s).inBuf = s.inBuf.write i (v.setWidth 8)) := by
  rcases portWrite_cases a v s with ⟨-, h⟩ | ⟨hb, ⟨-, h⟩ | ⟨-, h⟩ | ⟨-, h⟩ | ⟨c, -, h⟩ | ⟨i, hr, h⟩ | ⟨w, -, h⟩ | h⟩ <;>
    rw [h]
  · exact .inl rfl
  · exact .inl rfl
  · exact .inl rfl
  · exact .inl rfl
  · exact .inl rfl
  · exact .inr ⟨hb, i, hr, rfl⟩
  · exact .inl rfl
  · exact .inl rfl

/-! ### The statements -/

/-- Settles O14: every command but CLEAR keeps HAZ, and a host write can only set it. -/
theorem hazClearedOnlyByClearOrReset : Obligations.HazClearedOnlyByClearOrReset := by
  intro s t h hs ht
  rcases step_data_cases h with ha | ⟨ha, hb, i, hd, rfl⟩ | ⟨-, a, v, rest, -, rfl⟩ | keeps
  · exact .inl ha
  · by_cases hi : i = .clear
    · exact .inr ⟨ha, hb, hi ▸ hd⟩
    · have keep : (finish (bodyOf i s.popSched)).haz = s.haz := (finish_keeps_haz_freq i s.popSched hi).1
      exact absurd (ht.symm.trans (keep.trans hs)) Bool.false_ne_true
  · have stays : (portWrite a v s.popSched.popHost).haz = true := portWrite_haz_of_haz a v hs
    exact absurd (ht.symm.trans stays) Bool.false_ne_true
  · exact absurd (ht.symm.trans (keeps.haz.trans hs)) Bool.false_ne_true

/-- Settles O15: every command but CLEAR keeps FREQ, CLEAR zeroes it, and a host write stores to the entry it names. -/
theorem freqWrittenOnlyByHostClearReset : Obligations.FreqWrittenOnlyByHostClearReset := by
  intro s t c h hne
  rcases step_data_cases h with ha | ⟨ha, hb, i, hd, rfl⟩ | ⟨ha, a, v, rest, hp, rfl⟩ | keeps
  · exact .inl ha
  · by_cases hi : i = .clear
    · subst hi
      exact .inr (.inl ⟨ha, hb, hd, by simp [bodyOf, clearBody]⟩)
    · exact absurd (congrArg (lookSym · c) (finish_keeps_haz_freq i s.popSched hi).2) hne
  · rcases portWrite_freq_cases a v s.popSched.popHost with hf | ⟨hb, d, hr, hf⟩
    · exact absurd (congrArg (lookSym · c) hf) hne
    · obtain rfl : d = c := by
        by_contra hdc
        exact hne (by rw [hf, lookSym_putSym_ne _ _ hdc]; rfl)
      exact .inr (.inr ⟨ha, hb, a, v, rest, hp, hr, by rw [hf, lookSym_putSym_self]⟩)
  · exact absurd (congrArg (lookSym · c) keeps.freq) hne

/-- Settles O16: no command writes IN_BUF, and a host write stores to the byte it names. -/
theorem inBufWrittenOnlyByHost : Obligations.InBufWrittenOnlyByHost := by
  intro s t i h hreset hne
  rcases step_data_cases h with ha | ⟨-, -, j, -, rfl⟩ | ⟨ha, a, v, rest, hp, rfl⟩ | keeps
  · exact absurd ha hreset
  · exact absurd (congrArg (Memory.read · i) (finish_body_keeps j s.popSched).inBuf) hne
  · rcases portWrite_inBuf_cases a v s.popSched.popHost with hf | ⟨hb, j, hr, hf⟩
    · exact absurd (congrArg (Memory.read · i) hf) hne
    · obtain rfl : j = i := by
        by_contra hji
        exact hne (by rw [hf, Memory.read_write, if_neg hji]; rfl)
      exact ⟨ha, hb, a, v, rest, hp, hr, by rw [hf, Memory.read_write, if_pos rfl]⟩
  · exact absurd (congrArg (Memory.read · i) keeps.inBuf) hne

/-- Settles O17: every command but BUILD, BUILD_CODE and CLEAR keeps the arena, and no host write reaches it. -/
theorem arenaChangedOnlyByTreeCommands : Obligations.ArenaChangedOnlyByTreeCommands := by
  intro s t h hne
  rcases step_data_cases h with ha | ⟨ha, hb, i, hd, rfl⟩ | ⟨-, a, v, rest, -, rfl⟩ | keeps
  · exact .inl ha
  · refine .inr ⟨ha, hb, ?_⟩
    by_contra hno
    simp only [hd, Except.ok.injEq, not_or] at hno
    obtain ⟨hbuild, hcode, hclear⟩ := hno
    exact hne (finish_keeps_nodes i s.popSched hclear hbuild hcode)
  · exact absurd (portWrite_nodes a v s.popSched.popHost) hne
  · exact absurd keeps.nodes hne

end Sys2Proof.Machine
end

section
/-! PROOFS. What the read-only windows show: STATUS, the arena and the code table (R26, R33, R34, R38, R39), and what a table is
worth (R45). -/

namespace Sys2Proof.Machine

/-! ### STATUS -/

/-- Which field of R26 each bit of a STATUS word belongs to. -/
theorem getLsbD_packStatus (busy done err haz : Bool) (code : BitVec 4) (tree table : Bool) (i : Nat) :
    (packStatus busy done err haz code tree table).getLsbD i =
      if i < 1 then busy else if i < 2 then done else if i < 3 then err else if i < 4 then haz
      else if i < 8 then false else if i < 12 then code.getLsbD (i - 8) else if i < 16 then false
      else if i < 17 then tree else if i < 18 then table else false := by
  have place : ∀ low width, 0 < width → (i - low < width ↔ i < low + width) := by omega
  show BitVec.getLsbD (w := 14 + 1 + 1 + 4 + 4 + 4 + 1 + 1 + 1 + 1) (_ ++ BitVec.ofBool busy) i = _
  simp only [BitVec.getLsbD_append, BitVec.getLsbD_ofBool, Nat.sub_sub]
  simp only [place, Nat.zero_lt_succ, Nat.reduceAdd, BitVec.ofNat_eq_ofNat, BitVec.getLsbD_zero]
  split_ifs <;> simp <;> omega

/-- A field of a word, from its bits. -/
theorem extractLsb'_eq_of_getLsbD {x : Word} {start len : Nat} {y : BitVec len}
    (h : ∀ i, i < len → x.getLsbD (start + i) = y.getLsbD i) : x.extractLsb' start len = y :=
  BitVec.eq_of_getLsbD_eq fun i hi => by simp [hi, h i hi]

/-- Settles O27: each bit and field of the STATUS word, by `getLsbD_packStatus`. -/
theorem statusWordLayout : Obligations.StatusWordLayout := by
  refine ⟨by decide, fun s => ?_⟩
  simp only [readRegion, State.statusWord, getLsbD_packStatus]
  refine ⟨rfl, rfl, rfl, rfl, ?code, rfl, rfl, ?reserved4, ?reserved12, ?reserved18⟩
  all_goals
    refine extractLsb'_eq_of_getLsbD fun i hi => ?_
    rw [getLsbD_packStatus]
    grind

/-! ### The arena -/

/-- NODE_COUNT is the number of architectural entries (R31, R32). -/
theorem SessionOk.nodeCount_eq {s : State} (ok : SessionOk s) : s.nodeCount.toNat = s.nodes.length := by
  cases hv : s.treeValid with
  | false => simp [(ok.noTree hv).nodeCount, (ok.noTree hv).nodes]
  | true => rw [(ok.tree hv).nodeCount, (ok.tree hv).arena.length_eq]

/-- An entry below NODE_COUNT is there only beside a tree (R32, R44). -/
theorem SessionOk.tree_of_internal {s : State} (ok : SessionOk s) {n l r : Nat} (h : InternalAt s.nodes n l r) :
    TreeOk s := by
  cases hv : s.treeValid with
  | false =>
    have := h.lt_length
    simp [(ok.noTree hv).nodes] at this
  | true => exact ok.tree hv

/-- Both windows at an index that has a record (R33, R34). -/
theorem SessionOk.node_words {s : State} (ok : SessionOk s) {i : Nat} {record : Node} (h : s.nodes[i]? = some record) :
    nodeLinkWord s i = record.link ∧ (nodeFreqWord s i).toNat = freqAt s.nodes i := by
  have hi : i < s.nodeCount.toNat := by
    rw [ok.nodeCount_eq]
    exact (List.getElem?_eq_some_iff.1 h).1
  simp [nodeLinkWord, nodeFreqWord, freqAt, nodeAt, h, hi]

/-- A leaf's link word: bit 31 and the symbol do not overlap (R34). -/
theorem link_leaf (c : Byte) (f : Word) : (Node.leaf c f).link = 0x80000000#32 + c.setWidth 32 := by
  refine (BitVec.add_eq_or_of_and_eq_zero _ _ ?_).symm
  revert c
  decide

/-- An internal node's link word: the right index fits below the left one (R34). -/
theorem link_internal {l r : Nat} (f : Word) (hl : l < 65536) (hr : r < 65536) :
    (Node.internal l r f).link.toNat = l * 65536 + r := by
  have hor : l <<< 16 ||| r = l * 65536 + r := by
    rw [← Nat.shiftLeft_add_eq_or_of_lt (by omega), Nat.shiftLeft_eq]
  have hl' : l % 2 ^ 32 = l := Nat.mod_eq_of_lt (by omega)
  have hr' : r % 2 ^ 32 = r := Nat.mod_eq_of_lt (by omega)
  have hs : l <<< 16 % 2 ^ 32 = l <<< 16 := Nat.mod_eq_of_lt (by rw [Nat.shiftLeft_eq]; omega)
  rw [Node.link, BitVec.toNat_or, BitVec.toNat_shiftLeft, BitVec.toNat_ofNat, BitVec.toNat_ofNat, hl', hr', hs, hor]

/-- Settles O28, by `SessionOk.node_words` for the records and by definition past NODE_COUNT. -/
theorem nodeWindowsRead : Obligations.NodeWindowsRead := by
  intro s i inv
  refine ⟨?leaf, ?internal, ?past⟩
  case leaf =>
    rintro c ⟨f, hf⟩
    obtain ⟨hlink, hfreq⟩ := inv.session.node_words hf
    exact ⟨hlink.trans (link_leaf c f), hfreq⟩
  case internal =>
    intro l r h
    have arena := (inv.session.tree_of_internal h).arena
    obtain ⟨-, hi, hl, hr, -⟩ := arena.internal_ge h
    have hM := arena.leaves_le
    obtain ⟨f, hf⟩ := h
    obtain ⟨hlink, hfreq⟩ := inv.session.node_words hf
    exact ⟨(congrArg BitVec.toNat hlink).trans (link_internal f (by omega) (by omega)), hfreq⟩
  case past =>
    intro hi
    simp [readRegion, nodeLinkWord, nodeFreqWord, hi]

/-! ### The code table -/

/-- While there is a table, there is a tree it is the table of (R26, R37). -/
theorem Inv.table {s : State} (inv : Inv s) (hv : s.tableValid = true) :
    ArenaOk s.nodes s.leafCount.toNat ∧ TableOk s.nodes s.leafCount.toNat (2 * s.leafCount.toNat - 2) s.code := by
  have tree := inv.session.tree (inv.status.table_tree hv)
  exact ⟨tree.arena, tree.root ▸ inv.session.table hv⟩

/-- A code has at most 255 bits, and none without a table (R37, R45). -/
theorem Inv.code_length_le {s : State} (inv : Inv s) (c : Byte) : (lookSym s.code c).length ≤ 255 := by
  cases hv : s.tableValid with
  | false => simp [inv.session.noTable hv c]
  | true =>
    obtain ⟨arena, tab⟩ := inv.table hv
    exact tab.length_le arena c

/-- Settles O29: the length fits the word, and CODE_BITS packs the code from its bit 32k on. -/
theorem codeWindowsRead : Obligations.CodeWindowsRead := by
  intro s c k b inv hb
  have hlen := inv.code_length_le c
  constructor
  · show (BitVec.ofNat 32 (lookSym s.code c).length).toNat = _
    rw [BitVec.toNat_ofNat, Nat.mod_eq_of_lt (by omega)]
  · show (packWord ((lookSym s.code c).drop (32 * k))).getLsbD b = _
    rw [getLsbD_packWord _ _ hb, List.getElem?_drop]

/-- If another leaf's path starts with a leaf's path, the leaves are one: from a leaf no bit leads on (R44, R45). -/
theorem LeafAt.sym_eq_of_path_starts {nodes : List Node} {root m n : Nat} {a b : Byte} {p q : Bits} (ha : LeafAt nodes m a)
    (hb : LeafAt nodes n b) (hp : IsPath nodes root p m) (hq : IsPath nodes root q n) (hpre : p <+: q) : a = b := by
  obtain ⟨rest, rfl⟩ := hpre
  obtain ⟨k, hk, hrest⟩ := hq.append_inv
  obtain rfl := hp.det hk
  obtain ⟨-, rfl⟩ := ha.path_nil hrest
  exact ha.sym_inj hb

/-- No code of a table of R151 and R153 starts with another: with one leaf there is one code, otherwise the codes are the paths
to the leaves. -/
theorem TableOk.prefixFree {nodes : List Node} {M : Nat} {code : Vector Bits 256} (ok : ArenaOk nodes M)
    (tab : TableOk nodes M (2 * M - 2) code) : PrefixFree code := by
  intro a b hab ha hb hpre
  obtain ⟨m, hm⟩ := (tab.ne_nil_iff ok a).1 ha
  obtain ⟨n, hn⟩ := (tab.ne_nil_iff ok b).1 hb
  apply hab
  by_cases h1 : M = 1
  · have hm0 := ok.leaf_lt hm
    have hn0 := ok.leaf_lt hn
    obtain rfl : m = n := by omega
    exact hm.sym_inj hn
  · exact hm.sym_eq_of_path_starts hn (tab.path h1 m a hm) (tab.path h1 n b hn) hpre

/-- Settles O41: the table is that of an arena of R44. -/
theorem tableIsPrefixFree : Obligations.TableIsPrefixFree := by
  intro s inv hv
  obtain ⟨arena, tab⟩ := inv.table hv
  exact ⟨tab.prefixFree arena, fun c hc => tab.length_bounds arena hc⟩

end Sys2Proof.Machine
end

section
/-! PROOFS. Where the address map of R23 puts the registers and the buffer windows, and what an idle read of them returns. -/

namespace Sys2Proof.Machine

theorem regionOf_register {p : Config.Params} {a : Addr} {r : Region} (h : registers[a.toNat]? = some r) :
    regionOf p a = r := by
  simp [regionOf, h]

/-- From 0x000F on the windows decide (R23). -/
theorem regionOf_window {p : Config.Params} {a : Addr} (h : 0x000F ≤ a.toNat) : regionOf p a = windowOf p a.toNat := by
  rw [regionOf, List.getElem?_eq_none (by exact h), Option.getD_none]

theorem regionOf_freq {p : Config.Params} {a : Addr} {c : Byte} (h : a.toNat = 0x0100 + c.toNat) :
    regionOf p a = .freq c := by
  have hc := c.isLt
  rw [regionOf_window (by omega), h, windowOf, if_pos (by omega), tableWindow, if_neg (by omega), if_pos (by omega),
    Nat.add_sub_cancel_left, BitVec.ofNat_toNat, BitVec.setWidth_eq]

theorem regionOf_inBuf {p : Config.Params} {a : Addr} {i : Nat} (hp : i < p.inCap) (hi : i < 0x1000)
    (h : a.toNat = 0x1000 + i) : regionOf p a = .inBuf i := by
  rw [regionOf_window (by omega), h, windowOf, if_neg (by omega), bufferWindow, if_pos (by omega), liveCell,
    Nat.add_sub_cancel_left, if_pos hp]

theorem regionOf_outBuf {p : Config.Params} {a : Addr} {i : Nat} (hp : i < p.outCap) (hi : i < 0x1000)
    (h : a.toNat = 0x2000 + i) : regionOf p a = .outBuf i := by
  rw [regionOf_window (by omega), h, windowOf, if_neg (by omega), bufferWindow, if_neg (by omega), if_pos (by omega),
    liveCell, Nat.add_sub_cancel_left, if_pos hp]

theorem regionOf_bitBuf {p : Config.Params} {a : Addr} {w : Nat} (hp : w < p.bitCap / 32) (hw : w < 0x0400)
    (h : a.toNat = 0x3000 + w) : regionOf p a = .bitBuf w := by
  rw [regionOf_window (by omega), h, windowOf, if_neg (by omega), bufferWindow, if_neg (by omega), if_neg (by omega),
    if_pos (by omega), liveCell, Nat.add_sub_cancel_left, if_pos hp]

theorem toNat_setWidth_byte (b : Byte) : (b.setWidth 32).toNat = b.toNat :=
  BitVec.toNat_setWidth_of_le (by decide)

/-- An idle read answers the region's value and takes the access off; nothing else changes (R64). -/
theorem step_idle_read {s : State} {a : Addr} {rest : List HostOp} (hb : s.busy = false) (ha : nextAgent s = .host)
    (hp : s.program = .read a 4 :: rest) :
    step s = .next { s.popSched with program := rest, readData := some (readRegion s (regionOf s.params a)) } := by
  rw [step_host ha hp]
  show Host.Outcome.next (portRead a s.popSched.popHost) = _
  rw [portRead_idle a (by simpa using hb), popHost_popSched_eq hp]
  exact congrArg (fun v => Host.Outcome.next { s.popSched with program := rest, readData := some v })
    (readRegion_world s rest s.sched.tail _)

/-- Settles O18: the step is `step_idle_read`, and each clause is the region its address names. -/
theorem idleReadHasNoSideEffect : Obligations.IdleReadHasNoSideEffect := by
  intro s a rest hb ha hp
  refine ⟨_, step_idle_read hb ha hp, rfl, ?_⟩
  have register : ∀ r, registers[a.toNat]? = some r → readRegion s (regionOf s.params a) = readRegion s r :=
    fun r h => by rw [regionOf_register h]
  refine ⟨?_, ?_, ?_, ?_, ?_, ?_, ?_, ?_, ?_, ?_, ?_, ?_, ?_, ?_, ?_, ?freq, ?inBuf, ?outBuf, ?bitBuf, ?reserved⟩
  case freq => intro c h; rw [regionOf_freq h]; rfl
  case inBuf => intro i hi hi' h; rw [regionOf_inBuf hi hi' h]; exact toNat_setWidth_byte _
  case outBuf => intro i hi hi' h; rw [regionOf_outBuf hi hi' h]; exact toNat_setWidth_byte _
  case bitBuf => intro w hw hw' h; rw [regionOf_bitBuf hw hw' h]; rfl
  case reserved => intro h; rw [h]; rfl
  · rintro rfl; exact register .id rfl
  · rintro rfl; exact register .cmd rfl
  · rintro rfl; exact register .status rfl
  · rintro rfl; exact register .inLen rfl
  · rintro rfl; exact register .bitLen rfl
  · rintro rfl; exact register .outLen rfl
  · rintro rfl; exact register .leafCount rfl
  · rintro rfl; exact register .nodeCount rfl
  · rintro rfl; exact register .root rfl
  · rintro rfl; exact register .totalFreq rfl
  · rintro rfl; exact register .errInfo rfl
  · rintro rfl; rw [register .errSym rfl]; exact toNat_setWidth_byte _
  · rintro rfl; exact register .inCap rfl
  · rintro rfl; exact register .outCap rfl
  · rintro rfl; exact register .bitCap rfl

end Sys2Proof.Machine
end

section
/-! PROOFS. The address map (R23, R62): what every window holds at each of its indices, and the gaps between them. -/

namespace Sys2Proof.Machine

/-! ### The windows, by index -/

theorem windowOf_freq (p : Config.Params) {c : Nat} (hc : c < 256) : windowOf p (0x0100 + c) = .freq (BitVec.ofNat 8 c) := by
  simp (disch := omega) only [windowOf, tableWindow, if_pos, if_neg, Nat.add_sub_cancel_left]

theorem windowOf_nodeFreq (p : Config.Params) {i : Nat} (hi : i < 512) : windowOf p (0x0200 + i) = .nodeFreq i := by
  simp (disch := omega) only [windowOf, tableWindow, if_pos, if_neg, Nat.add_sub_cancel_left]

theorem windowOf_nodeLink (p : Config.Params) {i : Nat} (hi : i < 512) : windowOf p (0x0400 + i) = .nodeLink i := by
  simp (disch := omega) only [windowOf, tableWindow, if_pos, if_neg, Nat.add_sub_cancel_left]

theorem windowOf_codeLen (p : Config.Params) {c : Nat} (hc : c < 256) :
    windowOf p (0x0600 + c) = .codeLen (BitVec.ofNat 8 c) := by
  simp (disch := omega) only [windowOf, tableWindow, if_pos, if_neg, Nat.add_sub_cancel_left]

/-- Each symbol has eight words of code bits (R39). -/
theorem windowOf_codeBits (p : Config.Params) {c k : Nat} (hc : c < 256) (hk : k < 8) :
    windowOf p (0x0800 + 8 * c + k) = .codeBits (BitVec.ofNat 8 c) k := by
  have sym : (0x0800 + 8 * c + k - 0x0800) / 8 = c := by omega
  have word : (0x0800 + 8 * c + k - 0x0800) % 8 = k := by omega
  simp (disch := omega) only [windowOf, tableWindow, if_pos, if_neg, sym, word]

theorem windowOf_inBuf (p : Config.Params) {i : Nat} (hi : i < 4096) :
    windowOf p (0x1000 + i) = liveCell i p.inCap (.inBuf i) := by
  simp (disch := omega) only [windowOf, bufferWindow, if_pos, if_neg, Nat.add_sub_cancel_left]

theorem windowOf_outBuf (p : Config.Params) {i : Nat} (hi : i < 4096) :
    windowOf p (0x2000 + i) = liveCell i p.outCap (.outBuf i) := by
  simp (disch := omega) only [windowOf, bufferWindow, if_pos, if_neg, Nat.add_sub_cancel_left]

theorem windowOf_bitBuf (p : Config.Params) {w : Nat} (hw : w < 1024) :
    windowOf p (0x3000 + w) = liveCell w (p.bitCap / 32) (.bitBuf w) := by
  simp (disch := omega) only [windowOf, bufferWindow, if_pos, if_neg, Nat.add_sub_cancel_left]

/-- The gaps of the map (R23, R67). -/
theorem windowOf_gap (p : Config.Params) {n : Nat} (h : n ≤ 0x00FF ∨ (0x0700 ≤ n ∧ n ≤ 0x07FF) ∨ 0x3400 ≤ n) :
    windowOf p n = .reserved := by
  rcases h with h | ⟨hl, hu⟩ | h
  · simp (disch := omega) only [windowOf, tableWindow, if_pos]
  · simp (disch := omega) only [windowOf, tableWindow, if_pos, if_neg]
  · simp (disch := omega) only [windowOf, bufferWindow, if_neg]

/-- A word address written as a number from 0x000F on is decoded by the windows. -/
theorem regionOf_ofNat (p : Config.Params) {n : Nat} (hl : 0x000F ≤ n) (hu : n < 2 ^ 16) :
    regionOf p (BitVec.ofNat 16 n) = windowOf p n := by
  have hn : (BitVec.ofNat 16 n).toNat = n := by rw [BitVec.toNat_ofNat, Nat.mod_eq_of_lt hu]
  rw [regionOf_window (by rw [hn]; exact hl), hn]

/-- Settles O4: each name is a register or an index of a window, and each gap lies in no window. -/
theorem addressMapDecodes : Obligations.AddressMapDecodes := by
  refine fun p => ⟨fun place wf => ?name, fun a gap => ?gap⟩
  case gap => rw [regionOf_window (by omega), windowOf_gap p (by omega)]
  case name =>
    cases place with
    | freq c =>
      have hc : c < 256 := of_decide_eq_true wf
      rw [Place.addr, regionOf_ofNat p (by omega) (by omega), windowOf_freq p hc, Place.region]
    | nodeFreq i =>
      have hi : i < 512 := of_decide_eq_true wf
      rw [Place.addr, regionOf_ofNat p (by omega) (by omega), windowOf_nodeFreq p hi, Place.region]
    | nodeLink i =>
      have hi : i < 512 := of_decide_eq_true wf
      rw [Place.addr, regionOf_ofNat p (by omega) (by omega), windowOf_nodeLink p hi, Place.region]
    | codeLen c =>
      have hc : c < 256 := of_decide_eq_true wf
      rw [Place.addr, regionOf_ofNat p (by omega) (by omega), windowOf_codeLen p hc, Place.region]
    | codeBits c k =>
      obtain ⟨hc, hk⟩ : c < 256 ∧ k < 8 := by simpa [Place.wf] using wf
      rw [Place.addr, regionOf_ofNat p (by omega) (by omega), windowOf_codeBits p hc hk, Place.region]
    | inBuf i =>
      have hi : i < 4096 := of_decide_eq_true wf
      rw [Place.addr, regionOf_ofNat p (by omega) (by omega), windowOf_inBuf p hi, Place.region, liveCell]
    | outBuf i =>
      have hi : i < 4096 := of_decide_eq_true wf
      rw [Place.addr, regionOf_ofNat p (by omega) (by omega), windowOf_outBuf p hi, Place.region, liveCell]
    | bitBuf w =>
      have hw : w < 1024 := of_decide_eq_true wf
      rw [Place.addr, regionOf_ofNat p (by omega) (by omega), windowOf_bitBuf p hw, Place.region, liveCell]
    | _ => rfl

end Sys2Proof.Machine
end

section
/-! PROOFS. What the port refuses (R63), and what a write while BUSY = 0 stores and leaves (R65 to R67). -/

namespace Sys2Proof.Machine

/-- Settles O24: the host's turn asks for the size of a read or a write before anything else (R63). -/
theorem otherAccessSizesRefused : Obligations.OtherAccessSizesRefused := by
  intro s a v size rest ha hsize
  have bad : wfAccessSize size = false := beq_false_of_ne hsize
  constructor <;> intro hp <;> rw [step_host ha hp, hostOp, bad, if_neg Bool.false_ne_true]

/-- A write to any other region than CMD leaves BUSY, the capacities and the world outside the block (R65 to R67). -/
theorem writeRegion_keeps (v : Word) (s : State) {r : Region} (hr : r ≠ .cmd) :
    (writeRegion v s r).busy = s.busy ∧ (writeRegion v s r).params = s.params ∧
    (writeRegion v s r).program = s.program ∧ (writeRegion v s r).sched = s.sched ∧
    (writeRegion v s r).readData = s.readData ∧ (writeRegion v s r).draws = s.draws := by
  cases r with
  | cmd => exact absurd rfl hr
  | _ => exact ⟨rfl, rfl, rfl, rfl, rfl, rfl⟩

/-- A write to any other region than CMD leaves what every other region reads as: distinct regions of RW storage are distinct
registers, entries or cells. -/
theorem readRegion_writeRegion_ne (v : Word) (s : State) {r q : Region} (hr : r ≠ .cmd) (hq : q ≠ r) :
    readRegion (writeRegion v s r) q = readRegion s q := by
  cases r with
  | cmd => exact absurd rfl hr
  | inLen =>
    cases q with
    | inLen => exact absurd rfl hq
    | _ => rfl
  | bitLen =>
    cases q with
    | bitLen => exact absurd rfl hq
    | _ => rfl
  | freq c =>
    cases q with
    | freq d => exact lookSym_putSym_ne s.freq v fun e => hq (congrArg _ e.symm)
    | _ => rfl
  | inBuf i =>
    cases q with
    | inBuf j =>
      exact congrArg (BitVec.setWidth 32) ((s.inBuf.read_write i j _).trans (if_neg fun e => hq (congrArg _ e.symm)))
    | _ => rfl
  | bitBuf w =>
    cases q with
    | bitBuf u => exact (s.bitBuf.read_write w u v).trans (if_neg fun e => hq (congrArg _ e.symm))
    | _ => rfl
  | _ => rfl

/-- A byte of IN_BUF reads as bits 7:0 of the word written (R41). -/
theorem setWidth_byte_eq_and (v : Word) : (v.setWidth 8).setWidth 32 = v &&& 0xFF := by
  refine BitVec.eq_of_toNat_eq ?_
  rw [toNat_setWidth_byte, BitVec.toNat_setWidth, BitVec.toNat_and]
  exact (Nat.and_two_pow_sub_one_eq_mod v.toNat 8).symm

/-- An idle write to any other region than CMD, as a step. -/
theorem step_idle_write {s : State} {a : Addr} {v : Word} {rest : List HostOp} (hb : s.busy = false)
    (ha : nextAgent s = .host) (hp : s.program = .write a 4 v :: rest) :
    step s = .next (writeRegion v { s.popSched with program := rest } (regionOf s.params a)) := by
  rw [step_host ha hp]
  show Host.Outcome.next (portWrite a v s.popSched.popHost) = _
  rw [portWrite_idle a v (by simpa using hb), popHost_popSched_eq hp]
  rfl

/-- Settles O21: the step is `step_idle_write`, and each region's value after it is its own or as before. -/
theorem idleWritesStore : Obligations.IdleWritesStore := by
  intro s a v rest hb ha hp hr
  rw [step_idle_write hb ha hp]
  generalize regionOf s.params a = r at hr
  obtain ⟨kbusy, kparams, kprogram, ksched, kread, kdraws⟩ := writeRegion_keeps v { s.popSched with program := rest } hr
  refine ⟨_, rfl, kbusy.trans hb, kparams, kprogram, ksched, kread, kdraws, fun q hq => ?other, ?self⟩
  case other => exact (readRegion_writeRegion_ne v _ hr hq).trans (readRegion_world s rest s.sched.tail q)
  case self =>
    cases r with
    | freq c => exact lookSym_putSym_self s.freq c v
    | inBuf i =>
      have cell : (s.inBuf.write i (v.setWidth 8)).read i = v.setWidth 8 := by rw [Memory.read_write, if_pos rfl]
      exact (congrArg (BitVec.setWidth 32) cell).trans (setWidth_byte_eq_and v)
    | bitBuf w => exact (s.bitBuf.read_write w w v).trans (if_pos rfl)
    | cmd => exact absurd rfl hr
    | _ => rfl

end Sys2Proof.Machine
end

section
/-! PROOFS. The frames of the commands: the registers and the buffers a command leaves as they were (R61). -/

namespace Sys2Proof.Machine

/-- A cell past the stored ones is as before. -/
theorem Memory.read_writeFrom_past {w : Nat} (m : Memory w) (vs : List (BitVec w)) {k : Nat} (h : vs.length ≤ k) :
    (m.writeFrom 0 vs).read k = m.read k := by
  rw [Memory.read_writeFrom, if_pos (Nat.zero_le k), Nat.sub_zero, List.getElem?_eq_none h, Option.getD_none]

/-- A command that ends without an error leaves ERR_INFO and ERR_SYM (R212). -/
theorem finish_body_info (i : Instr) {s : State} (h : (finish (bodyOf i s)).err = false) :
    (finish (bodyOf i s)).errInfo = s.errInfo ∧ (finish (bodyOf i s)).errSym = s.errSym := by
  obtain ⟨info, sym, -⟩ := body_info i s
  rcases finish_status (bodyOf i s) with ⟨-, -, -, hinfo, hsym⟩ | ⟨-, -, -, -, herr, -⟩
  · exact ⟨hinfo.trans info, hsym.trans sym⟩
  · exact absurd (herr.symm.trans h) Bool.noConfusion

/-! ### The tree commands -/

/-- The lengths and the buffers ENCODE and DECODE work on, but for IN_BUF, which no command writes (R61). -/
structure KeepsStreams (s t : State) : Prop where
  inLen : t.inLen = s.inLen
  bitLen : t.bitLen = s.bitLen
  outLen : t.outLen = s.outLen
  outBuf : t.outBuf = s.outBuf
  bitBuf : t.bitBuf = s.bitBuf

theorem KeepsStreams.trans {s t u : State} (h : KeepsStreams s t) (h' : KeepsStreams t u) : KeepsStreams s u :=
  ⟨h'.inLen.trans h.inLen, h'.bitLen.trans h.bitLen, h'.outLen.trans h.outLen, h'.outBuf.trans h.outBuf,
    h'.bitBuf.trans h.bitBuf⟩

theorem keepsStreams_finish (p : State × Ending) : KeepsStreams p.1 (finish p) :=
  ⟨finish_inLen p, finish_bitLen p, finish_outLen p, finish_outBuf p, finish_bitBuf p⟩

theorem keepsStreams_buildBody (s : State) : KeepsStreams s (buildBody s).1 := by
  rcases buildBody_cases s with ⟨-, h⟩ | ⟨-, -, h⟩ | ⟨-, -, h⟩ <;> rw [h] <;> exact ⟨rfl, rfl, rfl, rfl, rfl⟩

theorem keepsStreams_deriveBody (s : State) : KeepsStreams s (deriveBody s).1 := by
  rcases deriveBody_cases s with ⟨-, h⟩ | ⟨-, h⟩ <;> rw [h] <;> exact ⟨rfl, rfl, rfl, rfl, rfl⟩

/-- BUILD_CODE is the failed BUILD, or a BUILD and then a DERIVE (R156). -/
theorem keepsStreams_buildCodeBody (s : State) : KeepsStreams s (buildCodeBody s).1 := by
  rcases buildCodeBody_cases s with ⟨-, -, -, -, h⟩ | ⟨-, h⟩ <;> rw [h]
  · exact keepsStreams_buildBody s
  · exact (keepsStreams_buildBody s).trans (keepsStreams_deriveBody _)

theorem keepsStreams_treeCommand {i : Instr} (hi : i = .nop ∨ i = .build ∨ i = .derive ∨ i = .buildCode) (s : State) :
    KeepsStreams s (finish (bodyOf i s)) := by
  refine KeepsStreams.trans ?_ (keepsStreams_finish (bodyOf i s))
  rcases hi with rfl | rfl | rfl | rfl
  · exact ⟨rfl, rfl, rfl, rfl, rfl⟩
  · exact keepsStreams_buildBody s
  · exact keepsStreams_deriveBody s
  · exact keepsStreams_buildCodeBody s

/-- DERIVE reads the tree and writes the table (R150). -/
theorem finish_deriveBody_keeps_tree (s : State) :
    (finish (deriveBody s)).treeValid = s.treeValid ∧ (finish (deriveBody s)).leafCount = s.leafCount ∧
    (finish (deriveBody s)).nodeCount = s.nodeCount ∧ (finish (deriveBody s)).root = s.root ∧
    (finish (deriveBody s)).totalFreq = s.totalFreq ∧ (finish (deriveBody s)).nodes = s.nodes := by
  rcases deriveBody_cases s with ⟨-, h⟩ | ⟨-, h⟩ <;> rw [h] <;> exact ⟨rfl, rfl, rfl, rfl, rfl, rfl⟩

/-- Settles O58: what every command keeps, what all but CLEAR keep, and what `KeepsStreams` names; DERIVE keeps the tree, and NOP
everything but the completion. -/
theorem frameOfTreeCommands : Obligations.FrameOfTreeCommands := by
  intro i s t hi h
  obtain rfl := exec_next h
  have engine := finish_body_keeps i s
  have streams := keepsStreams_treeCommand hi s
  obtain ⟨haz, freq⟩ := finish_keeps_haz_freq i s (by rintro rfl; simp at hi)
  refine ⟨engine.program, engine.sched, engine.readData, engine.params, engine.cmdLatch, haz, streams.inLen, streams.bitLen,
    streams.outLen, fun c => by rw [freq], fun k => by rw [engine.inBuf], fun k => by rw [streams.outBuf],
    fun k => by rw [streams.bitBuf], finish_body_info i, ?tree, ?table⟩
  case tree =>
    rintro (rfl | rfl)
    · exact ⟨rfl, rfl, rfl, rfl, rfl, rfl⟩
    · exact finish_deriveBody_keeps_tree s
  case table =>
    rintro rfl
    exact ⟨rfl, fun c => rfl⟩

/-! ### ENCODE -/

/-- The tree and the code table are the same in both states (R31, R32, R37): ENCODE and DECODE read them. -/
structure KeepsSession (s t : State) : Prop where
  treeValid : t.treeValid = s.treeValid
  tableValid : t.tableValid = s.tableValid
  leafCount : t.leafCount = s.leafCount
  nodeCount : t.nodeCount = s.nodeCount
  root : t.root = s.root
  totalFreq : t.totalFreq = s.totalFreq
  nodes : t.nodes = s.nodes
  code : t.code = s.code

theorem keepsSession_encodeBody (s : State) : KeepsSession s (finish (encodeBody s)) := by
  rcases encodeBody_cases s with ⟨-, h⟩ | ⟨-, -, h⟩ | ⟨-, -, f, -, -, h⟩ | ⟨-, -, -, -, h⟩ <;> rw [h] <;>
    exact ⟨rfl, rfl, rfl, rfl, rfl, rfl, rfl, rfl⟩

/-- Of the lengths and buffers ENCODE writes BIT_LEN and BIT_BUF alone (R61, R170). -/
theorem finish_encodeBody_keeps_streams (s : State) :
    (finish (encodeBody s)).inLen = s.inLen ∧ (finish (encodeBody s)).outLen = s.outLen ∧
    (finish (encodeBody s)).outBuf = s.outBuf := by
  rcases encodeBody_cases s with ⟨-, h⟩ | ⟨-, -, h⟩ | ⟨-, -, f, -, -, h⟩ | ⟨-, -, -, -, h⟩ <;> rw [h] <;>
    exact ⟨rfl, rfl, rfl⟩

/-- What ENCODE leaves of BIT_BUF: the words past its output when it completes (R174), and every word when the input length is at
fault (R172 items 1 and 2, R173). -/
theorem finish_encodeBody_bitBuf (s : State) :
    ((finish (encodeBody s)).err = false → ∀ w, wordsFor (codesOf s.code (bytesIn s)).length ≤ w →
      (finish (encodeBody s)).bitBuf.read w = s.bitBuf.read w) ∧
    ((finish (encodeBody s)).errCode = .length ∨ (finish (encodeBody s)).errCode = .emptyInput →
      ∀ w, (finish (encodeBody s)).bitBuf.read w = s.bitBuf.read w) := by
  rcases encodeBody_cases s with ⟨-, h⟩ | ⟨-, -, h⟩ | ⟨-, -, f, hf, -, h⟩ | ⟨-, -, -, -, h⟩ <;> rw [h]
  · exact ⟨fun _ _ _ => rfl, fun _ _ => rfl⟩
  · exact ⟨fun _ _ _ => rfl, fun _ _ => rfl⟩
  · exact ⟨fun ok => absurd ok Bool.noConfusion, fun code => absurd code (by rcases hf with hf | hf <;> simp [hf])⟩
  · exact ⟨fun _ w hw => read_writeFrom_packWords s.bitBuf _ _ w hw, fun code => absurd code (by simp)⟩

/-- Settles O59: what every command keeps, what all but CLEAR keep, the session and the lengths and buffers ENCODE does not write;
`finish_encodeBody_bitBuf` says what it leaves of BIT_BUF. -/
theorem frameOfEncode : Obligations.FrameOfEncode := by
  intro s t h
  obtain rfl : t = finish (encodeBody s) := exec_next h
  have engine : EngineKeeps s (finish (encodeBody s)) := finish_body_keeps .encode s
  have session := keepsSession_encodeBody s
  obtain ⟨haz, freq⟩ := finish_keeps_haz_freq .encode s (by decide)
  obtain ⟨inLen, outLen, outBuf⟩ := finish_encodeBody_keeps_streams s
  obtain ⟨past, early⟩ := finish_encodeBody_bitBuf s
  refine ⟨engine.program, engine.sched, engine.readData, engine.params, engine.cmdLatch, haz, session.treeValid,
    session.tableValid, inLen, outLen, session.leafCount, session.nodeCount, session.root, session.totalFreq, session.nodes,
    fun c => congrArg (lookSym · c) freq, fun c => by rw [session.code], fun k => by rw [engine.inBuf],
    fun k => by rw [outBuf], fun ok => ?_, early⟩
  obtain ⟨info, sym⟩ := finish_body_info .encode ok
  exact ⟨info, sym, past ok⟩

/-! ### DECODE -/

theorem keepsSession_decodeBody (s : State) : KeepsSession s (finish (decodeBody s)) := by
  rcases decodeBody_cases s with ⟨-, h⟩ | ⟨-, -, h⟩ | ⟨-, -, -, h⟩ | ⟨-, -, -, f, -, -, h⟩ | ⟨-, -, -, out, -, -, -, h⟩ <;>
    rw [h] <;> exact ⟨rfl, rfl, rfl, rfl, rfl, rfl, rfl, rfl⟩

/-- Of the lengths and buffers DECODE writes OUT_LEN and OUT_BUF alone (R61, R190). -/
theorem finish_decodeBody_keeps_streams (s : State) :
    (finish (decodeBody s)).inLen = s.inLen ∧ (finish (decodeBody s)).bitLen = s.bitLen ∧
    (finish (decodeBody s)).bitBuf = s.bitBuf := by
  rcases decodeBody_cases s with ⟨-, h⟩ | ⟨-, -, h⟩ | ⟨-, -, -, h⟩ | ⟨-, -, -, f, -, -, h⟩ | ⟨-, -, -, out, -, -, -, h⟩ <;>
    rw [h] <;> exact ⟨rfl, rfl, rfl⟩

/-- What DECODE leaves of OUT_BUF: the bytes from OUT_LEN on when it completes (R190), and every byte when a check before the walk
fails (R192 items 1 to 3, R193). -/
theorem finish_decodeBody_outBuf (s : State) :
    ((finish (decodeBody s)).err = false → ∀ k, (finish (decodeBody s)).outLen.toNat ≤ k →
      (finish (decodeBody s)).outBuf.read k = s.outBuf.read k) ∧
    ((finish (decodeBody s)).errCode = .emptyTree ∨ (finish (decodeBody s)).errCode = .length ∨ s.bitLen = 0 →
      ∀ k, (finish (decodeBody s)).outBuf.read k = s.outBuf.read k) := by
  rcases decodeBody_cases s with ⟨-, h⟩ | ⟨-, -, h⟩ | ⟨-, -, -, h⟩ | ⟨-, -, hb, f, hf, -, h⟩ | ⟨-, -, hb, out, -, hl, -, h⟩ <;>
    rw [h]
  · exact ⟨fun _ _ _ => rfl, fun _ _ => rfl⟩
  · exact ⟨fun _ _ _ => rfl, fun _ _ => rfl⟩
  · exact ⟨fun _ _ _ => rfl, fun _ _ => rfl⟩
  · exact ⟨fun ok => absurd ok Bool.noConfusion, fun code => absurd code (by rcases hf with hf | hf <;> simpa [hf] using hb)⟩
  · have fits : (BitVec.ofNat 32 out.length).toNat = out.length := by
      have := s.bitLen.isLt
      rw [BitVec.toNat_ofNat, Nat.mod_eq_of_lt (by omega)]
    exact ⟨fun _ k hk => s.outBuf.read_writeFrom_past out (fits.symm.trans_le hk), fun code => absurd code (by simpa using hb)⟩

/-- Settles O60: what every command keeps, what all but CLEAR keep, the session and the lengths and buffers DECODE does not write;
`finish_decodeBody_outBuf` says what it leaves of OUT_BUF. -/
theorem frameOfDecode : Obligations.FrameOfDecode := by
  intro s t h
  obtain rfl : t = finish (decodeBody s) := exec_next h
  have engine : EngineKeeps s (finish (decodeBody s)) := finish_body_keeps .decode s
  have session := keepsSession_decodeBody s
  obtain ⟨haz, freq⟩ := finish_keeps_haz_freq .decode s (by decide)
  obtain ⟨inLen, bitLen, bitBuf⟩ := finish_decodeBody_keeps_streams s
  obtain ⟨past, early⟩ := finish_decodeBody_outBuf s
  refine ⟨engine.program, engine.sched, engine.readData, engine.params, engine.cmdLatch, haz, session.treeValid,
    session.tableValid, inLen, bitLen, session.leafCount, session.nodeCount, session.root, session.totalFreq, session.nodes,
    fun c => congrArg (lookSym · c) freq, fun c => by rw [session.code], fun k => by rw [engine.inBuf],
    fun k => by rw [bitBuf], fun ok => ?_, early⟩
  obtain ⟨info, sym⟩ := finish_body_info .decode ok
  exact ⟨info, sym, past ok⟩

end Sys2Proof.Machine
end

section
/-! PROOFS. The command word (R90 to R95): its fields as numbers, what the decoder answers by the word's number, and that each
command has one word. -/

namespace Sys2Proof

theorem toNat_opField (w : Word) : (opField w).toNat = w.toNat % 256 := by
  simp [opField]

theorem toNat_rsvField (w : Word) : (rsvField w).toNat = w.toNat / 256 := by
  have hw := w.isLt
  rw [rsvField, BitVec.extractLsb'_toNat, Nat.shiftRight_eq_div_pow, Nat.mod_eq_of_lt (by omega)]

/-- RSV is the test R93 makes first; below 256 it is 0. -/
theorem rsvField_eq_zero_iff (w : Word) : rsvField w = 0 ↔ w.toNat / 256 = 0 := by
  rw [← BitVec.toNat_inj, toNat_rsvField, BitVec.ofNat_eq_ofNat, BitVec.toNat_zero]

/-- The map lists the commands by number (R92). -/
theorem opcodeMap_eq_getElem? (op : Byte) : opcodeMap op = Instr.all[op.toNat]? := by
  unfold opcodeMap
  generalize op.toNat = n
  match n with
  | 0 | 1 | 2 | 3 | 4 | 5 | 6 => rfl
  | _ + 7 => rfl

theorem decode_of_rsv {w : Word} (h : w.toNat / 256 ≠ 0) : decode w = .error .reservedField :=
  if_pos (mt (rsvField_eq_zero_iff w).mp h)

/-- With RSV = 0 the word's number selects in the map (R93). -/
theorem decode_of_rsv_zero {w : Word} (h : w.toNat / 256 = 0) :
    decode w = (Instr.all[w.toNat]?).elim (.error .reservedOpcode) .ok := by
  have hop : opcodeMap (opField w) = Instr.all[w.toNat]? := by
    rw [opcodeMap_eq_getElem?, toNat_opField, Nat.mod_eq_of_lt (by omega)]
  rw [decode, if_neg (not_not.mpr ((rsvField_eq_zero_iff w).mpr h)), hop]
  cases Instr.all[w.toNat]? <;> rfl

/-- A word decodes to the command that the map has at the word's number; no word with RSV ≠ 0 is so low. -/
theorem decode_eq_ok_iff_getElem? (w : Word) (i : Instr) : decode w = .ok i ↔ Instr.all[w.toNat]? = some i := by
  by_cases hrsv : w.toNat / 256 = 0
  · rw [decode_of_rsv_zero hrsv]
    cases Instr.all[w.toNat]? <;> simp
  · have past : Instr.all.length ≤ w.toNat := by
      show 7 ≤ w.toNat
      omega
    rw [decode_of_rsv hrsv, List.getElem?_eq_none past]
    simp

/-- The map has each command at the number of its word, and nowhere else (R92). -/
theorem getElem?_all_eq_some_iff (w : Word) (i : Instr) : Instr.all[w.toNat]? = some i ↔ w = encode i := by
  have place : Instr.all[(encode i).toNat]? = some i := by cases i <;> rfl
  have once : Instr.all.Nodup := by decide
  constructor
  · intro h
    have low : w.toNat < Instr.all.length := (List.getElem?_eq_some_iff.mp h).1
    exact BitVec.eq_of_toNat_eq ((List.getElem?_inj low once).mp (h.trans place.symm))
  · rintro rfl
    exact place

/-- Settles O2: the word decodes to what the map has at its number, which is the command whose word it is. -/
theorem wholeWordSelectsCommand : Obligations.WholeWordSelectsCommand := fun w i =>
  (decode_eq_ok_iff_getElem? w i).trans (getElem?_all_eq_some_iff w i)

/-- Settles O3: RSV is tested first, then the word's number selects in the map of seven. -/
theorem illegalWordsClassified : Obligations.IllegalWordsClassified := by
  refine fun w => ⟨decode_of_rsv, fun hrsv hop => ?_, fun hop => ?_⟩
  · rw [decode_of_rsv_zero hrsv, List.getElem?_eq_none (by exact hop), Option.elim_none]
  · have hmap : Instr.all[w.toNat]? = some Instr.all[w.toNat] := List.getElem?_eq_getElem hop
    exact ⟨_, hmap, (decode_eq_ok_iff_getElem? w _).mpr hmap⟩

/-- Settles O1: each of the seven words is the word of its command. -/
theorem opcodeMapWords : Obligations.OpcodeMapWords := by
  have word : ∀ w i, w = encode i → decode w = .ok i := fun w i => (wholeWordSelectsCommand w i).mpr
  exact ⟨word _ _ rfl, word _ _ rfl, word _ _ rfl, word _ _ rfl, word _ _ rfl, word _ _ rfl, word _ _ rfl⟩

end Sys2Proof
end

section
/-! PROOFS. The polling loop WAIT and the EXEC line (R97, R98). -/

namespace Sys2Proof.Machine

theorem regionOf_statusAddr (p : Config.Params) : regionOf p statusAddr = .status := regionOf_register rfl

/-- WAIT with BUSY = 0 ends: the access is taken off and STATUS is the read data. -/
theorem step_wait_idle {s : State} {rest : List HostOp} (hb : s.busy = false) (ha : nextAgent s = .host)
    (hp : s.program = .wait :: rest) :
    step s = .next { s.popSched with program := rest, readData := some s.statusWord } := by
  have idle : portRead statusAddr s.popSched.popHost =
      { s.popSched with program := rest, readData := some s.statusWord } := by
    rw [portRead_idle _ (by simpa using hb), regionOf_statusAddr, popHost_popSched_eq hp]
    rfl
  rw [step_host ha hp, hostOp, State.popSched_busy, hb, if_neg Bool.false_ne_true, idle]

/-- WAIT with BUSY = 1 stays: nothing is taken off, and the read data is a word of R251. -/
theorem step_wait_busy {s : State} {rest : List HostOp} (hb : s.busy = true) (ha : nextAgent s = .host)
    (hp : s.program = .wait :: rest) :
    step s = .next { s.popSched with
      program := .wait :: rest
      readData := some (busyStatusWord s.haz (Config.freeBits 32 s.draws 0))
      draws := s.draws + 1 } := by
  rw [step_host ha hp, hostOp, State.popSched_busy, if_pos hb, portRead, State.popSched_busy, if_pos hb,
    regionOf_statusAddr, readBusyRegion, if_pos rfl, ← hp]
  rfl

/-- The bits of a STATUS read while BUSY = 1, but for the two that are free (R251). -/
theorem busyStatusWord_bits (haz : Bool) (free : Word) :
    (busyStatusWord haz free).getLsbD 0 = true ∧ (busyStatusWord haz free).getLsbD 3 = haz ∧
    ∀ b, b ≠ 0 → b ≠ 3 → b ≠ 16 → b ≠ 17 → (busyStatusWord haz free).getLsbD b = false := by
  simp only [busyStatusWord, getLsbD_packStatus]
  refine ⟨rfl, rfl, fun b h0 h3 h16 h17 => ?_⟩
  split_ifs
  · omega
  · rfl
  · rfl
  · omega
  · rfl
  · exact BitVec.getLsbD_zero
  · rfl
  · omega
  · omega
  · rfl

/-- Settles O23: `step_wait_idle`, and `step_wait_busy` with the bits of `busyStatusWord_bits`. -/
theorem waitPollsStatus : Obligations.WaitPollsStatus := fun s _ ha hp =>
  ⟨fun hb => step_wait_idle hb ha hp, fun hb => ⟨_, step_wait_busy hb ha hp, busyStatusWord_bits s.haz _⟩⟩

theorem State.popSched_of_nil {s : State} (hs : s.sched = []) : s.popSched = s := by
  obtain ⟨⟩ := s
  obtain rfl := hs
  rfl

theorem nextAgent_of_idle {s : State} (hb : s.busy = false) (hs : s.sched = []) : nextAgent s = .host := by
  simp [nextAgent, hs, hb]

/-- In the model's default order a pending command runs first, and then the WAIT behind it ends at its first read. -/
theorem pending_command_then_wait {u : State} {i : Instr} {rest : List HostOp} (hb : u.busy = true) (hs : u.sched = [])
    (hl : u.cmdLatch = encode i) (hp : u.program = .wait :: rest) :
    ∃ t, step u = .next t ∧ exec i u = .next t ∧
      step t = .next { t with program := rest, readData := some t.statusWord } := by
  have decoded : decode u.cmdLatch = .ok i := (wholeWordSelectsCommand _ i).mpr hl
  have ran := stepRunsDecodedCommand u i hb (nextAgent_of_pending hb hs) decoded
  rw [State.popSched_of_nil hs] at ran
  have keeps : EngineKeeps u (finish (bodyOf i u)) := finish_body_keeps i u
  have tsched : (finish (bodyOf i u)).sched = [] := keeps.sched.trans hs
  have waited := step_wait_idle keeps.idle (nextAgent_of_idle keeps.idle tsched) (keeps.program.trans hp)
  rw [State.popSched_of_nil tsched] at waited
  exact ⟨finish (bodyOf i u), ran.trans (exec_eq i u), exec_eq i u, waited⟩

/-- Settles O26: the write of the command's word is accepted (`commandWriteAccepted`), and then `pending_command_then_wait`. -/
theorem execLineRunsCommand : Obligations.ExecLineRunsCommand := by
  intro s i stated rest hb hs hp
  have issued := commandWriteAccepted s _ (encode i) (.wait :: rest) hb (nextAgent_of_idle hb hs) hp (regionOf_register rfl)
  rw [State.popSched_of_nil hs] at issued
  obtain ⟨t, ran, meaning, waited⟩ :=
    pending_command_then_wait (u := acceptCommand (encode i) { s with program := .wait :: rest }) rfl hs rfl rfl
  exact ⟨t, issued, ran, meaning, waited⟩

end Sys2Proof.Machine
end

section
/-! PROOFS. The control commands (R111, R112) and the illegal word (R113). -/

namespace Sys2Proof.Machine

/-- The engine step of an illegal word is `raise` of ILLEGAL_CMD with the whole word (R113). -/
theorem engineStep_of_error {s : State} {why : IllegalWord} (hd : decode s.cmdLatch = .error why) :
    engineStep s = .next (raise .illegalCmd s.cmdLatch 0 s) := by
  rw [engineStep, hd, execIllegal, illegalBody, finish_raise]

/-- Settles O11: the turn is the engine step, and taking the schedule's entry off keeps the latched word. -/
theorem stepRunsIllegalWord : Obligations.StepRunsIllegalWord := by
  intro s why hb ha hd
  have illegal : decode s.popSched.cmdLatch = .error why := by rwa [State.popSched_cmdLatch]
  exact (step_engine hb ha).trans (engineStep_of_error illegal)

/-- Settles O30: 0 is the word of NOP, and the body of NOP is its `complete` alone. -/
theorem nopCompletes : Obligations.NopCompletes :=
  ⟨(wholeWordSelectsCommand 0 .nop).mpr rfl, exec_eq .nop⟩

/-- Both windows read 0 at and past NODE_COUNT (R33, R34). -/
theorem readRegion_node_past {s : State} {i : Nat} (hi : s.nodeCount.toNat ≤ i) :
    readRegion s (.nodeLink i) = 0 ∧ readRegion s (.nodeFreq i) = 0 :=
  ⟨if_neg hi.not_gt, if_neg hi.not_gt⟩

/-- Settles O31: what every command keeps and how every success ends; the rest is the body of CLEAR. -/
theorem clearCompletes : Obligations.ClearCompletes := by
  intro s
  have engine : EngineKeeps s (finish (clearBody s)) := finish_body_keeps .clear s
  obtain ⟨info, sym⟩ := finish_body_info .clear (s := s) rfl
  exact ⟨finish (clearBody s), exec_eq .clear s,
    engine.idle, engine.ended, rfl, rfl, rfl,
    rfl, rfl,
    lookSym_zeroFreq, lookSym_emptyTable,
    rfl, rfl, rfl, rfl, rfl, rfl, rfl,
    fun _ => readRegion_node_past (Nat.zero_le _),
    engine.program, engine.sched, engine.readData, engine.params,
    engine.cmdLatch, info, sym,
    fun i => congrArg (Memory.read · i) engine.inBuf, fun _ => rfl,
    fun _ => rfl⟩

end Sys2Proof.Machine
end

section
/-! PROOFS. The frequencies of an arena: an internal node is the merge of the two least keys of its pool (R132, R133), so they
never decrease (R142), and none exceeds the root's (R141). -/

namespace Sys2Proof.Machine

/-- NODE[n] is the merge of R133: `r` and `l` have the least and the second least key of the pool. -/
structure LeastMerge (nodes : List Node) (n l r : Nat) : Prop where
  freq_add : freqAt nodes n = freqAt nodes l + freqAt nodes r
  left : InPool nodes n l
  right : InPool nodes n r
  right_less : KeyLess nodes r l
  least : ∀ z, InPool nodes n z → z ≠ l → z ≠ r → KeyLess nodes l z

theorem KeyLess.freqAt_le {nodes : List Node} {a b : Nat} (h : KeyLess nodes a b) : freqAt nodes a ≤ freqAt nodes b := by
  rcases h with h | ⟨h, -⟩
  · exact h.le
  · exact h.le

/-- After the merge that made NODE[n], the pool is the new node and what the merge left there. -/
theorem InPool.of_succ {nodes : List Node} {n l r z : Nat} (hn : InternalAt nodes n l r) (h : InPool nodes (n + 1) z) :
    z = n ∨ (InPool nodes n z ∧ z ≠ l ∧ z ≠ r) := by
  obtain ⟨hz, free⟩ := h
  rcases Nat.lt_succ_iff_lt_or_eq.mp hz with hlt | rfl
  · refine .inr ⟨⟨hlt, fun p hp => free p (by omega)⟩, ?_, ?_⟩
    · rintro rfl; exact free n (Nat.lt_succ_self n) ⟨_, _, hn, .inl rfl⟩
    · rintro rfl; exact free n (Nat.lt_succ_self n) ⟨_, _, hn, .inr rfl⟩
  · exact .inl rfl

/-- Nothing in the pool after a merge is less frequent than the left child, the second node the merge removed. -/
theorem LeastMerge.left_le_of_inPool_succ {nodes : List Node} {n l r z : Nat} (merge : LeastMerge nodes n l r)
    (hn : InternalAt nodes n l r) (hz : InPool nodes (n + 1) z) : freqAt nodes l ≤ freqAt nodes z := by
  rcases hz.of_succ hn with rfl | ⟨hz, hl, hr⟩
  · rw [merge.freq_add]; exact Nat.le_add_right _ _
  · exact (merge.least z hz hl hr).freqAt_le

/-- A merge is at most as frequent as the next one: both nodes the next one removes were still in the pool. -/
theorem LeastMerge.freqAt_le_succ {nodes : List Node} {n l r l' r' : Nat} (merge : LeastMerge nodes n l r)
    (merge' : LeastMerge nodes (n + 1) l' r') (hn : InternalAt nodes n l r) : freqAt nodes n ≤ freqAt nodes (n + 1) := by
  have hl := merge.left_le_of_inPool_succ hn merge'.left
  have hr := merge.left_le_of_inPool_succ hn merge'.right
  have hrl := merge.right_less.freqAt_le
  rw [merge.freq_add, merge'.freq_add]
  omega

/-- R142, of any arena whose internal nodes are the merges of R133. -/
theorem ArenaOk.freqAt_internal_mono {nodes : List Node} {M : Nat} (ok : ArenaOk nodes M)
    (merges : ∀ n l r, InternalAt nodes n l r → LeastMerge nodes n l r) {n n' : Nat} (hn : M ≤ n) (hle : n ≤ n')
    (hroot : n' < 2 * M - 1) : freqAt nodes n ≤ freqAt nodes n' := by
  induction n', hle using Nat.le_induction with
  | base => exact Nat.le_refl _
  | succ k hk ih =>
    obtain ⟨l, r, hi, -⟩ := ok.internal k (by omega) (by omega)
    obtain ⟨l', r', hi', -⟩ := ok.internal (k + 1) (by omega) hroot
    exact (ih (by omega)).trans ((merges k l r hi).freqAt_le_succ (merges (k + 1) l' r' hi') hi)

/-- Frequencies never grow on the way down from a node. -/
theorem ArenaOk.freqAt_le_of_isPath {nodes : List Node} {M : Nat} (ok : ArenaOk nodes M) {a m : Nat} {p : Bits}
    (h : IsPath nodes a p m) : freqAt nodes m ≤ freqAt nodes a := by
  induction h with
  | root => exact Nat.le_refl _
  | left _ hi ih => have := ok.freq_add _ _ _ hi; omega
  | right _ hi ih => have := ok.freq_add _ _ _ hi; omega

theorem ArenaOk.freqAt_le_root {nodes : List Node} {M : Nat} (ok : ArenaOk nodes M) (n : Nat) :
    freqAt nodes n ≤ freqAt nodes (2 * M - 2) := by
  by_cases hn : n < 2 * M - 1
  · obtain ⟨p, hp⟩ := ok.exists_path n hn
    exact ok.freqAt_le_of_isPath hp
  · have past : nodes[n]? = none := List.getElem?_eq_none (ok.length_eq.trans_le (by omega))
    simp [freqAt, past]

/-- Settles O36: TOTAL_FREQ is the root's frequency, and every node is reached from the root. -/
theorem nodeFrequenciesFit : Obligations.NodeFrequenciesFit := by
  intro s inv hv
  have tree := inv.session.tree hv
  refine ⟨fun n => ?_, tree.arena.freq_add⟩
  rw [tree.total, tree.root]
  exact tree.arena.freqAt_le_root n

end Sys2Proof.Machine
end

section
/-! PROOFS. BUILD (R130 to R139): what a BUILD that completes and one that raises leave, and the merges of its arena. -/

namespace Sys2Proof.Machine

/-! ### The two endings -/

theorem leavesOf_length_eq_zero_iff {freq : Vector Word 256} : (leavesOf freq).length = 0 ↔ present freq = [] := by
  rw [leavesOf_length, List.length_eq_zero_iff]

/-- BUILD raises in the two cases of R137, in their order, and leaves no session (R138). -/
theorem buildBody_raises {s : State} (h : present s.freq = [] ∨ freqSum s.freq > 2 ^ 32 - 1) :
    buildBody s =
      (dropSession s, .raise (if present s.freq = [] then .emptyInput else .freqOverflow) 0 0) := by
  rcases buildBody_cases s with ⟨h0, e⟩ | ⟨h0, -, e⟩ | ⟨h0, fits, -⟩
  · rw [e, if_pos (leavesOf_length_eq_zero_iff.mp h0)]
  · rw [e, if_neg (mt leavesOf_length_eq_zero_iff.mpr h0)]
  · rw [totalOf_leavesOf] at fits
    rcases h with h | h
    · exact absurd (leavesOf_length_eq_zero_iff.mpr h) h0
    · omega

/-- A BUILD that leaves a tree found no error, and wrote the arena of FREQ, which is one of R44. -/
theorem build_tree {s t : State} (h : exec .build s = .next t) (hv : t.treeValid = true) :
    present s.freq ≠ [] ∧ freqSum s.freq ≤ 2 ^ 32 - 1 ∧ t.nodes = arenaOf s.freq ∧ TreeOk t := by
  obtain rfl : t = finish (buildBody s) := exec_next h
  have tree : TreeOk (finish (buildBody s)) := (SessionOk.finish (sessionOk_buildBody s)).tree hv
  by_cases herr : present s.freq = [] ∨ freqSum s.freq > 2 ^ 32 - 1
  · rw [buildBody_raises herr] at hv
    exact absurd hv Bool.false_ne_true
  · obtain ⟨hne, fits⟩ := not_or.mp herr
    have body := (treeOk_build s hne (Nat.le_of_not_gt fits)).1
    exact ⟨hne, Nat.le_of_not_gt fits, by rw [body]; rfl, tree⟩

/-- A command ends as its body does. -/
theorem exec_of_body {i : Instr} {s : State} {p : State × Ending} (h : bodyOf i s = p) : exec i s = .next (finish p) := by
  rw [exec_eq, h]

theorem toNat_ofNat_word {n : Nat} (h : n < 2 ^ 32) : (BitVec.ofNat 32 n).toNat = n := by
  rw [BitVec.toNat_ofNat, Nat.mod_eq_of_lt h]

/-- Settles O32: `treeOk_build` gives the body, whose registers fit 32 bits, and the arena's leaves are those of
`arenaOf_leafAt` and `arenaOf_leaf_freq`. -/
theorem buildCompletes : Obligations.BuildCompletes := by
  intro s hne fits
  have ran := exec_of_body (i := .build) (treeOk_build s hne fits).1
  obtain ⟨-, -, -, tree⟩ := build_tree ran rfl
  have hM := present_length_le s.freq
  exact ⟨_, ran, rfl, rfl, rfl, rfl, rfl, rfl, lookSym_emptyTable,
    toNat_ofNat_word (by omega), toNat_ofNat_word (by omega), toNat_ofNat_word (by omega),
    toNat_ofNat_word (by omega), tree, arenaOf_leafAt s.freq hne fits, arenaOf_leaf_freq s.freq hne fits⟩

/-- Settles O33: the body is `buildBody_raises`. -/
theorem buildErrors : Obligations.BuildErrors := by
  intro s h
  have ran := exec_of_body (i := .build) (buildBody_raises h)
  exact ⟨_, ran, rfl, rfl, rfl, rfl, rfl, rfl, rfl, rfl, rfl, rfl, rfl, rfl, lookSym_emptyTable, fun _ => rfl⟩

/-! ### The merges -/

/-- Every internal node of a built arena is a merge of R133. -/
theorem build_leastMerge {s t : State} (h : exec .build s = .next t) (hv : t.treeValid = true) {n l r : Nat}
    (hi : InternalAt t.nodes n l r) : LeastMerge t.nodes n l r := by
  obtain ⟨hne, fits, nodes, tree⟩ := build_tree h hv
  have freq_add := tree.arena.freq_add n l r hi
  rw [nodes] at hi freq_add ⊢
  obtain ⟨left, right, right_less, least⟩ := arenaOf_greedy s.freq hne fits n l r hi
  exact ⟨freq_add, left, right, right_less, least⟩

/-- Settles O34, by `build_leastMerge`. -/
theorem buildMergesTwoLeastKeys : Obligations.BuildMergesTwoLeastKeys := by
  intro s t h hv n l r hi
  obtain ⟨freq_add, left, right, right_less, least⟩ := build_leastMerge h hv hi
  exact ⟨freq_add, left, right, right_less, least⟩

/-- Settles O35: each merge is at most as frequent as the next (`LeastMerge.freqAt_le_succ`). -/
theorem internalFrequenciesNeverDecrease : Obligations.InternalFrequenciesNeverDecrease := by
  intro s t h hv n n' hn hlt hroot
  obtain ⟨-, -, -, tree⟩ := build_tree h hv
  have hM := tree.arena.leaves_pos
  have root := tree.root
  exact tree.arena.freqAt_internal_mono (fun _ _ _ hi => build_leastMerge h hv hi) hn hlt.le (by omega)

/-! ### One present symbol -/

theorem leavesOf_singleton {freq : Vector Word 256} {c : Byte} (h : present freq = [c]) :
    leavesOf freq = [.leaf c (lookSym freq c)] := by
  rw [leavesOf_eq, h, List.map_singleton]

/-- A pool of one member needs no merge (R136). -/
theorem arenaOf_singleton {freq : Vector Word 256} {c : Byte} (h : present freq = [c]) :
    arenaOf freq = [.leaf c (lookSym freq c)] := by
  rw [arenaOf, leavesOf_singleton h]
  rfl

theorem freqSum_singleton {freq : Vector Word 256} {c : Byte} (h : present freq = [c]) :
    freqSum freq = (lookSym freq c).toNat := by
  rw [← totalOf_leavesOf, leavesOf_singleton h, totalOf, List.map_singleton, List.sum_singleton, Node.freq]

/-- Settles O37: one count always fits, and the arena is `arenaOf_singleton`. -/
theorem buildOneSymbol : Obligations.BuildOneSymbol := by
  intro s c h
  have total := freqSum_singleton h
  have count := (lookSym s.freq c).isLt
  obtain ⟨body, -⟩ := treeOk_build s (by simp [h]) (by omega)
  rw [arenaOf_singleton h, total, h, BitVec.ofNat_toNat, BitVec.setWidth_eq] at body
  exact ⟨_, exec_of_body (i := .build) body, rfl, rfl, rfl, rfl, rfl, rfl⟩

/-! ### Determinism -/

/-- BUILD reads FREQ alone (R139). -/
theorem keepsSession_build_of_freq_eq {s s' : State} (h : s.freq = s'.freq) :
    KeepsSession (finish (buildBody s)) (finish (buildBody s')) := by
  unfold buildBody
  rw [h]
  split_ifs
  · exact ⟨rfl, rfl, rfl, rfl, rfl, rfl, rfl, rfl⟩
  · exact ⟨rfl, rfl, rfl, rfl, rfl, rfl, rfl, rfl⟩
  · exact ⟨rfl, rfl, rfl, rfl, rfl, rfl, rfl, rfl⟩

/-- DERIVE reads the tree alone (R150). -/
theorem KeepsSession.derive_code {s t : State} (h : KeepsSession s t) :
    (finish (deriveBody t)).code = (finish (deriveBody s)).code := by
  unfold deriveBody
  rw [h.treeValid, h.nodes, h.leafCount, h.nodeCount, h.root]
  split_ifs <;> rfl

/-- Settles O38: BUILDs of equal counts leave the same session, from which DERIVE makes the same table. -/
theorem buildIsDeterminedByFreq : Obligations.BuildIsDeterminedByFreq := by
  intro s s' t t' hfreq h h'
  obtain rfl := exec_next h
  obtain rfl := exec_next h'
  have same : KeepsSession (finish (buildBody s)) (finish (buildBody s')) :=
    keepsSession_build_of_freq_eq (lookSym_ext hfreq)
  refine ⟨same.nodes.symm, fun u u' hu hu' c => ?_⟩
  obtain rfl := exec_next hu
  obtain rfl := exec_next hu'
  exact congrArg (lookSym · c) same.derive_code.symm

end Sys2Proof.Machine
end

section
/-! PROOFS. DERIVE and BUILD_CODE (R150 to R156): what they leave with a tree and without one. -/

namespace Sys2Proof.Machine

/-! ### DERIVE -/

/-- With a tree, DERIVE writes the tree's table and completes (R150). -/
theorem deriveBody_of_tree {s : State} (hv : s.treeValid = true) :
    deriveBody s = ({ dropTable s with
        code := tableOf s.nodes s.leafCount.toNat s.nodeCount.toNat s.root.toNat
        tableValid := true }, .complete) :=
  if_pos hv

/-- Without a tree, DERIVE drops the table and raises EMPTY_TREE (R155). -/
theorem deriveBody_of_noTree {s : State} (hv : s.treeValid = false) :
    deriveBody s = (dropTable s, .raise .emptyTree 0 0) :=
  if_neg (by simp [hv])

/-- The table DERIVE makes of a state's tree is that of R151 and R153. -/
theorem TreeOk.tableOk {s : State} (tree : TreeOk s) :
    TableOk s.nodes s.leafCount.toNat s.root.toNat
      (tableOf s.nodes s.leafCount.toNat s.nodeCount.toNat s.root.toNat) := by
  rw [tree.nodeCount, tree.root]
  exact tableOf_ok tree.arena

/-- The table a DERIVE leaves is the table of the tree it read (R150). -/
theorem derive_tableOk {s t : State} (h : exec .derive s = .next t) (hv : s.treeValid = true) (tree : TreeOk s) :
    TableOk s.nodes s.leafCount.toNat (2 * s.leafCount.toNat - 2) t.code := by
  obtain rfl := exec_next h
  rw [bodyOf, deriveBody_of_tree hv, ← tree.root]
  exact tree.tableOk

/-- Settles O39: the body is `deriveBody_of_tree`, and its table is `TreeOk.tableOk`. -/
theorem deriveCompletes : Obligations.DeriveCompletes := by
  intro s inv hv
  exact ⟨_, exec_of_body (i := .derive) (deriveBody_of_tree hv), rfl, rfl, rfl, rfl, hv, rfl,
    (inv.session.tree hv).tableOk, rfl, rfl, rfl, rfl, rfl⟩

/-- Settles O40: the body is `deriveBody_of_noTree`. -/
theorem deriveWithoutTree : Obligations.DeriveWithoutTree := by
  intro s hv
  exact ⟨_, exec_of_body (i := .derive) (deriveBody_of_noTree hv), rfl, rfl, rfl, rfl, rfl, rfl, rfl, lookSym_emptyTable⟩

/-! ### BUILD_CODE -/

/-- DERIVE's end is the same after a completion as before it: it reads no completion field and writes them all (R212, R213). -/
theorem finish_deriveBody_complete (s : State) : finish (deriveBody (complete s)) = finish (deriveBody s) := by
  rcases deriveBody_cases s with ⟨hv, h⟩ | ⟨hv, h⟩ <;> rw [h]
  · rw [deriveBody_of_noTree (s := complete s) hv]; rfl
  · rw [deriveBody_of_tree (s := complete s) hv]; rfl

/-- Settles O43, by the two cases of BUILD_CODE's body; DERIVE from the completed BUILD is `finish_deriveBody_complete`. -/
theorem buildCodeIsBuildThenDerive : Obligations.BuildCodeIsBuildThenDerive := by
  intro s t u ht hu
  obtain rfl : t = finish (buildBody s) := exec_next ht
  obtain rfl : u = finish (buildCodeBody s) := exec_next hu
  rcases buildCodeBody_cases s with ⟨code, info, sym, raised, same⟩ | ⟨completed, derived⟩
  · have err : (finish (buildBody s)).err = true := by rw [← Prod.eta (buildBody s), raised]; rfl
    exact ⟨fun _ => by rw [same], fun ok => absurd (err.symm.trans ok) Bool.noConfusion⟩
  · have built : finish (buildBody s) = complete (buildBody s).1 := by rw [← Prod.eta (buildBody s), completed]; rfl
    rw [built, derived]
    exact ⟨fun err => absurd err Bool.false_ne_true,
      fun _ => (exec_eq .derive _).trans (congrArg _ (finish_deriveBody_complete _))⟩

/-- Settles O44: BUILD completes with a tree of R44 (`treeOk_build`), from which DERIVE writes the tree's table. -/
theorem buildCodeCompletes : Obligations.BuildCodeCompletes := by
  intro s hne fits
  obtain ⟨built, tree⟩ := treeOk_build s hne fits
  have hv : (buildBody s).1.treeValid = true := by rw [built]
  have nodes : (buildBody s).1.nodes = arenaOf s.freq := by rw [built]
  have derived : buildCodeBody s = deriveBody (buildBody s).1 := by rw [buildCodeBody, built]
  refine ⟨_, exec_of_body (i := .buildCode) (derived.trans (deriveBody_of_tree hv)), rfl, rfl, rfl, rfl, hv, rfl,
    ⟨tree.arena, tree.nodeCount, tree.root, tree.total⟩, tree.tableOk, fun n c => ?_⟩
  exact nodes ▸ arenaOf_leafAt s.freq hne fits n c

theorem buildBody_tableValid (s : State) : (buildBody s).1.tableValid = false := by
  rcases buildBody_cases s with ⟨-, h⟩ | ⟨-, -, h⟩ | ⟨-, -, h⟩ <;> rw [h] <;> rfl

/-- A BUILD_CODE that leaves a table is a BUILD that leaves a tree, and then a DERIVE (R156). -/
theorem buildCode_table {s t : State} (h : exec .buildCode s = .next t) (hv : t.tableValid = true) :
    ∃ b, exec .build s = .next b ∧ b.treeValid = true ∧ exec .derive b = .next t := by
  have ran : exec .build s = .next (finish (buildBody s)) := exec_eq .build s
  have noTable : (finish (buildBody s)).tableValid = false := (finish_tableValid _).trans (buildBody_tableValid s)
  obtain ⟨raised, completed⟩ := buildCodeIsBuildThenDerive s _ t ran h
  cases herr : (finish (buildBody s)).err with
  | true =>
    rw [raised herr, noTable] at hv
    exact absurd hv Bool.false_ne_true
  | false =>
    have derived := completed herr
    refine ⟨_, ran, ?_, derived⟩
    obtain rfl := exec_next derived
    rw [← (finish_deriveBody_keeps_tree (finish (buildBody s))).1]
    exact body_table_tree .derive (fun table => absurd (noTable.symm.trans table) Bool.noConfusion) hv

end Sys2Proof.Machine
end

section
/-! PROOFS. The Kraft sum of a code table (R152): below every node of the tree, the codes that start with the node's path share
what the path itself is worth. -/

namespace Sys2Proof.Machine

/-- The symbols whose code starts with `p`. -/
def codedBelow (code : Vector Bits 256) (p : Bits) : Finset Byte :=
  symbols.toFinset.filter fun c => lookSym code c ≠ [] ∧ p <+: lookSym code c

theorem mem_codedBelow {code : Vector Bits 256} {p : Bits} {c : Byte} :
    c ∈ codedBelow code p ↔ lookSym code c ≠ [] ∧ p <+: lookSym code c := by
  simp [codedBelow]

/-- What the codes that start with `p` contribute to the Kraft sum of the table (R152). -/
def kraftBelow (code : Vector Bits 256) (p : Bits) : ℚ :=
  ∑ c ∈ codedBelow code p, (1 / 2 : ℚ) ^ (lookSym code c).length

/-- Every code starts with the empty path, so that path's share is the whole sum, as R152 states it. -/
theorem kraftBelow_nil (code : Vector Bits 256) :
    kraftBelow code [] =
      ((symbols.filter fun c => lookSym code c != []).map fun c => (1 / 2 : ℚ) ^ (lookSym code c).length).sum := by
  rw [← List.sum_toFinset _ (symbols_nodup.filter _), List.toFinset_filter]
  simp [kraftBelow, codedBelow]

/-- A code that no other code starts with has its own share alone. -/
theorem kraftBelow_code {code : Vector Bits 256} (free : PrefixFree code) {c : Byte} (hc : lookSym code c ≠ []) :
    kraftBelow code (lookSym code c) = (1 / 2) ^ (lookSym code c).length := by
  have alone : codedBelow code (lookSym code c) = {c} := by
    ext d
    rw [mem_codedBelow, Finset.mem_singleton]
    constructor
    · rintro ⟨hd, hpre⟩
      by_contra hne
      exact free c d (Ne.symm hne) hc hd hpre
    · rintro rfl
      exact ⟨hc, [], List.append_nil _⟩
  rw [kraftBelow, alone, Finset.sum_singleton]

/-- A longer sequence starts with `p` and one more bit. -/
theorem startsWith_iff_snoc {p q : Bits} (hne : p ≠ q) : p <+: q ↔ p ++ [false] <+: q ∨ p ++ [true] <+: q := by
  constructor
  · rintro ⟨_ | ⟨b, rest⟩, rfl⟩
    · simp at hne
    · cases b
      · exact .inl ⟨rest, by simp⟩
      · exact .inr ⟨rest, by simp⟩
  · rintro (h | h)
    · exact List.IsPrefix.trans ⟨[false], rfl⟩ h
    · exact List.IsPrefix.trans ⟨[true], rfl⟩ h

/-- No sequence goes on both with 0 and with 1. -/
theorem not_startsWith_both {p q : Bits} (h : p ++ [false] <+: q) : ¬ p ++ [true] <+: q := by
  obtain ⟨u, rfl⟩ := h
  rintro ⟨v, hv⟩
  simp at hv

/-- Where no code ends, the codes go on with 0 or with 1. -/
theorem kraftBelow_split {code : Vector Bits 256} {p : Bits} (hp : ∀ c, lookSym code c ≠ [] → p ≠ lookSym code c) :
    kraftBelow code p = kraftBelow code (p ++ [false]) + kraftBelow code (p ++ [true]) := by
  have split : codedBelow code p = codedBelow code (p ++ [false]) ∪ codedBelow code (p ++ [true]) := by
    ext c
    rw [Finset.mem_union, mem_codedBelow, mem_codedBelow, mem_codedBelow, ← and_or_left]
    exact and_congr_right fun hc => startsWith_iff_snoc (hp c hc)
  have apart : Disjoint (codedBelow code (p ++ [false])) (codedBelow code (p ++ [true])) :=
    Finset.disjoint_left.mpr fun c h h' => not_startsWith_both (mem_codedBelow.mp h).2 (mem_codedBelow.mp h').2
  rw [kraftBelow, split, Finset.sum_union apart, kraftBelow, kraftBelow]

/-- A node's path is worth what the codes of the leaves below the node are worth together. -/
theorem kraftBelow_path {nodes : List Node} {M : Nat} {code : Vector Bits 256} (ok : ArenaOk nodes M) (hM : M ≠ 1)
    (tab : TableOk nodes M (2 * M - 2) code) {p : Bits} {n : Nat} (hp : IsPath nodes (2 * M - 2) p n) :
    kraftBelow code p = (1 / 2) ^ p.length := by
  induction n using Nat.strong_induction_on generalizing p with
  | _ n ih =>
    have hn : n < 2 * M - 1 := by have := ok.path_add_length hp; have := ok.leaves_pos; omega
    rcases ok.cases_node hn with ⟨c, hc⟩ | ⟨l, r, hi, hl, hr, -⟩
    · obtain rfl := ok.path_unique (tab.path hM n c hc) hp
      exact kraftBelow_code (tab.prefixFree ok) (tab.ne_nil ok hc)
    · have inner : ∀ c, lookSym code c ≠ [] → p ≠ lookSym code c := by
        rintro c hc rfl
        obtain ⟨m, hm⟩ := (tab.ne_nil_iff ok c).1 hc
        obtain rfl := hp.det (tab.path hM m c hm)
        exact hm.not_internal hi
      rw [kraftBelow_split inner, ih l hl (hp.left hi), ih r hr (hp.right hi), List.length_append, List.length_append]
      simp only [List.length_singleton]
      ring

/-- Settles O42: the codes are the leaves' (`TableOk.ne_nil_iff`), and the root's share is the whole sum. -/
theorem kraftSumIsOne : Obligations.KraftSumIsOne := by
  intro s inv hv
  obtain ⟨arena, tab⟩ := inv.table hv
  refine ⟨tab.ne_nil_iff arena, fun hM => ?_⟩
  rw [← kraftBelow_nil, kraftBelow_path arena (by omega) tab .root, List.length_nil, pow_zero]

end Sys2Proof.Machine
end

section
/-! PROOFS. A more frequent symbol's code is no longer than a less frequent one's (R157): the merges take nodes in the order of
their keys, so a node with a smaller key gets its parent no later, and lies no higher. -/

namespace Sys2Proof.Machine

theorem KeyLess.trans {nodes : List Node} {a b c : Nat} (h : KeyLess nodes a b) (h' : KeyLess nodes b c) :
    KeyLess nodes a c := by
  unfold KeyLess at *
  omega

theorem KeyLess.asymm {nodes : List Node} {a b : Nat} (h : KeyLess nodes a b) : ¬ KeyLess nodes b a := by
  unfold KeyLess at *
  omega

theorem keyLess_of_le_of_lt {nodes : List Node} {a b : Nat} (hfreq : freqAt nodes a ≤ freqAt nodes b) (hlt : a < b) :
    KeyLess nodes a b :=
  hfreq.lt_or_eq.imp_right fun heq => ⟨heq, hlt⟩

/-- What a merge takes has a smaller key than what it leaves in the pool (R132). -/
theorem LeastMerge.child_less {nodes : List Node} {n l r x z : Nat} (merge : LeastMerge nodes n l r)
    (hx : x = l ∨ x = r) (hz : InPool nodes n z) (hl : z ≠ l) (hr : z ≠ r) : KeyLess nodes x z := by
  have less : KeyLess nodes l z := merge.least z hz hl hr
  rcases hx with rfl | rfl
  · exact less
  · exact merge.right_less.trans less

section Merges

variable {nodes : List Node} {M : Nat} (ok : ArenaOk nodes M)
  (merges : ∀ n l r, InternalAt nodes n l r → LeastMerge nodes n l r)
include ok merges

/-- A node whose parent is made earlier has the smaller key: when its merge took it, the other node was left in the pool, or was
made by a later merge. -/
theorem ArenaOk.keyLess_of_parent_lt {x y px py : Nat} (hx : ChildOf nodes x px) (hy : ChildOf nodes y py)
    (hlt : px < py) : KeyLess nodes x y := by
  obtain ⟨l, r, hi, hxc⟩ := hx
  obtain ⟨hpx, -, hl, hr, -⟩ := ok.internal_ge hi
  have merge := merges px l r hi
  by_cases hypx : y < px
  case pos =>
    have other : ∀ p, p < py → ¬ ChildOf nodes y p := fun p hp hc => hp.ne (ok.parent_unique hc hy)
    exact merge.child_less hxc ⟨hypx, fun p hp => other p (hp.trans hlt)⟩
      (fun e => other px hlt ⟨l, r, hi, .inl e⟩) (fun e => other px hlt ⟨l, r, hi, .inr e⟩)
  case neg =>
    have hytop : y < 2 * M - 1 := by
      obtain ⟨ly, ry, hiy, hyc⟩ := hy
      have := ok.internal_ge hiy
      omega
    have hxpx : freqAt nodes x ≤ freqAt nodes px := by
      rw [merge.freq_add]
      rcases hxc with rfl | rfl
      · exact Nat.le_add_right _ _
      · exact Nat.le_add_left _ _
    have hpxy := ok.freqAt_internal_mono merges hpx (Nat.le_of_not_lt hypx) hytop
    exact keyLess_of_le_of_lt (hxpx.trans hpxy) (by omega)

/-- The node with the greater key lies no lower in the tree (R157). -/
theorem ArenaOk.path_length_le_of_keyLess {x y : Nat} {p q : Bits} (hp : IsPath nodes (2 * M - 2) p x)
    (hq : IsPath nodes (2 * M - 2) q y) (hyx : KeyLess nodes y x) : p.length ≤ q.length := by
  induction q using List.reverseRecOn generalizing p x y with
  | nil =>
    obtain rfl := hq.nil_eq
    have hle := ok.freqAt_le_root x
    have hx := ok.path_add_length hp
    unfold KeyLess at hyx
    omega
  | append_singleton q b ih =>
    rcases hp.snoc with ⟨rfl, -⟩ | ⟨p, b', px, l, r, rfl, hp, hi, hx⟩
    · exact Nat.zero_le _
    · obtain ⟨py, l', r', hq, hi', hy⟩ := hq.snoc_inv
      have childX : ChildOf nodes x px := ⟨l, r, hi, by cases b' <;> simp [hx]⟩
      have childY : ChildOf nodes y py := ⟨l', r', hi', by cases b <;> simp [hy]⟩
      have hle : p.length ≤ q.length := by
        rcases Nat.lt_trichotomy py px with hlt | rfl | hgt
        · obtain ⟨hpy, -⟩ := ok.internal_ge hi'
          obtain ⟨-, hpx, -⟩ := ok.internal_ge hi
          exact ih hp hq (keyLess_of_le_of_lt (ok.freqAt_internal_mono merges hpy hlt.le hpx) hlt)
        · rw [ok.path_unique hp hq]
        · exact absurd (ok.keyLess_of_parent_lt merges childX childY hgt) hyx.asymm
      simpa using hle

end Merges

/-- Every present symbol has a leaf with its count in the arena of a BUILD (R131). -/
theorem exists_leafAt_of_present {freq : Vector Word 256} (fits : freqSum freq ≤ 2 ^ 32 - 1) {c : Byte}
    (hc : lookSym freq c ≠ 0) : ∃ n, LeafAt (arenaOf freq) n c ∧ freqAt (arenaOf freq) n = (lookSym freq c).toNat := by
  have mem : c ∈ present freq := mem_present.mpr hc
  have hne : present freq ≠ [] := List.ne_nil_of_mem mem
  obtain ⟨n, hn⟩ := List.mem_iff_getElem?.mp mem
  have leaf := (arenaOf_leafAt freq hne fits n c).mpr hn
  exact ⟨n, leaf, arenaOf_leaf_freq freq hne fits n c leaf⟩

/-- Settles O45: the more frequent symbol's leaf has the greater key, and the codes are the paths to the leaves. -/
theorem moreFrequentNotLonger : Obligations.MoreFrequentNotLonger := by
  intro s t h hv hM a b hfreq hb
  obtain ⟨built, hbuild, hbv, hderive⟩ := buildCode_table h hv
  obtain ⟨-, fits, nodes, tree⟩ := build_tree hbuild hbv
  have tab := derive_tableOk hderive hbv tree
  have leafCount : t.leafCount = built.leafCount := by
    obtain rfl := exec_next hderive
    exact (finish_deriveBody_keeps_tree built).2.1
  have hM : built.leafCount.toNat ≠ 1 := by rw [← leafCount]; omega
  have ha : lookSym s.freq a ≠ 0 := by
    intro h0
    simp [h0] at hfreq
  obtain ⟨m, hm, hmfreq⟩ := exists_leafAt_of_present fits ha
  obtain ⟨n, hn, hnfreq⟩ := exists_leafAt_of_present fits hb
  rw [← nodes] at hm hmfreq hn hnfreq
  have less : KeyLess built.nodes n m := .inl (hnfreq.trans_lt (hfreq.trans_eq hmfreq.symm))
  exact tree.arena.path_length_le_of_keyLess (fun _ _ _ hi => build_leastMerge hbuild hbv hi)
    (tab.path hM m a hm) (tab.path hM n b hn) less

end Sys2Proof.Machine
end

section
/-! PROOFS. ENCODE (R170 to R175): what it leaves when it completes, and each error of R172 in its order. -/

namespace Sys2Proof.Machine

/-! ### The length errors -/

/-- ENCODE checks the length first, and stores no bit when it is illegal (R172 items 1 and 2, R173). -/
theorem encodeBody_of_illegalLength {s : State} (h : s.inLen.toNat > s.params.inCap ∨ s.inLen = 0) :
    encodeBody s = ({ s with bitLen := 0 },
      .raise (if s.inLen.toNat > s.params.inCap then .length else .emptyInput)
        (if s.inLen.toNat > s.params.inCap then s.inLen else 0) 0) := by
  by_cases long : s.inLen.toNat > s.params.inCap
  · rw [encodeBody, if_pos long, if_pos long, if_pos long]
  · rw [encodeBody, if_neg long, if_neg long, if_neg long, if_pos (h.resolve_left long)]

/-- Settles O47: the body is `encodeBody_of_illegalLength`. -/
theorem encodeLengthErrors : Obligations.EncodeLengthErrors := by
  intro s h
  exact ⟨_, exec_of_body (i := .encode) (encodeBody_of_illegalLength h), rfl, rfl, rfl, rfl, rfl, rfl, rfl, fun _ => rfl⟩

/-! ### The output of a completed ENCODE -/

/-- The state with the output `out` stored: BIT_LEN its length, BIT_BUF its words with zeros above its last bit (R174). -/
def storeBits (out : Bits) (s : State) : State :=
  { s with
    bitBuf := s.bitBuf.writeFrom 0 (packWords (wordsFor out.length) out)
    bitLen := BitVec.ofNat 32 out.length }

/-- With a legal length, ENCODE stores the loop's output (R170). -/
theorem encodeBody_of_output {s : State} {out : Bits} (hne : s.inLen ≠ 0) (hcap : s.inLen.toNat ≤ s.params.inCap)
    (h : serialise s.code s.params.bitCap 0 [] (bytesIn s) = .ok out) : encodeBody s = (storeBits out s, .complete) := by
  rw [encodeBody, if_neg (Nat.not_lt.mpr hcap), if_neg hne, h]
  rfl

theorem toNat_storeBits_bitLen {out : Bits} (s : State) (h : out.length < 2 ^ 32) :
    (storeBits out s).bitLen.toNat = out.length := toNat_ofNat_word h

/-- BIT(j) below the end of the last stored word: the output's bit, and 0 past its end (R171, R174). -/
theorem bitAt_storeBits {out : Bits} (s : State) {j : Nat} (h : j < 32 * wordsFor out.length) :
    bitAt (storeBits out s).bitBuf j = (out[j]?).getD false :=
  (bitAt_writeFrom s.bitBuf _ out j).trans (if_pos h)

/-- The sequence DECODE reads after the store is the output (R171). -/
theorem bitsIn_storeBits {out : Bits} (s : State) (h : out.length < 2 ^ 32) : bitsIn (storeBits out s) = out := by
  rw [bitsIn, toNat_storeBits_bitLen s h]
  conv_rhs => rw [← map_range_getD out]
  refine List.map_congr_left fun j hj => bitAt_storeBits s ?_
  exact (List.mem_range.mp hj).trans_le (le_mul_wordsFor out.length)

/-- Settles O46: the loop answers the codes (`serialise_ok`), and `storeBits` keeps them. -/
theorem encodeCompletes : Obligations.EncodeCompletes := by
  intro s hp hpos hcap coded fits
  obtain ⟨-, -, -, bitCap, -⟩ := hp
  have short : (codesOf s.code (bytesIn s)).length < 2 ^ 32 := by omega
  have hne : s.inLen ≠ 0 := fun h => by simp [h] at hpos
  have len := toNat_storeBits_bitLen s short
  refine ⟨_, exec_of_body (i := .encode) (encodeBody_of_output hne hcap (serialise_ok s.code _ _ coded fits)),
    rfl, rfl, rfl, rfl, len, bitsIn_storeBits s short, fun j past inWord => ?_, fun w past => ?_⟩
  · rw [finish_complete, complete_bitLen, len] at past inWord
    exact (bitAt_storeBits s inWord).trans (by rw [List.getElem?_eq_none past, Option.getD_none])
  · rw [finish_complete, complete_bitLen, len] at past
    exact read_writeFrom_packWords s.bitBuf _ _ w past

/-! ### The symbol errors -/

/-- With a legal length, ENCODE raises the loop's failure, and leaves BIT_BUF unspecified (R173). -/
theorem encodeBody_of_failure {s : State} {f : Failure} (hne : s.inLen ≠ 0) (hcap : s.inLen.toNat ≤ s.params.inCap)
    (h : serialise s.code s.params.bitCap 0 [] (bytesIn s) = .error f) :
    encodeBody s = ({ s with bitLen := 0, bitBuf := Memory.unspecified 32 s.draws, draws := s.draws + 1 },
      .raise f.code (BitVec.ofNat 32 f.info) f.sym) := by
  rw [encodeBody, if_neg (Nat.not_lt.mpr hcap), if_neg hne, h]

/-- The loop fails at the first index without a code or past the capacity, a missing code before the capacity (R172 items 3
and 4). -/
theorem serialise_fails {code : Vector Bits 256} {cap i : Nat} {c : Byte} {cs : List Byte} (hi : cs[i]? = some c)
    (coded : ∀ d ∈ cs.take i, lookSym code d ≠ []) (fits : (codesOf code (cs.take i)).length ≤ cap)
    (bad : lookSym code c = [] ∨ (codesOf code (cs.take (i + 1))).length > cap) :
    serialise code cap 0 [] cs =
      .error { code := if lookSym code c = [] then .missingSymbol else .capacity, info := i, sym := c } := by
  obtain ⟨hlt, hc⟩ := List.getElem?_eq_some_iff.mp hi
  have index : (cs.take i).length = i := List.length_take_of_le hlt.le
  have reached : serialise code cap 0 [] cs = serialise code cap i (codesOf code (cs.take i)) (c :: cs.drop (i + 1)) := by
    conv_lhs => rw [← List.take_append_drop i cs, List.drop_eq_getElem_cons hlt, hc]
    simpa [index] using serialise_append code cap 0 [] (cs.take i) (c :: cs.drop (i + 1)) coded (by simpa using fits)
  rw [reached, serialise]
  by_cases missing : lookSym code c = []
  · rw [if_pos missing, if_pos missing]
  · have full := bad.resolve_left missing
    rw [List.take_add_one, hi, Option.toList_some, codesOf_append, codesOf_cons, codesOf_nil, List.append_nil,
      List.length_append] at full
    rw [if_neg missing, if_neg missing, if_pos full]

/-- Settles O48: the loop fails at the index (`serialise_fails`), which fits ERR_INFO since it is below IN_LEN. -/
theorem encodeSymbolErrors : Obligations.EncodeSymbolErrors := by
  intro s i c hcap hi coded fits bad
  obtain ⟨hlt, -⟩ := List.getElem?_eq_some_iff.mp hi
  rw [bytesIn_length] at hlt
  have hne : s.inLen ≠ 0 := fun h => by simp [h] at hlt
  exact ⟨_, exec_of_body (i := .encode) (encodeBody_of_failure hne hcap (serialise_fails hi coded fits bad)),
    rfl, rfl, rfl, rfl, toNat_ofNat_word (hlt.trans s.inLen.isLt), rfl, rfl⟩

/-- Settles O49: without a table no symbol has a code, so the first failure of O48 is at index 0. -/
theorem encodeWithoutTable : Obligations.EncodeWithoutTable := by
  intro s inv hv hpos hcap
  have missing := inv.session.noTable hv (s.inBuf.read 0)
  have first : (bytesIn s)[0]? = some (s.inBuf.read 0) := by simp [bytesIn, List.getElem?_range hpos]
  obtain ⟨t, ran, -, -, err, code, info, sym, len⟩ :=
    encodeSymbolErrors s 0 _ hcap first (by simp) (by simp) (.inl missing)
  exact ⟨t, ran, err, code.trans (if_pos missing), BitVec.eq_of_toNat_eq info, sym, len⟩

end Sys2Proof.Machine
end

section
/-! PROOFS. The round trip (R176, R195): DECODE walks the codes of a table of its tree back to the symbols they are the codes of,
and BUILD_CODE succeeds from the counts of an input, with such a table. -/

namespace Sys2Proof.Machine

/-! ### The walk over the codes of some symbols -/

/-- The codes of some symbols of a one-leaf tree: one 0 for each (R153). -/
theorem TableOk.codesOf_one {nodes : List Node} {root : Nat} {code : Vector Bits 256} (tab : TableOk nodes 1 root code)
    {cs : List Byte} (leaves : ∀ c ∈ cs, ∃ n, LeafAt nodes n c) : codesOf code cs = List.replicate cs.length false := by
  induction cs with
  | nil => rfl
  | cons c cs ih =>
    obtain ⟨n, hn⟩ := leaves c (by simp)
    rw [codesOf_cons, tab.one rfl n c hn, ih fun d hd => leaves d (by simp [hd])]
    rfl

/-- A one-leaf tree has no symbol but its root's. -/
theorem ArenaOk.sym_eq_of_one {nodes : List Node} (ok : ArenaOk nodes 1) {n : Nat} {c : Byte} (h : LeafAt nodes n c) :
    c = symOf nodes 0 := by
  obtain rfl : n = 0 := Nat.lt_one_iff.mp (ok.leaf_lt h)
  obtain ⟨f, hf⟩ := h.nodeAt
  rw [symOf, hf]

/-- The walk over the codes of symbols that fit the output emits these symbols and ends at the root (R195). -/
theorem decodeWalk_codesOf {t : WalkTree} {code : Vector Bits 256} {cs : List Byte} (ok : ArenaOk t.nodes t.leafCount)
    (hroot : t.root = 2 * t.leafCount - 2) (tab : TableOk t.nodes t.leafCount t.root code)
    (leaves : ∀ c ∈ cs, ∃ n, LeafAt t.nodes n c) (fits : cs.length ≤ t.outCap) :
    decodeWalk t (codesOf code cs) = .ok cs := by
  have walked : ∃ i, walkBits t 0 { node := t.root, out := [] } (codesOf code cs) =
      walkBits t i { node := t.root, out := cs } [] := by
    by_cases h1 : t.leafCount = 1
    · rw [h1] at ok tab hroot
      have same : List.replicate cs.length (symOf t.nodes t.root) = cs := by
        refine (List.eq_replicate_of_mem fun c hc => ?_).symm
        obtain ⟨n, hn⟩ := leaves c hc
        rw [hroot]
        exact ok.sym_eq_of_one hn
      have zeros := walkBits_zeros h1 0 [] cs.length [] (by simpa using fits)
      rw [List.append_nil, List.nil_append, same] at zeros
      exact ⟨_, by rw [tab.codesOf_one leaves, zeros]⟩
    · have hM := ok.leaves_pos
      have paths := walkBits_codes ok (by omega) hroot h1 0 [] (cs.map fun c => (c, lookSym code c)) []
        (fun q hq => by
          obtain ⟨c, hc, rfl⟩ := List.mem_map.mp hq
          obtain ⟨n, hn⟩ := leaves c hc
          exact ⟨n, hn, tab.path h1 n c hn⟩)
        (by simpa using fits)
      exact ⟨_, by simpa [codesOf, List.flatMap_map, Function.comp_def] using paths⟩
  obtain ⟨i, walked⟩ := walked
  simp [decodeWalk, walked, walkBits]

/-! ### DECODE after a successful ENCODE -/

/-- A successful ENCODE found a code for every symbol, and stored the codes (R171). -/
theorem encode_output {s t : State} (h : exec .encode s = .next t) (ok : t.err = false) :
    s.inLen ≠ 0 ∧ (∀ c ∈ bytesIn s, lookSym s.code c ≠ []) ∧ (codesOf s.code (bytesIn s)).length ≤ s.params.bitCap ∧
      t = complete (storeBits (codesOf s.code (bytesIn s)) s) := by
  obtain rfl : t = finish (encodeBody s) := exec_next h
  rcases encodeBody_cases s with ⟨-, e⟩ | ⟨-, -, e⟩ | ⟨-, -, f, -, -, e⟩ | ⟨-, hne, coded, fits, e⟩ <;> rw [e] at ok ⊢
  · exact absurd ok Bool.noConfusion
  · exact absurd ok Bool.noConfusion
  · exact absurd ok Bool.noConfusion
  · exact ⟨hne, coded, fits, rfl⟩

/-- With a tree and a legal length, DECODE stores the walk's output (R190). -/
theorem decodeBody_of_output {s : State} {out : List Byte} (hv : s.treeValid = true)
    (hcap : s.bitLen.toNat ≤ s.params.bitCap) (hne : s.bitLen ≠ 0) (h : decodeWalk s.walkTree (bitsIn s) = .ok out) :
    decodeBody s =
      ({ s with outBuf := s.outBuf.writeFrom 0 out, outLen := BitVec.ofNat 32 out.length }, .complete) := by
  rw [decodeBody, if_neg (by simp [hv]), if_neg (Nat.not_lt.mpr hcap), if_neg hne, h]

/-- OUT_BUF up to OUT_LEN after a list of bytes has been stored from 0 on, OUT_LEN being their number (R29, R42). -/
theorem bytesOut_of_writeFrom {s : State} {m : Memory 8} {out : List Byte} (hbuf : s.outBuf = m.writeFrom 0 out)
    (hlen : s.outLen.toNat = out.length) : bytesOut s = out := by
  rw [bytesOut, hbuf, hlen]
  refine List.ext_getElem (by simp) fun i _ hi => ?_
  simp [Memory.read_writeFrom, List.getElem?_eq_getElem hi]

/-- The codes of some symbols, each of which has one, are some bits. -/
theorem codesOf_ne_nil {code : Vector Bits 256} {cs : List Byte} (hne : cs ≠ []) (coded : ∀ c ∈ cs, lookSym code c ≠ []) :
    codesOf code cs ≠ [] := by
  obtain ⟨c, rest, rfl⟩ := List.exists_cons_of_ne_nil hne
  simp [coded c]

/-- With the table of the current tree, what a successful ENCODE stores decodes to its input, if that fits OUT_BUF (R195). -/
theorem decode_of_encode {s t : State} (hp : wfParams s.params) (hv : s.treeValid = true) (tree : TreeOk s)
    (tab : TableOk s.nodes s.leafCount.toNat s.root.toNat s.code) (h : exec .encode s = .next t) (ok : t.err = false)
    (fits : s.inLen.toNat ≤ s.params.outCap) :
    ∃ u, exec .decode t = .next u ∧ u.err = false ∧ u.errCode = .none ∧ u.outLen = s.inLen ∧ bytesOut u = bytesIn s := by
  obtain ⟨hne, coded, stored, ht⟩ := encode_output h ok
  obtain ⟨-, -, -, bitCap, -⟩ := hp
  have short : (codesOf s.code (bytesIn s)).length < 2 ^ 32 := by omega
  have len : t.bitLen.toNat = (codesOf s.code (bytesIn s)).length := ht ▸ toNat_storeBits_bitLen s short
  have bits : bitsIn t = codesOf s.code (bytesIn s) := ht ▸ bitsIn_storeBits s short
  have input : bytesIn s ≠ [] := fun e => hne (BitVec.eq_of_toNat_eq ((bytesIn_length s).symm.trans (congrArg _ e)))
  have someBits : t.bitLen ≠ 0 := fun e =>
    codesOf_ne_nil input coded (List.length_eq_zero_iff.mp (len.symm.trans (congrArg BitVec.toNat e)))
  have sameTree : t.walkTree = s.walkTree := by rw [ht]; rfl
  have walk : decodeWalk s.walkTree (codesOf s.code (bytesIn s)) = .ok (bytesIn s) :=
    decodeWalk_codesOf tree.arena tree.root tab
      (fun c hc => ((tree.root ▸ tab).ne_nil_iff tree.arena c).mp (coded c hc)) ((bytesIn_length s).trans_le fits)
  have body := decodeBody_of_output (ht ▸ hv : t.treeValid = true) (len.trans_le (ht ▸ stored)) someBits
    (sameTree ▸ bits.symm ▸ walk)
  have outLen : BitVec.ofNat 32 (bytesIn s).length = s.inLen := by simp
  exact ⟨_, exec_of_body (i := .decode) body, rfl, rfl, outLen,
    bytesOut_of_writeFrom rfl ((congrArg BitVec.toNat outLen).trans (bytesIn_length s).symm)⟩

/-! ### The counts of an input -/

/-- The counts of an input add up to its length. -/
theorem freqSum_of_counts {freq : Vector Word 256} {input : List Byte}
    (counts : ∀ x, (lookSym freq x).toNat = input.count x) : freqSum freq = input.length := by
  have all : ∀ c ∈ (input : Multiset Byte), c ∈ symbols.toFinset := fun c _ => by rw [List.mem_toFinset]; exact mem_symbols c
  rw [freqSum, ← List.sum_toFinset _ symbols_nodup, ← Multiset.coe_card, ← Multiset.sum_count_eq_card all]
  exact Finset.sum_congr rfl fun c _ => (counts c).trans (Multiset.coe_count c input).symm

/-- The counts of a non-empty input have a present symbol. -/
theorem present_ne_nil_of_counts {freq : Vector Word 256} {input : List Byte} (hne : input ≠ [])
    (counts : ∀ x, (lookSym freq x).toNat = input.count x) : present freq ≠ [] := by
  obtain ⟨c, hc⟩ := List.exists_mem_of_ne_nil input hne
  refine List.ne_nil_of_mem (mem_present.mpr fun absent => ?_ : c ∈ present freq)
  have := List.count_pos_iff.mpr hc
  simp [← counts, absent] at this

/-- Settles O57: the counts sum to the input's length, so BUILD_CODE completes (O44), and `decode_of_encode` applies to its tree
and table, which stay when the input is loaded. -/
theorem roundTripFromCounts : Obligations.RoundTripFromCounts := by
  intro input a b inv hne inFits outFits counts ran
  obtain ⟨-, inCap⟩ := inv.params.1
  have sum := freqSum_of_counts counts
  obtain ⟨t, ran', -, -, err, -, hv, -, tree, tab, -⟩ :=
    buildCodeCompletes a (present_ne_nil_of_counts hne counts) (by omega)
  obtain rfl : b = t := Host.Outcome.next.inj (ran.symm.trans ran')
  have params : b.params = a.params := exec_next ran ▸ (finish_body_keeps .buildCode a).params
  refine ⟨err, fun c d loaded hin encoded ok => ?_⟩
  obtain ⟨buf, n, rfl⟩ : ∃ buf n, c = { b with inBuf := buf, inLen := n } := ⟨_, _, loaded⟩
  have len : n.toNat = input.length := by simpa using congrArg List.length hin
  obtain ⟨u, decoded, uerr, -, outLen, out⟩ := decode_of_encode (s := { b with inBuf := buf, inLen := n })
    (params.symm ▸ inv.params) hv ⟨tree.arena, tree.nodeCount, tree.root, tree.total⟩ tab encoded ok
    (by simpa [params, len] using outFits)
  exact ⟨u, decoded, uerr, (congrArg BitVec.toNat outLen).trans len, out.trans hin⟩

end Sys2Proof.Machine
end

section
/-! PROOFS. DECODE (R190 to R197): the checks before the walk, how DECODE ends by what the walk answers, and the walk over
root-to-leaf paths and over the bits of a one-leaf tree. -/

namespace Sys2Proof.Machine

/-! ### The checks before the walk -/

/-- DECODE checks the tree, then the length, and stores no byte when one of them is illegal (R192 items 1 to 3, R193). -/
theorem decodeBody_of_earlyError {s : State}
    (h : s.treeValid = false ∨ s.bitLen.toNat > s.params.bitCap ∨ s.bitLen = 0) :
    decodeBody s = ({ s with outLen := 0 },
      .raise (if s.treeValid = false then .emptyTree else if s.bitLen.toNat > s.params.bitCap then .length else .framing)
        (if s.treeValid = true ∧ s.bitLen.toNat > s.params.bitCap then s.bitLen else 0) 0) := by
  cases hv : s.treeValid with
  | false => simp [decodeBody, hv]
  | true =>
    by_cases long : s.bitLen.toNat > s.params.bitCap
    · simp [decodeBody, hv, long]
    · have zero : s.bitLen = 0 := (h.resolve_left (by simp [hv])).resolve_left long
      simp [decodeBody, hv, zero]

/-- Settles O52: the body is `decodeBody_of_earlyError`. -/
theorem decodeEarlyErrors : Obligations.DecodeEarlyErrors := by
  intro s h
  exact ⟨_, exec_of_body (i := .decode) (decodeBody_of_earlyError h), rfl, rfl, rfl, rfl, rfl, rfl, rfl, fun _ => rfl⟩

/-! ### How DECODE ends, by what the walk answers -/

/-- The walk emits at most one symbol a bit. -/
theorem length_le_of_decodeWalk {t : WalkTree} {bits : Bits} {out : List Byte} (h : decodeWalk t bits = .ok out) :
    out.length ≤ bits.length := by
  rcases decodeWalk_shape t bits with ⟨out', h', -, len⟩ | ⟨f, h', -⟩
  · obtain rfl : out = out' := Except.ok.inj (h.symm.trans h')
    exact len
  · cases h.symm.trans h'

section Walk

variable {s : State} (hv : s.treeValid = true) (hne : s.bitLen ≠ 0) (hcap : s.bitLen.toNat ≤ s.params.bitCap)
include hv hne hcap

/-- A walk that completes is a DECODE that does, with the walk's output and every byte past it as before (R190). -/
theorem decode_of_output {out : List Byte} (h : decodeWalk s.walkTree (bitsIn s) = .ok out) :
    ∃ t, exec .decode s = .next t ∧ t.busy = false ∧ t.done = true ∧ t.err = false ∧ t.errCode = .none ∧
      t.outLen = BitVec.ofNat 32 out.length ∧ bytesOut t = out ∧
      ∀ i, t.outLen.toNat ≤ i → t.outBuf.read i = s.outBuf.read i := by
  have short : out.length ≤ s.bitLen.toNat := (length_le_of_decodeWalk h).trans_eq (bitsIn_length s)
  have len : (BitVec.ofNat 32 out.length).toNat = out.length := toNat_ofNat_word (short.trans_lt s.bitLen.isLt)
  exact ⟨_, exec_of_body (i := .decode) (decodeBody_of_output hv hcap hne h), rfl, rfl, rfl, rfl, rfl,
    bytesOut_of_writeFrom rfl len, fun i past => Memory.read_writeFrom_past s.outBuf out (len.symm.trans_le past)⟩

/-- A walk that fails is a DECODE that raises the failure and leaves OUT_LEN = 0 (R193). -/
theorem decode_of_failure {f : Failure} (h : decodeWalk s.walkTree (bitsIn s) = .error f) (hinfo : f.info ≤ s.bitLen.toNat) :
    ∃ t, exec .decode s = .next t ∧ t.busy = false ∧ t.done = true ∧ t.err = true ∧ t.errCode = f.code ∧
      t.errInfo.toNat = f.info ∧ t.errSym = f.sym ∧ t.outLen = 0 := by
  have body : decodeBody s =
      ({ s with outLen := 0, outBuf := Memory.unspecified 8 s.draws, draws := s.draws + 1 },
        .raise f.code (BitVec.ofNat 32 f.info) f.sym) := by
    rw [decodeBody, if_neg (by simp [hv]), if_neg (Nat.not_lt.mpr hcap), if_neg hne, h]
  exact ⟨_, exec_of_body (i := .decode) body, rfl, rfl, rfl, rfl, toNat_ofNat_word (hinfo.trans_lt s.bitLen.isLt), rfl, rfl⟩

end Walk

/-- BIT_LEN is not 0 when DECODE's bits are some bits. -/
theorem bitLen_ne_zero_of_bitsIn_ne_nil {s : State} (h : bitsIn s ≠ []) : s.bitLen ≠ 0 :=
  fun e => h (List.length_eq_zero_iff.mp ((bitsIn_length s).trans (congrArg BitVec.toNat e)))

/-! ### The walk over root-to-leaf paths -/

/-- A path from the root that has a bit does not lead back to the root. -/
theorem ArenaOk.ne_root_of_path {nodes : List Node} {M : Nat} (ok : ArenaOk nodes M) {a m : Nat} {p : Bits} (hp : p ≠ [])
    (h : IsPath nodes a p m) : m ≠ a := by
  have descends := ok.path_add_length h
  have := List.length_pos_iff.mpr hp
  omega

section Paths

variable {t : WalkTree} (ok : ArenaOk t.nodes t.leafCount) (hM : 2 ≤ t.leafCount) (hroot : t.root = 2 * t.leafCount - 2)
  {qs : List (Byte × Bits)} (hq : ∀ q ∈ qs, ∃ n, LeafAt t.nodes n q.1 ∧ IsPath t.nodes t.root q.2 n)
include ok hM hroot hq

/-- The paths of symbols that fit the output give these symbols (R190, R191). -/
theorem decodeWalk_paths (fits : qs.length ≤ t.outCap) :
    decodeWalk t (qs.flatMap fun q => q.2) = .ok (qs.map fun q => q.1) := by
  have walked := walkBits_codes ok hM hroot (by omega) 0 [] qs [] hq (by simpa using fits)
  rw [List.append_nil] at walked
  simp [decodeWalk, walked, walkBits]

/-- Bits that go on along a path to an internal node end inside a code (R192 item 6). -/
theorem decodeWalk_paths_part (fits : qs.length ≤ t.outCap) {part : Bits} {m l r : Nat} (hne : part ≠ [])
    (hpart : IsPath t.nodes t.root part m) (hm : InternalAt t.nodes m l r) :
    decodeWalk t ((qs.flatMap fun q => q.2) ++ part) =
      .error { code := .framing, info := ((qs.flatMap fun q => q.2) ++ part).length, sym := 0 } := by
  have h1 : t.leafCount ≠ 1 := by omega
  have inside : m ≠ t.root := ok.ne_root_of_path hne hpart
  rw [decodeWalk, walkBits_codes ok hM hroot h1 0 [] qs part hq (by simpa using fits), walkBits_part h1 _ _ part hpart hm]
  simp [inside]

/-- One more path when the output is full is CAPACITY at the path's last bit (R192 item 5). -/
theorem decodeWalk_paths_full (full : qs.length = t.outCap) {c : Byte} {path rest : Bits} {n : Nat}
    (hc : LeafAt t.nodes n c) (hpath : IsPath t.nodes t.root path n) :
    decodeWalk t ((qs.flatMap fun q => q.2) ++ (path ++ rest)) =
      .error { code := .capacity, info := ((qs.flatMap fun q => q.2) ++ path).length - 1, sym := c } := by
  have h1 : t.leafCount ≠ 1 := by omega
  have hne : path ≠ [] := ok.leaf_path_ne_nil hM hc (hroot ▸ hpath)
  rw [decodeWalk, walkBits_codes ok hM hroot h1 0 [] qs _ hq (by simpa using full.le),
    walkBits_path ok h1 _ _ path rest hne hpath hc]
  simp [emit, full]

end Paths

/-- Settles O50: the walk answers the symbols (`decodeWalk_paths`). -/
theorem decodeCompletes : Obligations.DecodeCompletes := by
  intro s out inv hv hM hpos hcap paths bits fits
  have tree := inv.session.tree hv
  have someBits : s.bitLen ≠ 0 := fun e => by simp [e] at hpos
  have walk := decodeWalk_paths (t := s.walkTree) tree.arena hM tree.root paths fits
  obtain ⟨t, ran, busy, done, err, code, -, output, past⟩ := decode_of_output hv someBits hcap (bits ▸ walk)
  exact ⟨t, ran, busy, done, err, code, output, past⟩

/-- Settles O53: the walk fails at the end check (`decodeWalk_paths_part`), whose index is BIT_LEN. -/
theorem decodeEndsInsideCode : Obligations.DecodeEndsInsideCode := by
  intro s out part m l r inv hv hM hcap paths fits hne hpart hm bits
  have tree := inv.session.tree hv
  have someBits := bitLen_ne_zero_of_bitsIn_ne_nil (s := s) (by simp [bits, hne])
  have walk := decodeWalk_paths_part (t := s.walkTree) tree.arena hM tree.root paths fits hne hpart hm
  rw [← bits, bitsIn_length] at walk
  obtain ⟨t, ran, busy, done, err, code, info, sym, len⟩ := decode_of_failure hv someBits hcap walk le_rfl
  exact ⟨t, ran, busy, done, err, code, BitVec.eq_of_toNat_eq info, sym, len⟩

/-- Settles O54: the walk fails at the last bit of the path that finds the output full (`decodeWalk_paths_full`). -/
theorem decodeOutputFull : Obligations.DecodeOutputFull := by
  rintro s out c path rest inv hv hM hcap paths full ⟨n, hc, hpath⟩ bits
  have tree := inv.session.tree hv
  have hne : path ≠ [] := tree.arena.leaf_path_ne_nil hM hc (tree.root ▸ hpath)
  have someBits := bitLen_ne_zero_of_bitsIn_ne_nil (s := s) (by simp [bits, hne])
  have walk := decodeWalk_paths_full (t := s.walkTree) (rest := rest) tree.arena hM tree.root paths full hc hpath
  rw [← List.append_assoc, ← bits] at walk
  have below : (out.flatMap (fun q => q.2) ++ path).length ≤ s.bitLen.toNat := by
    rw [← bitsIn_length, bits, List.length_append (bs := rest)]
    exact Nat.le_add_right _ _
  have nonempty : 0 < (out.flatMap (fun q => q.2) ++ path).length := List.length_pos_iff.mpr (by simp [hne])
  obtain ⟨t, ran, busy, done, err, code, info, sym, len⟩ :=
    decode_of_failure hv someBits hcap walk ((Nat.sub_le _ _).trans below)
  exact ⟨t, ran, busy, done, err, code, by rw [info]; exact Nat.sub_add_cancel nonempty, sym, len⟩

/-! ### The walk of a one-leaf tree -/

section OneLeaf

variable {t : WalkTree} (h1 : t.leafCount = 1)
include h1

/-- Each 0 bit emits the root's symbol (R194). -/
theorem decodeWalk_zeros {n : Nat} (fits : n ≤ t.outCap) :
    decodeWalk t (List.replicate n false) = .ok (List.replicate n (symOf t.nodes t.root)) := by
  have walked := walkBits_zeros h1 0 [] n [] (by simpa using fits)
  rw [List.append_nil] at walked
  simp [decodeWalk, walked, walkBits]

/-- The first 1 bit is FRAMING at its position (R194). -/
theorem decodeWalk_zeros_true {n : Nat} (fits : n ≤ t.outCap) (rest : Bits) :
    decodeWalk t (List.replicate n false ++ true :: rest) = .error { code := .framing, info := n, sym := 0 } := by
  rw [decodeWalk, walkBits_zeros h1 0 [] n _ (by simpa using fits)]
  simp [walkBits, walkBit, h1]

/-- The 0 bit that finds the output full is CAPACITY at its position (R192 item 5, R194). -/
theorem decodeWalk_zeros_full (rest : Bits) :
    decodeWalk t (List.replicate t.outCap false ++ false :: rest) =
      .error { code := .capacity, info := t.outCap, sym := symOf t.nodes t.root } := by
  rw [decodeWalk, walkBits_zeros h1 0 [] t.outCap _ (by simp)]
  simp [walkBits, walkBit, emit, h1]

end OneLeaf

/-- Bits whose first `n` are all 0 are `n` 0 bits and the rest. -/
theorem eq_replicate_false_append_drop {bits : Bits} {n : Nat} (hn : n ≤ bits.length) (zeros : ∀ b ∈ bits.take n, b = false) :
    bits = List.replicate n false ++ bits.drop n := by
  conv_lhs => rw [← List.take_append_drop n bits, List.eq_replicate_of_mem zeros, List.length_take_of_le hn]

/-- Settles O51: the bits are 0s alone, 0s up to a 1, or one 0 more than fits, and the walk of each is one of the lemmas above. -/
theorem decodeOneLeaf : Obligations.DecodeOneLeaf := by
  intro s c inv hv hM hc hpos hcap
  have tree := inv.session.tree hv
  have someBits : s.bitLen ≠ 0 := fun e => by simp [e] at hpos
  have h1 : s.walkTree.leafCount = 1 := by simp [State.walkTree, hM]
  have root : s.root.toNat = 0 := by rw [tree.root, hM]; rfl
  have sym : symOf s.walkTree.nodes s.walkTree.root = c := by
    have arena : ArenaOk s.nodes 1 := h1 ▸ tree.arena
    exact (congrArg (symOf s.nodes) root).trans (arena.sym_eq_of_one hc).symm
  refine ⟨fun zeros fits => ?_, fun i one zeros fits => ?_, fun long zeros => ?_⟩
  · have bits : bitsIn s = List.replicate s.bitLen.toNat false := by
      rw [← bitsIn_length]
      exact List.eq_replicate_of_mem zeros
    have walk := decodeWalk_zeros h1 fits
    rw [← bits, sym] at walk
    obtain ⟨t, ran, busy, done, err, code, len, output, -⟩ := decode_of_output hv someBits hcap walk
    exact ⟨t, ran, busy, done, err, code, by simpa using len, output⟩
  · obtain ⟨below, bit⟩ := List.getElem?_eq_some_iff.mp one
    have bits := eq_replicate_false_append_drop below.le zeros
    rw [List.drop_eq_getElem_cons below, bit] at bits
    have walk := decodeWalk_zeros_true h1 fits ((bitsIn s).drop (i + 1))
    rw [← bits] at walk
    exact decode_of_failure hv someBits hcap walk (below.le.trans_eq (bitsIn_length s))
  · have bits := eq_replicate_false_append_drop ((bitsIn_length s).symm ▸ long) zeros
    rw [List.replicate_succ', List.append_assoc, List.singleton_append] at bits
    have walk := decodeWalk_zeros_full h1 ((bitsIn s).drop (s.params.outCap + 1))
    rw [show s.walkTree.outCap = s.params.outCap from rfl, ← bits, sym] at walk
    exact decode_of_failure hv someBits hcap walk long.le

/-! ### Bits past BIT_LEN -/

/-- DECODE's bits are those of any buffer that agrees with BIT_BUF below BIT_LEN (R197). -/
theorem bitsIn_congr {s : State} {buf : Memory 32} (same : ∀ i, i < s.bitLen.toNat → bitAt buf i = bitAt s.bitBuf i) :
    bitsIn { s with bitBuf := buf } = bitsIn s :=
  List.map_congr_left fun i hi => same i (List.mem_range.mp hi)

/-- DECODE reads BIT_BUF through its bits alone, and stores nothing to it. -/
theorem decodeBody_with_bitBuf {s : State} {buf : Memory 32} (h : bitsIn { s with bitBuf := buf } = bitsIn s) :
    decodeBody { s with bitBuf := buf } = ({ (decodeBody s).1 with bitBuf := buf }, (decodeBody s).2) := by
  have sameTree : State.walkTree { s with bitBuf := buf } = s.walkTree := rfl
  unfold decodeBody
  rw [h, sameTree]
  split_ifs
  · rfl
  · rfl
  · rfl
  · cases decodeWalk s.walkTree (bitsIn s) <;> rfl

/-- The end of a command reads and stores no buffer (R212, R213). -/
theorem finish_with_bitBuf (p : State × Ending) (buf : Memory 32) :
    finish ({ p.1 with bitBuf := buf }, p.2) = { finish p with bitBuf := buf } := by
  obtain ⟨s, _ | ⟨code, info, sym⟩⟩ := p
  · rfl
  · rfl

/-- Settles O55: the two states have the same bits up to BIT_LEN, so the bodies differ in BIT_BUF alone. -/
theorem decodeIgnoresBitsPastLength : Obligations.DecodeIgnoresBitsPastLength := by
  intro s buf t u same ranS ranU
  obtain rfl : t = finish (decodeBody s) := exec_next ranS
  obtain rfl : u = finish (decodeBody { s with bitBuf := buf }) := exec_next ranU
  rw [decodeBody_with_bitBuf (bitsIn_congr same), finish_with_bitBuf]

/-! ### What ENCODE stored -/

/-- Settles O56: under the invariant a valid table is the current tree's, so `decode_of_encode` applies. -/
theorem encodedInputDecodes : Obligations.EncodedInputDecodes := by
  intro s t inv hv encoded ok fits
  have treeValid := inv.status.table_tree hv
  exact decode_of_encode inv.params treeValid (inv.session.tree treeValid) (inv.session.table hv) encoded ok fits

end Sys2Proof.Machine
end

section
/-! PROOFS. Reset: the values every register takes (R240, R242), as the host reads them in the state right after it. -/

namespace Sys2Proof.Machine

/-- A reset is `hardReset`, whatever the state (R240). -/
theorem step_reset {s : State} (ha : nextAgent s = .reset) : step s = .next (hardReset s.popSched) := by
  rw [step, ha, turn]

/-- With an empty table both windows onto it read 0 (R38, R39). -/
theorem readRegion_code_empty {s : State} {c : Byte} (h : lookSym s.code c = []) :
    readRegion s (.codeLen c) = 0 ∧ ∀ k, readRegion s (.codeBits c k) = 0 := by
  constructor
  · rw [readRegion, codeLenWord, h]
    rfl
  · intro k
    rw [readRegion, codeBitsWord, h, List.drop_nil]
    rfl

/-- Settles O5: each register is a literal of `State.resetOf`; FREQ and CODE are constant arrays, and NODE_COUNT is 0. -/
theorem resetValuesRead : Obligations.ResetValuesRead := by
  refine ⟨rfl, rfl, rfl, rfl, fun p => ?_⟩
  have node (i : Nat) : readRegion (State.resetOf p) (.nodeLink i) = 0 ∧ readRegion (State.resetOf p) (.nodeFreq i) = 0 :=
    readRegion_node_past (Nat.zero_le i)
  have code (c : Byte) := readRegion_code_empty (s := State.resetOf p) (lookSym_emptyTable c)
  have status : readRegion (State.resetOf p) .status = 0 := by
    show packStatus false false false false 0 false false = 0
    decide
  exact ⟨rfl, rfl, status, rfl, rfl, rfl, rfl, rfl, rfl, rfl, rfl, rfl, rfl, rfl, rfl, lookSym_zeroFreq,
    fun i => (node i).2, fun i => (node i).1, fun c => (code c).1, fun c => (code c).2⟩

/-- Settles O6: the step is `hardReset`, which reads nothing of a pending command. -/
theorem hardResetAnyTime : Obligations.HardResetAnyTime := by
  intro s ha
  exact ⟨_, step_reset ha, rfl, rfl, rfl, rfl, rfl, rfl, rfl, rfl, rfl, rfl, rfl, rfl, lookSym_zeroFreq, rfl, rfl, rfl, rfl,
    rfl, rfl, lookSym_emptyTable⟩

end Sys2Proof.Machine
end

section
/-! PROOFS. The free values stay independent draws (log entry 4): a step keeps each buffer's draw, or gives the buffer one that
was not used before. -/

namespace Sys2Proof.Machine

/-! ### Keeping the draws and taking a fresh one -/

theorem DrawsOk.of_same {s t : State} (ok : DrawsOk s) (hin : t.inBuf.draw = s.inBuf.draw)
    (hout : t.outBuf.draw = s.outBuf.draw) (hbit : t.bitBuf.draw = s.bitBuf.draw) (hle : s.draws ≤ t.draws) : DrawsOk t := by
  obtain ⟨h1, h2, h3, h4, h5, h6⟩ := ok
  constructor <;> omega

/-- OUT_BUF may take the next draw number (R193). -/
theorem DrawsOk.of_redrawn_outBuf {s t : State} (ok : DrawsOk s) (hin : t.inBuf.draw = s.inBuf.draw)
    (hout : t.outBuf.draw = s.draws) (hbit : t.bitBuf.draw = s.bitBuf.draw) (hlt : s.draws < t.draws) : DrawsOk t := by
  obtain ⟨h1, h2, h3, h4, h5, h6⟩ := ok
  constructor <;> omega

/-- BIT_BUF may take the next draw number (R173). -/
theorem DrawsOk.of_redrawn_bitBuf {s t : State} (ok : DrawsOk s) (hin : t.inBuf.draw = s.inBuf.draw)
    (hout : t.outBuf.draw = s.outBuf.draw) (hbit : t.bitBuf.draw = s.draws) (hlt : s.draws < t.draws) : DrawsOk t := by
  obtain ⟨h1, h2, h3, h4, h5, h6⟩ := ok
  constructor <;> omega

/-- Reset takes three draw numbers in a row (R241). -/
theorem drawsOk_hardReset (s : State) : DrawsOk (hardReset s) := by
  constructor <;> simp [Memory.unspecified]

/-! ### The port -/

theorem DrawsOk.popSched {s : State} (ok : DrawsOk s) : DrawsOk s.popSched := ok.of_same rfl rfl rfl (Nat.le_refl _)

theorem DrawsOk.popHost {s : State} (ok : DrawsOk s) : DrawsOk s.popHost := ok.of_same rfl rfl rfl (Nat.le_refl _)

theorem DrawsOk.portRead {s : State} (ok : DrawsOk s) (a : Addr) : DrawsOk (portRead a s) := by
  obtain ⟨v, d, h, hle⟩ := portRead_eq a s
  rw [h]
  exact ok.of_same rfl rfl rfl hle

/-- A write stores to a cell and draws nothing (R65). -/
theorem DrawsOk.portWrite {s : State} (ok : DrawsOk s) (a : Addr) (v : Word) : DrawsOk (portWrite a v s) := by
  rcases portWrite_cases a v s with ⟨-, h⟩ | ⟨-, ⟨-, h⟩ | ⟨-, h⟩ | ⟨-, h⟩ | ⟨c, -, h⟩ | ⟨i, -, h⟩ | ⟨w, -, h⟩ | h⟩ <;>
    rw [h] <;> exact ok.of_same rfl rfl rfl (Nat.le_refl _)

/-! ### The commands -/

theorem DrawsOk.finish {p : State × Ending} (ok : DrawsOk p.1) : DrawsOk (finish p) :=
  ok.of_same (congrArg Memory.draw (finish_inBuf p)) (congrArg Memory.draw (finish_outBuf p))
    (congrArg Memory.draw (finish_bitBuf p)) (finish_draws p).ge

theorem DrawsOk.buildBody {s : State} (ok : DrawsOk s) : DrawsOk (buildBody s).1 := by
  rcases buildBody_cases s with ⟨-, h⟩ | ⟨-, -, h⟩ | ⟨-, -, h⟩ <;> rw [h] <;> exact ok.of_same rfl rfl rfl (Nat.le_refl _)

theorem DrawsOk.deriveBody {s : State} (ok : DrawsOk s) : DrawsOk (deriveBody s).1 := by
  rcases deriveBody_cases s with ⟨-, h⟩ | ⟨-, h⟩ <;> rw [h] <;> exact ok.of_same rfl rfl rfl (Nat.le_refl _)

theorem DrawsOk.buildCodeBody {s : State} (ok : DrawsOk s) : DrawsOk (buildCodeBody s).1 := by
  rcases buildCodeBody_cases s with ⟨-, -, -, -, h⟩ | ⟨-, h⟩ <;> rw [h]
  · exact ok.buildBody
  · exact ok.buildBody.deriveBody

/-- Only a failure found part-way draws, for BIT_BUF (R173). -/
theorem DrawsOk.encodeBody {s : State} (ok : DrawsOk s) : DrawsOk (encodeBody s).1 := by
  rcases encodeBody_cases s with ⟨-, h⟩ | ⟨-, -, h⟩ | ⟨-, -, f, -, -, h⟩ | ⟨-, -, -, -, h⟩ <;> rw [h]
  · exact ok.of_same rfl rfl rfl (Nat.le_refl _)
  · exact ok.of_same rfl rfl rfl (Nat.le_refl _)
  · exact ok.of_redrawn_bitBuf rfl rfl rfl (Nat.lt_succ_self _)
  · exact ok.of_same rfl rfl (Memory.draw_writeFrom _ _ _) (Nat.le_refl _)

/-- Only a failure found part-way draws, for OUT_BUF (R193). -/
theorem DrawsOk.decodeBody {s : State} (ok : DrawsOk s) : DrawsOk (decodeBody s).1 := by
  rcases decodeBody_cases s with ⟨-, h⟩ | ⟨-, -, h⟩ | ⟨-, -, -, h⟩ | ⟨-, -, -, f, -, -, h⟩ | ⟨-, -, -, out, -, -, -, h⟩ <;>
    rw [h]
  · exact ok.of_same rfl rfl rfl (Nat.le_refl _)
  · exact ok.of_same rfl rfl rfl (Nat.le_refl _)
  · exact ok.of_same rfl rfl rfl (Nat.le_refl _)
  · exact ok.of_redrawn_outBuf rfl rfl rfl (Nat.lt_succ_self _)
  · exact ok.of_same rfl (Memory.draw_writeFrom _ _ _) rfl (Nat.le_refl _)

theorem DrawsOk.bodyOf {s : State} (ok : DrawsOk s) (i : Instr) : DrawsOk (bodyOf i s).1 := by
  cases i with
  | nop => exact ok
  | clear => exact ok.of_same rfl rfl rfl (Nat.le_refl _)
  | build => exact ok.buildBody
  | derive => exact ok.deriveBody
  | buildCode => exact ok.buildCodeBody
  | encode => exact ok.encodeBody
  | decode => exact ok.decodeBody

/-- Settles O9: the draws 0, 1 and 2 of reset lie below 3, and every case of a step is one of the lemmas above. -/
theorem freeValuesStayFresh : Obligations.FreeValuesStayFresh := by
  refine ⟨by constructor <;> decide, fun s t ok h => ?_⟩
  have ok' := ok.popSched
  rcases step_cases h with ⟨-, rfl⟩ | ⟨-, -, i, -, rfl⟩ | ⟨-, -, -, rfl⟩ | ⟨-, -, rfl⟩ | ⟨-, -, rfl⟩ |
    ⟨-, a, rest, -, rfl⟩ | ⟨-, a, v, rest, -, rfl⟩ | ⟨-, rest, -, rfl⟩
  · exact drawsOk_hardReset s.popSched
  · exact (ok'.bodyOf i).finish
  · exact DrawsOk.finish (p := illegalBody s.popSched) ok'
  · exact ok'
  · exact ok'
  · exact ok'.popHost.portRead a
  · exact ok'.popHost.portWrite a v
  · split_ifs
    · exact ok'.portRead statusAddr
    · exact ok'.popHost.portRead statusAddr

end Sys2Proof.Machine
end

section
/-! PROOFS. Accesses while BUSY = 1 (R250, R251), and that a host which keeps the WAIT discipline makes none that is a hazard
(R252). -/

namespace Sys2Proof.Machine

/-! ### Reads while BUSY -/

theorem portRead_busy (a : Addr) {s : State} (hb : s.busy = true) :
    portRead a s = { s with
      readData := some (readBusyRegion s (Config.freeBits 32 s.draws 0) (regionOf s.params a))
      draws := s.draws + 1 } := by
  rw [portRead, if_pos hb]

/-- The value of a read while BUSY depends on the block alone, as that of an idle read does. -/
theorem readBusyRegion_world (s : State) (program : List HostOp) (sched : List Agent) (free : Word) (r : Region) :
    readBusyRegion { s with program := program, sched := sched } free r = readBusyRegion s free r := by
  rw [readBusyRegion, readBusyRegion, readRegion_world]

theorem readBusyRegion_status (s : State) (free : Word) : readBusyRegion s free .status = busyStatusWord s.haz free :=
  if_pos rfl

/-- A register that R251 defines while BUSY reads as ever. -/
theorem readBusyRegion_of_defined (s : State) (free : Word) {r : Region} (h : definedWhileBusy r = true) :
    readBusyRegion s free r = readRegion s r := by
  have hr : r ≠ .status := by
    rintro rfl
    exact Bool.false_ne_true h
  rw [readBusyRegion, if_neg hr, if_pos h]

/-- A read while BUSY takes the access off and a draw for its free bits; nothing else changes (R251). -/
theorem step_busy_read {s : State} {a : Addr} {rest : List HostOp} (hb : s.busy = true) (ha : nextAgent s = .host)
    (hp : s.program = .read a 4 :: rest) :
    step s = .next { s.popSched with
      program := rest
      readData := some (readBusyRegion s (Config.freeBits 32 s.draws 0) (regionOf s.params a))
      draws := s.draws + 1 } := by
  rw [step_host ha hp]
  show Host.Outcome.next (portRead a s.popSched.popHost) = _
  rw [portRead_busy a (by simpa using hb), popHost_popSched_eq hp]
  exact congrArg
    (fun v => Host.Outcome.next { s.popSched with program := rest, readData := some v, draws := s.draws + 1 })
    (readBusyRegion_world s rest s.sched.tail _ _)

/-- Settles O19: the step is `step_busy_read`, whose value is the register's where R251 defines it. -/
theorem busyReads : Obligations.BusyReads := by
  intro s a rest hb ha hp
  refine ⟨_, step_busy_read hb ha hp, ?_⟩
  have defined : ∀ r, regionOf s.params a = r → definedWhileBusy r = true →
      readBusyRegion s (Config.freeBits 32 s.draws 0) (regionOf s.params a) = readRegion s r :=
    fun r hr hd => by rw [hr]; exact readBusyRegion_of_defined s _ hd
  refine ⟨fun h => defined .id h rfl, fun h => defined .cmd h rfl, fun h => defined .inCap h rfl,
    fun h => defined .outCap h rfl, fun h => defined .bitCap h rfl, fun h => ?_⟩
  rw [h, readBusyRegion_status]
  exact busyStatusWord_bits s.haz _

/-! ### Writes while BUSY -/

theorem portWrite_busy (a : Addr) (v : Word) {s : State} (hb : s.busy = true) : portWrite a v s = { s with haz := true } := by
  rw [portWrite, if_pos hb]

/-- Settles O22: while BUSY = 1 the port's write sets HAZ alone. -/
theorem busyWriteSetsHaz : Obligations.BusyWriteSetsHaz := by
  intro s a v rest hb ha hp
  rw [step_host ha hp]
  show Host.Outcome.next (portWrite a v s.popSched.popHost) = _
  rw [portWrite_busy a v (by simpa using hb), popHost_popSched_eq hp]

/-! ### Who sets HAZ -/

/-- No command sets HAZ: CLEAR clears it, and every other command keeps it (R26). -/
theorem finish_body_haz_false (i : Instr) {s : State} (hz : s.haz = false) : (finish (bodyOf i s)).haz = false := by
  by_cases hi : i = .clear
  · subst hi
    rfl
  · exact (finish_keeps_haz_freq i s hi).1.trans hz

/-- A write while BUSY = 0 leaves BUSY set exactly when it went to CMD (R25), and the capacities, HAZ and the accesses to come. -/
theorem portWrite_idle_keeps (a : Addr) (v : Word) {s : State} (hb : s.busy = false) :
    (portWrite a v s).busy = decide (regionOf s.params a = .cmd) ∧ (portWrite a v s).params = s.params ∧
    (portWrite a v s).haz = s.haz ∧ (portWrite a v s).program = s.program := by
  rw [portWrite_idle a v hb]
  cases regionOf s.params a with
  | cmd => exact ⟨rfl, rfl, rfl, rfl⟩
  | _ => exact ⟨hb, rfl, rfl, rfl⟩

/-- HAZ is set by a host write while BUSY = 1 and by nothing else (R250). -/
theorem busy_write_of_haz_set {s t : State} (h : step s = .next t) (hs : s.haz = false) (ht : t.haz = true) :
    s.busy = true ∧ ∃ a v rest, s.program = .write a 4 v :: rest := by
  rcases step_data_cases h with ha | ⟨-, -, i, -, rfl⟩ | ⟨-, a, v, rest, hp, rfl⟩ | keeps
  · obtain rfl : hardReset s.popSched = t := Host.Outcome.next.inj ((step_reset ha).symm.trans h)
    exact absurd ht Bool.false_ne_true
  · exact absurd ((finish_body_haz_false i (s := s.popSched) hs).symm.trans ht) Bool.false_ne_true
  · refine ⟨?_, a, v, rest, hp⟩
    by_contra hb
    obtain ⟨-, -, keep, -⟩ := portWrite_idle_keeps a v (s := s.popSched.popHost) (Bool.eq_false_of_not_eq_true hb)
    exact absurd (hs.symm.trans (keep.symm.trans ht)) Bool.false_ne_true
  · exact absurd (hs.symm.trans (keeps.haz.symm.trans ht)) Bool.false_ne_true

/-! ### The discipline -/

/-- Whoever may make the accesses with a WAIT outstanding may make them without one. -/
theorem disciplined_false_of_true (p : Config.Params) {ops : List HostOp} (h : disciplined p true ops = true) :
    disciplined p false ops = true := by
  induction ops with
  | nil => rfl
  | cons op ops ih =>
    cases op with
    | read a size =>
      simp only [disciplined, Bool.and_eq_true] at h ⊢
      exact ⟨rfl, ih h.2⟩
    | write a size v => exact absurd h Bool.false_ne_true
    | wait => exact h

namespace KeepsDiscipline

/-- The discipline asks of a state its capacities, its accesses to come and whether BUSY may be 1. -/
theorem of_same {s t : State} (d : KeepsDiscipline s) (hparams : t.params = s.params) (hprogram : t.program = s.program)
    (hbusy : t.busy = s.busy ∨ t.busy = false) : KeepsDiscipline t := by
  unfold KeepsDiscipline at d ⊢
  rw [hparams, hprogram]
  rcases hbusy with hb | hb <;> rw [hb]
  · exact d
  · cases hs : s.busy with
    | false => rwa [hs] at d
    | true => exact disciplined_false_of_true s.params (by rwa [hs] at d)

theorem popSched {s : State} (d : KeepsDiscipline s) : KeepsDiscipline s.popSched := d.of_same rfl rfl (.inl rfl)

theorem portRead {s : State} (d : KeepsDiscipline s) (a : Addr) : KeepsDiscipline (portRead a s) := by
  obtain ⟨v, n, h, -⟩ := portRead_eq a s
  rw [h]
  exact d.of_same rfl rfl (.inl rfl)

/-- A read in front is allowed while BUSY = 1, and the accesses after it keep the discipline. -/
theorem read {s : State} {a : Addr} {size : Nat} {rest : List HostOp} (d : KeepsDiscipline s)
    (hp : s.program = .read a size :: rest) :
    (s.busy = true → allowedWhilePending s.params a = true) ∧ KeepsDiscipline s.popHost := by
  unfold KeepsDiscipline at d ⊢
  rw [hp, disciplined, Bool.and_eq_true, Bool.or_eq_true] at d
  obtain ⟨allowed, after⟩ := d
  rw [State.popHost_program, hp]
  exact ⟨fun hb => allowed.resolve_left (by simp [hb]), after⟩

/-- A write in front comes while BUSY = 0; after one to CMD a WAIT is due. -/
theorem write {s : State} {a : Addr} {size : Nat} {v : Word} {rest : List HostOp} (d : KeepsDiscipline s)
    (hp : s.program = .write a size v :: rest) :
    s.busy = false ∧ disciplined s.params (decide (regionOf s.params a = .cmd)) s.popHost.program = true := by
  unfold KeepsDiscipline at d
  rw [hp, disciplined, Bool.and_eq_true, Bool.not_eq_true'] at d
  rw [State.popHost_program, hp]
  exact d

/-- After a WAIT that ends, no WAIT is due. -/
theorem wait {s : State} {rest : List HostOp} (d : KeepsDiscipline s) (hp : s.program = .wait :: rest)
    (hb : s.busy = false) : KeepsDiscipline s.popHost := by
  unfold KeepsDiscipline at d ⊢
  rw [hp, disciplined] at d
  rwa [State.popHost_program, hp, State.popHost_busy, hb]

theorem portWrite {s : State} {a : Addr} {size : Nat} {v : Word} {rest : List HostOp} (d : KeepsDiscipline s)
    (hp : s.program = .write a size v :: rest) : KeepsDiscipline (portWrite a v s.popHost) := by
  obtain ⟨idle, after⟩ := d.write hp
  obtain ⟨hbusy, hparams, -, hprogram⟩ := portWrite_idle_keeps a v (s := s.popHost) idle
  rwa [KeepsDiscipline, hbusy, hparams, hprogram]

theorem finish_body {s : State} (d : KeepsDiscipline s) (i : Instr) : KeepsDiscipline (finish (bodyOf i s)) := by
  have keeps := finish_body_keeps i s
  exact d.of_same keeps.params keeps.program (.inr keeps.idle)

end KeepsDiscipline

/-- Every step of every agent keeps the discipline. -/
theorem step_keepsDiscipline {s t : State} (d : KeepsDiscipline s) (h : step s = .next t) : KeepsDiscipline t := by
  have d' := d.popSched
  rcases step_cases h with ⟨-, rfl⟩ | ⟨-, -, i, -, rfl⟩ | ⟨-, -, -, rfl⟩ | ⟨-, -, rfl⟩ | ⟨-, -, rfl⟩ |
    ⟨-, a, rest, hp, rfl⟩ | ⟨-, a, v, rest, hp, rfl⟩ | ⟨-, rest, hp, rfl⟩
  · exact d'.of_same rfl rfl (.inr rfl)
  · exact d'.finish_body i
  · exact d'.of_same rfl rfl (.inr rfl)
  · exact d'
  · exact d'
  · exact (d'.read hp).2.portRead a
  · exact d'.portWrite hp
  · split_ifs with hb
    · exact d'.portRead statusAddr
    · exact (d'.wait hp (Bool.eq_false_of_not_eq_true hb)).portRead statusAddr

/-- Settles O25: `step_keepsDiscipline`; HAZ is set by a write while BUSY = 1 alone, and a disciplined host's next access is no
such write and no read that R252 does not allow. -/
theorem disciplinedHostIsSafe : Obligations.DisciplinedHostIsSafe := by
  intro s t d h
  refine ⟨step_keepsDiscipline d h, fun hs => ?_, fun a rest hb _ hp => (d.read hp).1 hb⟩
  by_contra ht
  obtain ⟨hb, a, v, rest, hp⟩ := busy_write_of_haz_set h hs (Bool.eq_true_of_not_eq_false ht)
  exact absurd ((d.write hp).1.symm.trans hb) Bool.false_ne_true

end Sys2Proof.Machine
end

section
/-! PROOFS. `Inv` holds of the state right after reset (R242). -/

namespace Sys2Proof.Machine

/-- The state right after reset is a `hardReset` with no draw taken before it, so what holds after every reset holds of it. -/
theorem resetOf_eq_hardReset (p : Config.Params) : State.resetOf p = hardReset { State.resetOf p with draws := 0 } := rfl

/-- Every well-formed build starts with the invariant, not the default build alone (log entry 8). -/
theorem inv_resetOf {p : Config.Params} (hp : wfParams p) : Inv (State.resetOf p) := by
  rw [resetOf_eq_hardReset]
  exact inv_hardReset hp

/-- Settles O7: the default capacities of R5 are well formed, so `inv_resetOf` speaks of the default build. -/
theorem invAtReset : Obligations.InvAtReset := by
  have defaults : wfParams Config.defaultParams := by decide
  exact inv_resetOf defaults

end Sys2Proof.Machine
end
